-- ==== Sys2Proof/Word.lean ====
section
/-! DEFINITION. The two machine words of the bitpack-rle core.

Every register of the register port is 32 bits wide and every buffer element is one unsigned byte
(spec/00_scope.md R9; bit 0 is the least significant bit of both, R10). -/

namespace Sys2Proof

/-- A 32-bit register, command word or counter (R9). -/
abbrev Word := BitVec 32

/-- One unsigned 8-bit element of the buffer memory (R9, R50). -/
abbrev Byte := BitVec 8

end Sys2Proof
end

