-- ==== Sys2Proof/Syntax.lean ====
section
/-! DEFINITION. The commands of the core, one constructor per row of spec/opcode_table.json. -/

namespace Sys2Proof

/-- A decoded command (spec/30_encoding.md R75). Format B carries the operands `byte` (8 bits) and
`pos` (4 bits, 0 .. 15, R72); format Z carries none (R73). Illegal words are no command: the decoder
answers them with a verdict of its own (R79). -/
inductive Instr where
  | nop
  | getBit (byte : Byte) (pos : BitVec 4)
  | setBit (byte : Byte) (pos : BitVec 4)
  | clearBit (byte : Byte) (pos : BitVec 4)
  | pack
  | encode
  deriving DecidableEq, Repr

end Sys2Proof
end

