-- ==== Sys2Proof/WellFormed.lean ====
section
/-! DEFINITION. Which written commands are well formed.

The fields of `Instr` have exactly the widths of R72, so every `Instr` is encodable. What can be
ill formed is a command as it is WRITTEN: a mnemonic with a list of numbers (spec/30_encoding.md R80:
"BYTE is a number 0 .. 255 and POS a number 0 .. 15"). -/

namespace Sys2Proof

/-- The six mnemonics of R80. -/
inductive Mnemonic where
  | nop
  | getBit
  | setBit
  | clearBit
  | pack
  | encode
  deriving DecidableEq, Repr

/-- The mnemonic of a command. -/
def Instr.mnemonic : Instr → Mnemonic
  | .nop => .nop
  | .getBit _ _ => .getBit
  | .setBit _ _ => .setBit
  | .clearBit _ _ => .clearBit
  | .pack => .pack
  | .encode => .encode

/-- The operands of a command as numbers, in the order they are written (R80). -/
def Instr.operands : Instr → List Nat
  | .nop => []
  | .getBit b p => [b.toNat, p.toNat]
  | .setBit b p => [b.toNat, p.toNat]
  | .clearBit b p => [b.toNat, p.toNat]
  | .pack => []
  | .encode => []

/-- A command as written: a mnemonic and numbers of any size and count. -/
structure RawCommand where
  mnemonic : Mnemonic
  operands : List Nat
  deriving DecidableEq, Repr

/-- R80: the format B commands take BYTE in 0 .. 255 and POS in 0 .. 15, the others nothing. -/
def RawCommand.wellFormed (c : RawCommand) : Bool :=
  match c.mnemonic, c.operands with
  | .nop, [] => true
  | .getBit, [b, p] => decide (b < 256) && decide (p < 16)
  | .setBit, [b, p] => decide (b < 256) && decide (p < 16)
  | .clearBit, [b, p] => decide (b < 256) && decide (p < 16)
  | .pack, [] => true
  | .encode, [] => true
  | _, _ => false

/-- The command a well-formed written command stands for; an ill-formed one stands for none. -/
def RawCommand.toInstr (c : RawCommand) : Option Instr :=
  if c.wellFormed then
    match c.mnemonic, c.operands with
    | .nop, _ => some .nop
    | .getBit, [b, p] => some (.getBit (BitVec.ofNat 8 b) (BitVec.ofNat 4 p))
    | .setBit, [b, p] => some (.setBit (BitVec.ofNat 8 b) (BitVec.ofNat 4 p))
    | .clearBit, [b, p] => some (.clearBit (BitVec.ofNat 8 b) (BitVec.ofNat 4 p))
    | .pack, _ => some .pack
    | .encode, _ => some .encode
    | _, _ => none
  else none

/-- A command written out. -/
def Instr.raw (i : Instr) : RawCommand := { mnemonic := i.mnemonic, operands := i.operands }

end Sys2Proof
end

