-- ==== Sys2Proof/Decode.lean ====
section
/-! DEFINITION. The command decoder and encoder (spec/30_encoding.md).

A command is one 32-bit word (R70). The decoder is total on every word (R79) and names the reason
of an Illegal verdict; both reasons end in the one error ILLEGAL_COMMAND (R76, R77). -/

namespace Sys2Proof

/-- Why a word decodes to Illegal. -/
inductive IllegalWord where
  /-- OP in 0x6 .. 0xF (R76). -/
  | reservedOpcode
  /-- OP in 0x0 .. 0x5 and a nonzero reserved field (R77). -/
  | reservedField
  deriving DecidableEq, Repr

/-- Field OP, bits [31:28] (R71). -/
def opField (w : Word) : BitVec 4 := w.extractLsb' 28 4

/-- Field POS of format B, bits [11:8] (R72). -/
def posField (w : Word) : BitVec 4 := w.extractLsb' 8 4

/-- Field BYTE of format B, bits [7:0] (R72). -/
def byteField (w : Word) : Byte := w.extractLsb' 0 8

/-- The reserved field of format B, bits [27:12] (R72). -/
def reservedB (w : Word) : BitVec 16 := w.extractLsb' 12 16

/-- The reserved field of format Z, bits [27:0] (R73). -/
def reservedZ (w : Word) : BitVec 28 := w.extractLsb' 0 28

/-- Format Z: the command, if the reserved field is zero (R73, R77). -/
def decodeZ (w : Word) (i : Instr) : Except IllegalWord Instr :=
  if reservedZ w = 0 then .ok i else .error .reservedField

/-- Format B: the command with its operands, if the reserved field is zero (R72, R74, R77). -/
def decodeB (w : Word) (f : Byte → BitVec 4 → Instr) : Except IllegalWord Instr :=
  if reservedB w = 0 then .ok (f (byteField w) (posField w)) else .error .reservedField

/-- The decoder of R79. -/
def decode (w : Word) : Except IllegalWord Instr :=
  match (opField w).toNat with
  | 0 => decodeZ w .nop
  | 1 => decodeB w .getBit
  | 2 => decodeB w .setBit
  | 3 => decodeB w .clearBit
  | 4 => decodeZ w .pack
  | 5 => decodeZ w .encode
  | _ => .error .reservedOpcode

/-- The decoder's verdict with the reason dropped: `none` is R79's `Illegal`. -/
def verdict (w : Word) : Option Instr :=
  match decode w with
  | .ok i => some i
  | .error _ => none

/-- A format B word: OP, sixteen zero bits, POS, BYTE, from bit 31 down (R72). -/
def encodeB (op : BitVec 4) (byte : Byte) (pos : BitVec 4) : Word :=
  op ++ 0#16 ++ pos ++ byte

/-- A format Z word: OP and twenty-eight zero bits (R73). -/
def encodeZ (op : BitVec 4) : Word :=
  op ++ 0#28

/-- The word of a command (R72, R73, R80). -/
def encode : Instr → Word
  | .nop => encodeZ 0x0#4
  | .getBit b p => encodeB 0x1#4 b p
  | .setBit b p => encodeB 0x2#4 b p
  | .clearBit b p => encodeB 0x3#4 b p
  | .pack => encodeZ 0x4#4
  | .encode => encodeZ 0x5#4

/-- One row of the opcode map (R75). -/
structure OpcodeRow where
  mnemonic : Mnemonic
  pattern  : Word
  mask     : Word
  deriving DecidableEq, Repr

/-- A word selects a row when `w & mask` equals the row's match value (R75). -/
def OpcodeRow.selects (r : OpcodeRow) (w : Word) : Bool := w &&& r.mask == r.pattern

/-- R75's table, row by row. -/
def opcodeTable : List OpcodeRow :=
  [ { mnemonic := .nop, pattern := 0x00000000#32, mask := 0xFFFFFFFF#32 },
    { mnemonic := .getBit, pattern := 0x10000000#32, mask := 0xFFFFF000#32 },
    { mnemonic := .setBit, pattern := 0x20000000#32, mask := 0xFFFFF000#32 },
    { mnemonic := .clearBit, pattern := 0x30000000#32, mask := 0xFFFFF000#32 },
    { mnemonic := .pack, pattern := 0x40000000#32, mask := 0xFFFFFFFF#32 },
    { mnemonic := .encode, pattern := 0x50000000#32, mask := 0xFFFFFFFF#32 } ]

/-- The rows of the opcode map that a word selects. -/
def selectedRows (w : Word) : List OpcodeRow := opcodeTable.filter (·.selects w)

/-- The command word given by its low `nbits` bits, every bit above them 0. -/
def tableWord (nbits w : Nat) : Word := BitVec.ofNat 32 (w % 2 ^ nbits)

/-- What the decoder reads from an instruction whose low `nbits` bits are `w` and whose other bits
are 0, numbered as spec/opcode_table.json numbers them (one 32-bit word, bit 0 least significant). -/
def decodeTableWord (nbits w : Nat) : Option Instr := verdict (tableWord nbits w)

end Sys2Proof
end

