-- ==== Sys2Proof/Config.lean ====
section
/-! DEFINITION. The five implementation parameters of spec/00_scope.md R8.

The spec leaves them open and says that the model takes them as arguments. They are fixed for one
instance of the hardware and no register reads or writes them (spec/10_state.md R39). A value of
`Config.Params` travels with the state (field `params`), so a claim about every state is a claim
about every instance (notes/assumptions/1.md). -/

namespace Sys2Proof.Config

/-- PACK_OPERAND (R8, R133): the byte the packer applies set_bit and clear_bit to. -/
inductive PackOperand where
  | zero
  | accum
  | slot
  deriving DecidableEq, Repr

/-- PACK_OTHER (R8, R134): what the packer writes for a symbol that is neither '1' nor '0'. -/
inductive PackOther where
  | copy
  | nowrite
  | operand
  deriving DecidableEq, Repr

/-- RUN_ELEM_BYTES (R8, R166): the width of one run-length element, 1, 2 or 4 bytes. -/
inductive RunElem where
  | one
  | two
  | four
  deriving DecidableEq, Repr

/-- ENC_NZ_START (R8, R163): how the encoder starts when the first packed value is not 0. -/
inductive NzStart where
  | seedFirst
  | prescan
  deriving DecidableEq, Repr

/-- The parameters of one instance. `lastAddr` is MEM_BYTES - 1, the highest legal address, so that
exactly the legal sizes 1 .. 2^32 of R8 can be written (`Machine.memBytes` adds the 1 back). -/
structure Params where
  lastAddr    : Word
  packOperand : PackOperand
  packOther   : PackOther
  runElem     : RunElem
  nzStart     : NzStart
  deriving DecidableEq, Repr

/-- R8's default column: MEM_BYTES = 65536, ZERO, COPY, 1, SEED_FIRST. -/
def defaults : Params where
  lastAddr    := 0xFFFF#32
  packOperand := .zero
  packOther   := .copy
  runElem     := .one
  nzStart     := .seedFirst

end Sys2Proof.Config
end

