-- ==== Sys2Proof/Machine/State.lean ====
section
/-! DEFINITION. The state of the core: every register of spec/10_state.md R22, the fields of STATUS
(R25), the hidden state of the engine (R36), the buffer memory (R38, spec/20_memory.md R50), and
three fields of the model itself: the instance's parameters, what the host is still to do, and what
the ports last answered (notes/assumptions/1.md, 2.md, 3.md). -/

namespace Sys2Proof.Machine

/-- The buffer memory: the bytes that differ from what an unlisted address reads as, by strictly
rising address (`Memory.wf`, `unlisted` in Ops.lean). -/
abbrev Memory := List Host.Cell

/-- The errors of spec/60_exceptions.md R200 (codes 1 to 4; code 0, NONE, is the absence of one). -/
inductive ErrorKind where
  /-- Code 1: the word decodes to Illegal (R201). -/
  | illegalCommand
  /-- Code 2: a format B command with POS in 8 .. 15 (R202). -/
  | bitPosRange
  /-- Code 3: a buffer range outside the memory, or ENCODE with EN_LEN = 0 (R203). -/
  | indexOutOfBounds
  /-- Code 4: a CMD write while BUSY = 1 (R204). -/
  | cmdWhileBusy
  deriving DecidableEq, Repr

/-- STATUS, field by field (R25). The reserved bits [3], [7] and [31:12] read 0 and ignore writes, so
they are no state; `errcode` is `none` for code 0. `statusWord` in Flags.lean is the register. -/
structure Status where
  busy                   : Bool
  done                   : Bool
  error                  : Bool
  errcode                : Option ErrorKind
  incompleteGroupDropped : Bool
  trailingRunDiscarded   : Bool
  nonbinarySymbol        : Bool
  runOverflow            : Bool
  deriving DecidableEq, Repr

/-- The operand registers as copied at acceptance (spec/40_command_control.md R93). -/
structure Latched where
  pkSrc : Word
  pkDst : Word
  pkLen : Word
  enSrc : Word
  enDst : Word
  enLen : Word
  deriving DecidableEq, Repr

/-- The packer's hidden state (R36, R139): group index, position, accumulator, and the pseudocode's
`nonbin` (spec/42_bit_packer.md R132). -/
structure PackRegs where
  g      : Word
  i      : BitVec 3
  acc    : Byte
  nonbin : Bool
  deriving DecidableEq, Repr

/-- The encoder's hidden state (R36, R170): index, output count, run counter, boundary counter,
previous value, the pseudocode's `ovf` (spec/43_rle_encoder.md R162), and the bytes of the element
being emitted that are not written yet, in the order they are written (R55, R166). -/
structure EncRegs where
  i    : Word
  k    : Word
  run  : Word
  bcnt : Word
  prev : Byte
  ovf  : Bool
  pend : List Host.Cell
  deriving DecidableEq, Repr

/-- The engine state (R36): IDLE, a command just accepted and decoded (R92; `none` is Illegal), the
packer's states (R139) or the encoder's (R170), each with the latched operands it still needs. PK_END
and EN_END are states of their own on the error path; on the success path the turn that leaves
PK_FINISH or EN_FINISH passes through them (notes/assumptions/6.md). -/
inductive Engine where
  | idle
  | accepted (c : Option Instr) (l : Latched)
  | pkCheck (l : Latched)
  | pkElem (l : Latched) (r : PackRegs)
  | pkFinish (l : Latched) (r : PackRegs)
  | pkEnd (e : ErrorKind)
  | enCheck (l : Latched)
  | enPre (l : Latched)
  | enScan (l : Latched) (r : EncRegs)
  | enFinish (l : Latched) (r : EncRegs)
  | enEnd (e : ErrorKind)
  deriving DecidableEq, Repr

/-- What can happen next at the core's boundary (spec/70_reset_and_hazards.md R240, R230), and whose
turn it is (spec/20_memory.md R52). `offset`, `bytes` and `addr` are any numbers: an access that is
not part of the interface is refused (R35, R53). -/
inductive Event where
  /-- A CMD write of `w` with the engine's turns to completion and no host action among them: the
  atomic transition of R98. -/
  | command (w : Word)
  /-- A register-port read of `bytes` bytes at `offset`. -/
  | regRead (offset bytes : Nat)
  /-- A register-port write of `bytes` bytes of `v` at `offset`; a CMD write only accepts (R90). -/
  | regWrite (offset bytes : Nat) (v : Word)
  /-- HostMemRead (R53). -/
  | memRead (addr : Nat)
  /-- HostMemWrite (R53). -/
  | memWrite (addr : Nat) (v : Byte)
  /-- The host reads STATUS repeatedly until BUSY = 0 (spec/30_encoding.md R81). -/
  | poll
  /-- The reset input is asserted (R230). -/
  | reset
  /-- The engine takes one turn. -/
  | engineTurn
  deriving DecidableEq, Repr

/-- What the register port or the memory port answered last. -/
inductive Reply where
  | none
  | word (w : Word)
  | byte (b : Byte)
  deriving DecidableEq, Repr

/-- The machine's state. CMD (offset 0x00) holds no state (R24) and has no field. -/
structure State where
  /-- The instance's parameters (R8); no step changes them (R39). The model's own field. -/
  params   : Config.Params
  /-- STATUS, offset 0x04. -/
  status   : Status
  /-- RESULT, offset 0x08. -/
  result   : Word
  /-- PK_SRC, offset 0x0C. -/
  pkSrc    : Word
  /-- PK_DST, offset 0x10. -/
  pkDst    : Word
  /-- PK_LEN, offset 0x14. -/
  pkLen    : Word
  /-- EN_SRC, offset 0x18. -/
  enSrc    : Word
  /-- EN_DST, offset 0x1C. -/
  enDst    : Word
  /-- EN_LEN, offset 0x20. -/
  enLen    : Word
  /-- EN_OUTLEN, offset 0x24. -/
  enOutlen : Word
  /-- EN_RUN, offset 0x28. -/
  enRun    : Word
  /-- EN_PREV, offset 0x2C. -/
  enPrev   : Word
  /-- The engine (R36). -/
  engine   : Engine
  /-- The buffer memory (R38). -/
  mem      : Memory
  /-- What happens next, soonest first. The model's own field. -/
  events   : List Event
  /-- What the host last got back. The model's own field. -/
  reply    : Reply
  deriving DecidableEq, Repr

/-- The reasons a step stops as a fault. There are none: the spec turns every error of the core into
a report in STATUS after which the core goes on (R207, R210), and treats no behaviour as stuck
(spec/93_implementation_defined.md). -/
inductive Fault where
  deriving DecidableEq, Repr

/-- The reasons a step is refused. Each is safe: the spec gives the action no step (`refuse` in
spec/93_implementation_defined.md). -/
inductive Refusal where
  /-- An instruction without a meaning yet, by its mnemonic. Raised by no arm of `exec`. Safe. -/
  | notModelled (mnemonic : String)
  /-- A register-port access that is not a whole aligned 32-bit word or whose offset is above 0xFF
  (R35, S4). Raised by the host's `regRead` and `regWrite`. Safe. -/
  | regAccessOutsidePort
  /-- A memory-port access at an address >= MEM_BYTES (R53, U3). Raised by the host's `memRead` and
  `memWrite`. Safe. -/
  | hostAccessOutsideMemory
  /-- A memory-port access while BUSY = 1, which breaks a host duty (R241, S3). Raised by the host's
  `memRead` and `memWrite`. Safe. -/
  | hostAccessWhileBusy
  deriving DecidableEq, Repr

/-- STATUS after reset: every field 0 (R231). -/
def Status.reset : Status where
  busy := false
  done := false
  error := false
  errcode := none
  incompleteGroupDropped := false
  trailingRunDiscarded := false
  nonbinarySymbol := false
  runOverflow := false

/-- The core right after power-on and reset: every register 0, the engine IDLE (R231), and the buffer
memory as the argument says, since its contents at power-on are unspecified (R232). -/
def State.powerOn (p : Config.Params) (m : Memory) : State where
  params := p
  status := Status.reset
  result := 0
  pkSrc := 0
  pkDst := 0
  pkLen := 0
  enSrc := 0
  enDst := 0
  enLen := 0
  enOutlen := 0
  enRun := 0
  enPrev := 0
  engine := .idle
  mem := m
  events := []
  reply := .none

/-- The core right after reset with the default parameters (R8), no byte of memory listed and no host
action waiting (R231, R234). -/
def State.reset : State := State.powerOn Config.defaults []

end Sys2Proof.Machine
end

