-- ==== Sys2Proof/Machine/Ops.lean ====
section
/-! DEFINITION. The operations every meaning is built from: the buffer memory (spec/20_memory.md),
reporting an error (spec/60_exceptions.md R207, R208), and the life of a command from its CMD write
to its completion (spec/40_command_control.md R90 to R94). -/

namespace Sys2Proof.Machine

/-- What a byte that no write has reached reads as. The spec leaves power-on contents open (R232);
DESIGN CHOICE 0, unsafe, notes/assumptions/4.md. -/
def unlisted (_a : Nat) : Byte := 0

/-- The canonical form of memory: addresses strictly rising, no entry equal to what an unlisted
address reads as. -/
abbrev Memory.wf (m : Memory) : Prop :=
  m.Pairwise (fun c d => c.1 < d.1) ∧ ∀ c ∈ m, c.2 ≠ unlisted c.1

/-- Every listed address lies below `n` (R50). -/
abbrev Memory.within (m : Memory) (n : Nat) : Prop := ∀ c ∈ m, c.1 < n

/-- The byte at an address. Reading changes nothing (R58). -/
def readByte : Memory → Nat → Byte
  | [], a => unlisted a
  | c :: m, a => if c.1 = a then c.2 else readByte m a

/-- The memory with the entry of one address put in before the first higher address. -/
def insertCell : Memory → Nat → Byte → Memory
  | [], a, v => [(a, v)]
  | c :: m, a, v => if a < c.1 then (a, v) :: c :: m else c :: insertCell m a v

/-- The memory without any entry of one address. -/
def eraseCell (m : Memory) (a : Nat) : Memory := m.filter (fun c => decide (c.1 ≠ a))

/-- The memory with one byte set (R53, R55). -/
def writeByte (m : Memory) (a : Nat) (v : Byte) : Memory :=
  if v = unlisted a then eraseCell m a else insertCell (eraseCell m a) a v

/-- Byte writes performed one after the other (R62). -/
def writeCells (m : Memory) (cs : List Host.Cell) : Memory :=
  cs.foldl (fun m c => writeByte m c.1 c.2) m

/-- `MemRead(addr, n)`: the little-endian value of n bytes (R12, R55). -/
def memRead (m : Memory) (a : Nat) : Nat → Nat
  | 0 => 0
  | n + 1 => (readByte m a).toNat + 256 * memRead m (a + 1) n

/-- The byte writes of `MemWrite(addr, n, v)`, least significant byte first (R55, R56). -/
def elemCells (a : Nat) : Nat → Nat → List Host.Cell
  | 0, _ => []
  | n + 1, v => (a, BitVec.ofNat 8 (v % 256)) :: elemCells (a + 1) n (v / 256)

/-- `MemWrite(addr, n, v)` (R12, R55): the bytes in ascending address order. -/
def memWrite (m : Memory) (a n v : Nat) : Memory := writeCells m (elemCells a n v)

/-- RecordError(E) on STATUS (R208): the first code since ERROR was last 0 is kept. -/
def Status.recordError (e : ErrorKind) (st : Status) : Status :=
  { st with error := true, errcode := if st.error then st.errcode else some e }

/-- The completion of a command on STATUS, in R94's order: record the error if there is one, then
DONE <- 1, then BUSY <- 0. -/
def Status.complete (o : Option ErrorKind) (st : Status) : Status :=
  match o with
  | none => { st with done := true, busy := false }
  | some e => { st.recordError e with done := true, busy := false }

/-- RecordError(E) (R208). Reporting an error writes STATUS and nothing else: no state is saved and
control goes nowhere (R212). -/
def recordError (e : ErrorKind) (s : State) : State :=
  { s with status := s.status.recordError e }

/-- The operand latch of R93. -/
def latch (s : State) : Latched where
  pkSrc := s.pkSrc
  pkDst := s.pkDst
  pkLen := s.pkLen
  enSrc := s.enSrc
  enDst := s.enDst
  enLen := s.enLen

/-- Acceptance of a decoded word (R92, R93): BUSY becomes 1 and the engine leaves IDLE with the
operands latched. `none` is the verdict Illegal. -/
def accept (c : Option Instr) (s : State) : State :=
  { s with status := { s.status with busy := true }, engine := .accepted c (latch s) }

/-- Completion (R94): STATUS as `Status.complete` says, and the engine is IDLE again. Every error of
codes 1 to 3 is taken here. -/
def complete (o : Option ErrorKind) (s : State) : State :=
  { s with status := s.status.complete o, engine := .idle }

/-- The outcome of `Run(c, L)` (R95): `Ok` with the command's writes, or `Error(E)`, which carries no
state because an error has no partial effect (R207). -/
inductive RunResult where
  | ok (s : State)
  | error (e : ErrorKind)
  deriving DecidableEq, Repr

/-- The completion of a command that ran from `s`. -/
def finish (s : State) : RunResult → State
  | .ok s' => complete none s'
  | .error e => complete (some e) s

/-- `OnCmdWrite` of R90 as one transition (R98): rejected while BUSY = 1 (R91), else accepted,
run and completed. -/
def onCommand (c : Option Instr) (run : Latched → State → RunResult) (s : State) : State :=
  if s.status.busy then recordError .cmdWhileBusy s
  else finish (accept c s) (run (latch s) (accept c s))

end Sys2Proof.Machine
end

