-- ==== Sys2Proof/Machine/Operands.lean ====
section
/-! DEFINITION. Operand forms: the parameter values as numbers, the range checks of PACK and ENCODE,
the addresses they form, and the packer's operand and output bytes. -/

namespace Sys2Proof.Machine

open Sys2Proof.Config

/-- MEM_BYTES (spec/00_scope.md R8): legal addresses are 0 .. MEM_BYTES - 1. -/
def memBytes (P : Params) : Nat := P.lastAddr.toNat + 1

/-- RUN_ELEM_BYTES as a number (R8). -/
def elemBytes (P : Params) : Nat :=
  match P.runElem with
  | .one => 1
  | .two => 2
  | .four => 4

/-- The symbol '1' (R15). -/
def symbolOne : Byte := 0x31#8

/-- The symbol '0' (R15). -/
def symbolZero : Byte := 0x30#8

/-- The position operand of a format B command, when it is in range: `pos[2:0]` if pos <= 7 (R111). -/
def bitPosition (pos : BitVec 4) : Option (BitVec 3) :=
  if pos.toNat ≤ 7 then some (pos.extractLsb' 0 3) else none

/-- PACK's range check (R138): both ranges of the full claimed length, on unbounded integers. -/
def packInRange (P : Params) (l : Latched) : Bool :=
  decide (l.pkSrc.toNat + l.pkLen.toNat ≤ memBytes P)
    && decide (l.pkDst.toNat + l.pkLen.toNat ≤ memBytes P)

/-- The number of complete groups, N div 8 (R132). -/
def groupCount (l : Latched) : Nat := l.pkLen.toNat / 8

/-- The absolute running index 8g + i (R132). -/
def packIndex (g i : Nat) : Nat := 8 * g + i

/-- The address of symbol `idx` (R132). -/
def symbolAddr (l : Latched) (idx : Nat) : Nat := l.pkSrc.toNat + idx

/-- The address of output slot `idx` (R132). -/
def slotAddr (l : Latched) (idx : Nat) : Nat := l.pkDst.toNat + idx

/-- The operand byte of R133, from the accumulator and the byte already in the slot. -/
def packOperandByte (P : Params) (acc slot : Byte) : Byte :=
  match P.packOperand with
  | .zero => 0x00#8
  | .accum => acc
  | .slot => slot

/-- What is written for a symbol that is neither '1' nor '0' (R134); `none` writes nothing. -/
def packOtherByte (P : Params) (sym op : Byte) : Option Byte :=
  match P.packOther with
  | .copy => some sym
  | .nowrite => none
  | .operand => some op

/-- ENCODE's range check (R171): a length of at least 1, and both ranges on unbounded integers. -/
def encInRange (P : Params) (l : Latched) : Bool :=
  decide (l.enLen.toNat ≠ 0)
    && decide (l.enSrc.toNat + l.enLen.toNat ≤ memBytes P)
    && decide (l.enDst.toNat + elemBytes P * l.enLen.toNat ≤ memBytes P)

/-- The address of packed index `i` (R162). -/
def packedAddr (l : Latched) (i : Nat) : Nat := l.enSrc.toNat + i

/-- The address of run-length element `k` (R166). -/
def elemAddr (P : Params) (l : Latched) (k : Nat) : Nat := l.enDst.toNat + elemBytes P * k

/-- Where the scan starts and what precedes it (R163): the cursor after the pre-step, from v0. -/
def startCursor (P : Params) (v0 : Byte) : Word :=
  if v0 = 0x00#8 then 1 else
    match P.nzStart with
    | .seedFirst => 0
    | .prescan => 1

end Sys2Proof.Machine
end

