-- ==== Sys2Proof/Machine/Flags.lean ====
section
/-! DEFINITION. STATUS as the register port sees it, its write-1-to-clear rule, and every flag a
command computes (spec/10_state.md R25 to R30). -/

namespace Sys2Proof.Machine

/-- The code of an error (spec/60_exceptions.md R200). -/
def ErrorKind.code : ErrorKind → BitVec 3
  | .illegalCommand => 1
  | .bitPosRange => 2
  | .indexOutOfBounds => 3
  | .cmdWhileBusy => 4

/-- ERRCODE, STATUS[6:4] (R25): 0 when no error is recorded. -/
def errField : Option ErrorKind → BitVec 3
  | none => 0
  | some e => e.code

/-- The STATUS register as it is read (R25), bit 31 first; reserved bits read 0. -/
def statusWord (st : Status) : Word :=
  0#20 ++ BitVec.ofBool st.runOverflow ++ BitVec.ofBool st.nonbinarySymbol
    ++ BitVec.ofBool st.trailingRunDiscarded ++ BitVec.ofBool st.incompleteGroupDropped
    ++ 0#1 ++ errField st.errcode ++ 0#1
    ++ BitVec.ofBool st.error ++ BitVec.ofBool st.done ++ BitVec.ofBool st.busy

/-- A register-port write to STATUS (R30): each W1C field whose bit is 1 is cleared, ERRCODE together
with ERROR; every other bit of the written word is ignored. -/
def clearStatus (w : Word) (st : Status) : Status where
  busy := st.busy
  done := st.done && !w.getLsbD 1
  error := st.error && !w.getLsbD 2
  errcode := if w.getLsbD 2 then none else st.errcode
  incompleteGroupDropped := st.incompleteGroupDropped && !w.getLsbD 8
  trailingRunDiscarded := st.trailingRunDiscarded && !w.getLsbD 9
  nonbinarySymbol := st.nonbinarySymbol && !w.getLsbD 10
  runOverflow := st.runOverflow && !w.getLsbD 11

/-- The flags of a successful PACK of claimed length N (spec/42_bit_packer.md R136, R137): set, never
cleared. -/
def packFlags (len : Nat) (nonbin : Bool) (st : Status) : Status :=
  { st with
    incompleteGroupDropped := st.incompleteGroupDropped || decide (len % 8 ≠ 0)
    nonbinarySymbol := st.nonbinarySymbol || nonbin }

/-- The flags of a successful ENCODE (spec/43_rle_encoder.md R167, R168): the trailing run is always
discarded. -/
def encFlags (ovf : Bool) (st : Status) : Status :=
  { st with
    trailingRunDiscarded := true
    runOverflow := st.runOverflow || ovf }

/-- Whether a run value does not fit an element of RUN_ELEM_BYTES bytes (R167). -/
def overflows (P : Config.Params) (x : Word) : Bool := decide (2 ^ (8 * elemBytes P) ≤ x.toNat)

end Sys2Proof.Machine
end

