-- ==== Sys2Proof/Machine/Control.lean ====
section
/-! DEFINITION. NOP and the Illegal verdict (spec/40_command_control.md R95, R100;
spec/60_exceptions.md R201). -/

namespace Sys2Proof.Machine

/-- `Run(NOP, L)`: nothing (R100). -/
def runNop (_l : Latched) (s : State) : RunResult := .ok s

/-- NOP (R100): only the lifecycle changes STATUS. -/
def execNop (s : State) : Host.Outcome State Fault Refusal :=
  .next (onCommand (some .nop) runNop s)

/-- `Run(Illegal, L)`: ILLEGAL_COMMAND with no other effect (R95, R201). -/
def runIllegal (_l : Latched) (_s : State) : RunResult := .error .illegalCommand

/-- A CMD write whose word decodes to Illegal (R76, R77): accepted when BUSY = 0, performs nothing,
ends with ILLEGAL_COMMAND. -/
def execIllegal (s : State) : Host.Outcome State Fault Refusal :=
  .next (onCommand none runIllegal s)

end Sys2Proof.Machine
end

