-- ==== Sys2Proof/Machine/Encoder.lean ====
section
/-! DEFINITION. The run-length encoder, command ENCODE (spec/43_rle_encoder.md). -/

namespace Sys2Proof.Machine

open Sys2Proof.Config

/-- What ENCODE carries from one index to the next (R162). The counters are 32 bits wide (R9). -/
structure EncLoop where
  mem  : Memory
  k    : Word
  run  : Word
  bcnt : Word
  prev : Byte
  ovf  : Bool
  deriving DecidableEq, Repr

/-- `Emit(x)` (R166, R167): the low 8E bits of x as element k, little-endian, then k + 1. -/
def emit (P : Params) (l : Latched) (x : Word) (st : EncLoop) : EncLoop :=
  { st with
    mem := memWrite st.mem (elemAddr P l st.k.toNat) (elemBytes P)
      (x.toNat % 2 ^ (8 * elemBytes P))
    k := st.k + 1
    ovf := st.ovf || overflows P x }

/-- The pre-step (R163) on the first packed value: the leading marker if it is 0, and the seed of the
previous value, which is v0 in every case. -/
def encPre (P : Params) (l : Latched) (m : Memory) : EncLoop :=
  let v0 := readByte m (packedAddr l 0)
  let st : EncLoop := { mem := m, k := 0, run := 0, bcnt := 0, prev := v0, ovf := false }
  if v0 = 0x00#8 then emit P l 0 st else st

/-- The boundary counter at index i (R164). -/
def countBoundary (i : Nat) (bcnt : Word) : Word := if i % 8 = 0 then bcnt + 1 else bcnt

/-- The scan of index i (R164). -/
def encIndex (P : Params) (l : Latched) (i : Nat) (st : EncLoop) : EncLoop :=
  let v := readByte st.mem (packedAddr l i)
  let st' := { st with bcnt := countBoundary i st.bcnt }
  if v = st.prev then { st' with run := st'.run + 1 }
  else { emit P l st'.run st' with run := 0, prev := v }

/-- The scan of `n` indices, from index `i` on, in ascending order. -/
def encScan (P : Params) (l : Latched) : Nat → Nat → EncLoop → EncLoop
  | 0, _, st => st
  | n + 1, i, st => encScan P l n (i + 1) (encIndex P l i st)

/-- The pre-step and the scan of indices cursor .. N-1 (R162). -/
def encAll (P : Params) (l : Latched) (m : Memory) : EncLoop :=
  let cursor := (startCursor P (readByte m (packedAddr l 0))).toNat
  encScan P l (l.enLen.toNat - cursor) cursor (encPre P l m)

/-- ENCODE's last lines (R162, R165, R167, R168): the four result registers and the flags. -/
def encFinish (bcnt k run : Word) (prev : Byte) (ovf : Bool) (s : State) : State :=
  { s with
    result := bcnt
    enOutlen := k
    enRun := run
    enPrev := prev.setWidth 32
    status := encFlags ovf s.status }

/-- `Run(ENCODE, L)` (R162): the checks before any access (R171), the pre-step, the scan, the
results. The in-progress run is not emitted (R168). -/
def runEncode (l : Latched) (s : State) : RunResult :=
  if encInRange s.params l then
    let st := encAll s.params l s.mem
    .ok (encFinish st.bcnt st.k st.run st.prev st.ovf { s with mem := st.mem })
  else .error .indexOutOfBounds

/-- ENCODE (R160 to R171). -/
def execEncode (s : State) : Host.Outcome State Fault Refusal :=
  .next (onCommand (some .encode) runEncode s)

end Sys2Proof.Machine
end

