-- ==== Sys2Proof/Machine/BitPrim.lean ====
section
/-! DEFINITION. The bit primitive module and its three commands (spec/41_bit_primitives.md). -/

namespace Sys2Proof.Machine

/-- The mask 1 << p (R110, R11). -/
def bitMask (p : BitVec 3) : Byte := 1#8 <<< p.toNat

/-- get_bit(b, p): bit p of b, as the value 0 or 1 (R110). -/
def getBit (b : Byte) (p : BitVec 3) : Byte := (b >>> p.toNat) &&& 1#8

/-- set_bit(b, p): b with bit p forced to 1 (R110). -/
def setBit (b : Byte) (p : BitVec 3) : Byte := b ||| bitMask p

/-- clear_bit(b, p): b with bit p forced to 0 (R110). -/
def clearBit (b : Byte) (p : BitVec 3) : Byte := b &&& ~~~ bitMask p

/-- The module's operation input (R123). -/
inductive BitOp where
  | get
  | set
  | clr
  deriving DecidableEq, Repr

/-- The bit primitive module (R122, R123): combinational, without state. -/
def bitModule (op : BitOp) (b : Byte) (p : BitVec 3) : Byte :=
  match op with
  | .get => getBit b p
  | .set => setBit b p
  | .clr => clearBit b p

/-- A format B command (R111, R112, R114, R116): BIT_POS_RANGE when pos > 7, else RESULT receives the
module's output zero-extended. -/
def runBitOp (op : BitOp) (byte : Byte) (pos : BitVec 4) (s : State) : RunResult :=
  match bitPosition pos with
  | none => .error .bitPosRange
  | some p => .ok { s with result := (bitModule op byte p).setWidth 32 }

/-- `Run(GET_BIT(byte, pos), L)` (R112). -/
def runGetBit (byte : Byte) (pos : BitVec 4) (_l : Latched) (s : State) : RunResult :=
  runBitOp .get byte pos s

/-- `Run(SET_BIT(byte, pos), L)` (R114). -/
def runSetBit (byte : Byte) (pos : BitVec 4) (_l : Latched) (s : State) : RunResult :=
  runBitOp .set byte pos s

/-- `Run(CLEAR_BIT(byte, pos), L)` (R116). -/
def runClearBit (byte : Byte) (pos : BitVec 4) (_l : Latched) (s : State) : RunResult :=
  runBitOp .clr byte pos s

/-- GET_BIT (R112, R113). -/
def execGetBit (byte : Byte) (pos : BitVec 4) (s : State) : Host.Outcome State Fault Refusal :=
  .next (onCommand (some (.getBit byte pos)) (runGetBit byte pos) s)

/-- SET_BIT (R114, R115). -/
def execSetBit (byte : Byte) (pos : BitVec 4) (s : State) : Host.Outcome State Fault Refusal :=
  .next (onCommand (some (.setBit byte pos)) (runSetBit byte pos) s)

/-- CLEAR_BIT (R116, R117). -/
def execClearBit (byte : Byte) (pos : BitVec 4) (s : State) : Host.Outcome State Fault Refusal :=
  .next (onCommand (some (.clearBit byte pos)) (runClearBit byte pos) s)

end Sys2Proof.Machine
end

