-- ==== Sys2Proof/Machine/Packer.lean ====
section
/-! DEFINITION. The bit packer, command PACK (spec/42_bit_packer.md). -/

namespace Sys2Proof.Machine

open Sys2Proof.Config

/-- What PACK's loop carries from one symbol to the next (R132): the memory, the accumulator and the
`nonbin` mark. -/
structure PackLoop where
  mem    : Memory
  acc    : Byte
  nonbin : Bool
  deriving DecidableEq, Repr

/-- A primitive's result: written to the slot, and to the accumulator under ACCUM (R132, R133). -/
def packResult (P : Params) (slot : Nat) (r : Byte) (st : PackLoop) : PackLoop :=
  { st with
    mem := writeByte st.mem slot r
    acc := if P.packOperand = .accum then r else st.acc }

/-- A symbol that is neither '1' nor '0' (R134): the mark is set, the accumulator kept. -/
def packOther (P : Params) (slot : Nat) (sym op : Byte) (st : PackLoop) : PackLoop :=
  match packOtherByte P sym op with
  | some b => { st with mem := writeByte st.mem slot b, nonbin := true }
  | none => { st with nonbin := true }

/-- The loop body of R132 at absolute index `idx`, position `pos` of its group. -/
def packElem (P : Params) (l : Latched) (idx : Nat) (pos : BitVec 3) (st : PackLoop) : PackLoop :=
  let sym := readByte st.mem (symbolAddr l idx)
  let op := packOperandByte P st.acc (readByte st.mem (slotAddr l idx))
  if sym = symbolOne then packResult P (slotAddr l idx) (bitModule .set op pos) st
  else if sym = symbolZero then packResult P (slotAddr l idx) (bitModule .clr op pos) st
  else packOther P (slotAddr l idx) sym op st

/-- `n` positions of group `g`, from position `i` on, in ascending order. -/
def packPositions (P : Params) (l : Latched) (g : Nat) : Nat → Nat → PackLoop → PackLoop
  | 0, _, st => st
  | n + 1, i, st =>
    packPositions P l g n (i + 1) (packElem P l (packIndex g i) (BitVec.ofNat 3 i) st)

/-- One group: the accumulator starts at 0x00 and the eight positions follow (R132). -/
def packGroup (P : Params) (l : Latched) (g : Nat) (st : PackLoop) : PackLoop :=
  packPositions P l g 8 0 { st with acc := 0x00#8 }

/-- `n` groups, from group `g` on, in ascending order (R132). -/
def packGroups (P : Params) (l : Latched) : Nat → Nat → PackLoop → PackLoop
  | 0, _, st => st
  | n + 1, g, st => packGroups P l n (g + 1) (packGroup P l g st)

/-- The whole of PACK's loop from a memory. -/
def packAll (P : Params) (l : Latched) (m : Memory) : PackLoop :=
  packGroups P l (groupCount l) 0 { mem := m, acc := 0x00#8, nonbin := false }

/-- PACK's last lines (R132, R135 to R137): RESULT and the flags. -/
def packFinish (l : Latched) (nonbin : Bool) (s : State) : State :=
  { s with
    result := BitVec.ofNat 32 (groupCount l)
    status := packFlags l.pkLen.toNat nonbin s.status }

/-- `Run(PACK, L)` (R132): the range check before any access (R138), the groups, RESULT and flags. -/
def runPack (l : Latched) (s : State) : RunResult :=
  if packInRange s.params l then
    let st := packAll s.params l s.mem
    .ok (packFinish l st.nonbin { s with mem := st.mem })
  else .error .indexOutOfBounds

/-- PACK (R130 to R138). -/
def execPack (s : State) : Host.Outcome State Fault Refusal :=
  .next (onCommand (some .pack) runPack s)

end Sys2Proof.Machine
end

