-- ==== Sys2Proof/Machine/Dispatch.lean ====
section
/-! DEFINITION. One arm per command: the atomic transition of a CMD write of that command
(spec/40_command_control.md R90, R95, R98). -/

namespace Sys2Proof.Machine

def exec (i : Instr) (s : State) : Host.Outcome State Fault Refusal :=
  match i with
  | .nop => Sys2Proof.Machine.execNop s
  | .getBit byte pos => Sys2Proof.Machine.execGetBit byte pos s
  | .setBit byte pos => Sys2Proof.Machine.execSetBit byte pos s
  | .clearBit byte pos => Sys2Proof.Machine.execClearBit byte pos s
  | .pack => Sys2Proof.Machine.execPack s
  | .encode => Sys2Proof.Machine.execEncode s

end Sys2Proof.Machine
end

