-- ==== Sys2Proof/Machine/Engine.lean ====
section
/-! DEFINITION. The engine one turn at a time: the packer's state machine (spec/42_bit_packer.md
R139), the encoder's (spec/43_rle_encoder.md R170), and the turn of the commands that need only one.

A turn performs at most one byte write (spec/20_memory.md R62), so a reset between two turns leaves
a prefix of the command's byte writes (spec/70_reset_and_hazards.md R233). The host sees the result
registers and flags change only when BUSY falls (R240, R242). -/

namespace Sys2Proof.Machine

open Sys2Proof.Config

/-- The packer's registers on entry to PK_ELEM (R139). -/
def packStart : PackRegs := { g := 0, i := 0, acc := 0x00#8, nonbin := false }

/-- PK_CHECK (R139): the range check, then PK_ELEM, or PK_FINISH when there is no group. -/
def turnPkCheck (l : Latched) (s : State) : State :=
  if packInRange s.params l then
    if groupCount l = 0 then { s with engine := .pkFinish l packStart }
    else { s with engine := .pkElem l packStart }
  else { s with engine := .pkEnd .indexOutOfBounds }

/-- The loop body of R132 at the packer's registers. -/
def packElemAt (P : Params) (l : Latched) (r : PackRegs) (m : Memory) : PackLoop :=
  packElem P l (packIndex r.g.toNat r.i.toNat) r.i { mem := m, acc := r.acc, nonbin := r.nonbin }

/-- PK_ELEM (R139): one element, then the next position or, after position 7, the next group. -/
def turnPkElem (l : Latched) (r : PackRegs) (s : State) : State :=
  let st := packElemAt s.params l r s.mem
  if r.i = 7 then
    let r' : PackRegs := { g := r.g + 1, i := 0, acc := 0x00#8, nonbin := st.nonbin }
    if r'.g.toNat = groupCount l then { s with mem := st.mem, engine := .pkFinish l r' }
    else { s with mem := st.mem, engine := .pkElem l r' }
  else
    let r' : PackRegs := { g := r.g, i := r.i + 1, acc := st.acc, nonbin := st.nonbin }
    { s with mem := st.mem, engine := .pkElem l r' }

/-- PK_FINISH, and PK_END after success (R139): RESULT and the flags, then the completion. -/
def turnPkFinish (l : Latched) (r : PackRegs) (s : State) : State :=
  complete none (packFinish l r.nonbin s)

/-- EN_CHECK (R170). -/
def turnEnCheck (l : Latched) (s : State) : State :=
  if encInRange s.params l then { s with engine := .enPre l }
  else { s with engine := .enEnd .indexOutOfBounds }

/-- `Emit(x)` on the encoder's registers (R166, R167): the element's bytes wait to be written. -/
def emitPend (P : Params) (l : Latched) (x : Word) (r : EncRegs) : EncRegs :=
  { r with
    k := r.k + 1
    ovf := r.ovf || overflows P x
    pend := elemCells (elemAddr P l r.k.toNat) (elemBytes P) (x.toNat % 2 ^ (8 * elemBytes P)) }

/-- The state after an index: EN_SCAN while indices are left, else EN_FINISH (R170). -/
def scanOrFinish (l : Latched) (r : EncRegs) : Engine :=
  if r.i.toNat < l.enLen.toNat then .enScan l r else .enFinish l r

/-- EN_PRE (R163, R170): read v0, emit the marker if it is 0, set cursor and previous value. -/
def turnEnPre (l : Latched) (s : State) : State :=
  let v0 := readByte s.mem (packedAddr l 0)
  let r : EncRegs :=
    { i := startCursor s.params v0, k := 0, run := 0, bcnt := 0, prev := v0, ovf := false, pend := [] }
  let r' := if v0 = 0x00#8 then emitPend s.params l 0 r else r
  { s with engine := scanOrFinish l r' }

/-- The scan of the index at the encoder's registers (R164). -/
def encIndexAt (P : Params) (l : Latched) (v : Byte) (r : EncRegs) : EncRegs :=
  let r' := { r with bcnt := countBoundary r.i.toNat r.bcnt }
  if v = r.prev then { r' with run := r'.run + 1, i := r'.i + 1 }
  else { emitPend P l r'.run r' with run := 0, prev := v, i := r'.i + 1 }

/-- EN_SCAN (R170): a byte of the last element if one waits, else the next index. -/
def turnEnScan (l : Latched) (r : EncRegs) (s : State) : State :=
  match r.pend with
  | c :: cs =>
    { s with mem := writeByte s.mem c.1 c.2, engine := .enScan l { r with pend := cs } }
  | [] =>
    let v := readByte s.mem (packedAddr l r.i.toNat)
    { s with engine := scanOrFinish l (encIndexAt s.params l v r) }

/-- EN_FINISH, and EN_END after success (R170): the last element's bytes, then the result registers,
the flags and the completion. -/
def turnEnFinish (l : Latched) (r : EncRegs) (s : State) : State :=
  match r.pend with
  | c :: cs =>
    { s with mem := writeByte s.mem c.1 c.2, engine := .enFinish l { r with pend := cs } }
  | [] => complete none (encFinish r.bcnt r.k r.run r.prev r.ovf s)

/-- The turn after acceptance (R95): PACK and ENCODE enter their state machines, every other verdict
runs and completes. -/
def turnAccepted (c : Option Instr) (l : Latched) (s : State) : State :=
  match c with
  | none => finish s (runIllegal l s)
  | some .nop => finish s (runNop l s)
  | some (.getBit byte pos) => finish s (runGetBit byte pos l s)
  | some (.setBit byte pos) => finish s (runSetBit byte pos l s)
  | some (.clearBit byte pos) => finish s (runClearBit byte pos l s)
  | some .pack => { s with engine := .pkCheck l }
  | some .encode => { s with engine := .enCheck l }

/-- One turn of the engine; in IDLE it does nothing. -/
def engineTurn (s : State) : State :=
  match s.engine with
  | .idle => s
  | .accepted c l => turnAccepted c l s
  | .pkCheck l => turnPkCheck l s
  | .pkElem l r => turnPkElem l r s
  | .pkFinish l r => turnPkFinish l r s
  | .pkEnd e => complete (some e) s
  | .enCheck l => turnEnCheck l s
  | .enPre l => turnEnPre l s
  | .enScan l r => turnEnScan l r s
  | .enFinish l r => turnEnFinish l r s
  | .enEnd e => complete (some e) s

/-- `n` turns of the engine with no host action among them. -/
def engineTurns : Nat → State → State
  | 0, s => s
  | n + 1, s => engineTurns n (engineTurn s)

end Sys2Proof.Machine
end

