-- ==== Sys2Proof/Machine/HostPort.lean ====
section
/-! DEFINITION. The host's side of the core: the register port (spec/10_state.md R22 to R35), the
memory port (spec/20_memory.md R53), the reset input (spec/70_reset_and_hazards.md R230), and what
one event does. -/

namespace Sys2Proof.Machine

/-- The registers of R22. -/
inductive RegName where
  | cmd
  | status
  | result
  | pkSrc
  | pkDst
  | pkLen
  | enSrc
  | enDst
  | enLen
  | enOutlen
  | enRun
  | enPrev
  deriving DecidableEq, Repr

/-- The byte offset of a register (R22). -/
def regOffset : RegName → Nat
  | .cmd => 0x00
  | .status => 0x04
  | .result => 0x08
  | .pkSrc => 0x0C
  | .pkDst => 0x10
  | .pkLen => 0x14
  | .enSrc => 0x18
  | .enDst => 0x1C
  | .enLen => 0x20
  | .enOutlen => 0x24
  | .enRun => 0x28
  | .enPrev => 0x2C

/-- Every register, in the order of R22's table. -/
def allRegs : List RegName :=
  [.cmd, .status, .result, .pkSrc, .pkDst, .pkLen, .enSrc, .enDst, .enLen, .enOutlen, .enRun, .enPrev]

/-- The register at an offset; none at the reserved offsets 0x30 .. 0xFC (R22, R35). -/
def regAt (offset : Nat) : Option RegName := allRegs.find? (fun r => regOffset r == offset)

/-- A register-port access that is part of the interface: a whole aligned 32-bit word at an offset in
0x00 .. 0xFF (R22, R35). -/
def portAccess (offset bytes : Nat) : Bool :=
  decide (bytes = 4) && decide (offset % 4 = 0) && decide (offset ≤ 0xFF)

/-- The value a register reads as (R22, R23): CMD reads 0 (R24). -/
def readReg (s : State) : RegName → Word
  | .cmd => 0
  | .status => statusWord s.status
  | .result => s.result
  | .pkSrc => s.pkSrc
  | .pkDst => s.pkDst
  | .pkLen => s.pkLen
  | .enSrc => s.enSrc
  | .enDst => s.enDst
  | .enLen => s.enLen
  | .enOutlen => s.enOutlen
  | .enRun => s.enRun
  | .enPrev => s.enPrev

/-- The value read at an offset; a reserved offset reads 0 (R35). -/
def readOffset (s : State) (offset : Nat) : Word :=
  match regAt offset with
  | some r => readReg s r
  | none => 0

/-- A CMD write through the register port: rejected while BUSY = 1 (R91), else accepted (R92); the
engine's turns follow. -/
def issue (w : Word) (s : State) : State :=
  if s.status.busy then recordError .cmdWhileBusy s else accept (verdict w) s

/-- A register-port write (R23, R24, R30): the operand registers hold it, STATUS clears by it, CMD
issues it, and a register with access R ignores it. -/
def writeReg (w : Word) (s : State) : RegName → State
  | .cmd => issue w s
  | .status => { s with status := clearStatus w s.status }
  | .result => s
  | .pkSrc => { s with pkSrc := w }
  | .pkDst => { s with pkDst := w }
  | .pkLen => { s with pkLen := w }
  | .enSrc => { s with enSrc := w }
  | .enDst => { s with enDst := w }
  | .enLen => { s with enLen := w }
  | .enOutlen => s
  | .enRun => s
  | .enPrev => s

/-- A register-port write at an offset; a reserved offset ignores it (R35). -/
def writeOffset (w : Word) (offset : Nat) (s : State) : State :=
  match regAt offset with
  | some r => writeReg w s r
  | none => s

/-- Whether the memory port may be used at an address now, and if not, why (R53, R241). -/
def memPortRefusal (s : State) (a : Nat) : Option Refusal :=
  if s.status.busy then some .hostAccessWhileBusy
  else if a < memBytes s.params then none
  else some .hostAccessOutsideMemory

/-- The reset input (R230): every register and the engine to their reset values, a running command
aborted where it stands, the buffer memory as it is (R232, R233). -/
def resetCore (s : State) : State :=
  { State.powerOn s.params s.mem with events := s.events, reply := s.reply }

/-- The atomic transition of a CMD write (R90, R98): the decoded command, or the Illegal verdict. -/
def runCommandWord (w : Word) (s : State) : Host.Outcome State Fault Refusal :=
  match verdict w with
  | some i => exec i s
  | none => execIllegal s

/-- What one event does, in a state whose `events` are those after it. -/
def runEvent (e : Event) (s : State) : Host.Outcome State Fault Refusal :=
  match e with
  | .command w => runCommandWord w s
  | .regRead offset bytes =>
    if portAccess offset bytes then .next { s with reply := .word (readOffset s offset) }
    else .refused .regAccessOutsidePort
  | .regWrite offset bytes v =>
    if portAccess offset bytes then .next (writeOffset v offset s)
    else .refused .regAccessOutsidePort
  | .memRead a =>
    match memPortRefusal s a with
    | some r => .refused r
    | none => .next { s with reply := .byte (readByte s.mem a) }
  | .memWrite a v =>
    match memPortRefusal s a with
    | some r => .refused r
    | none => .next { s with mem := writeByte s.mem a v }
  | .poll =>
    if s.status.busy then .next (engineTurn { s with events := .poll :: s.events })
    else .next { s with reply := .word (statusWord s.status) }
  | .reset => .next (resetCore s)
  | .engineTurn => .next (engineTurn s)

/-- The next thing that happens: the first waiting event, or, when none waits, a turn of the engine
(an idle engine waits, R234). -/
def runNext (s : State) : Host.Outcome State Fault Refusal :=
  match s.events with
  | [] => .next (engineTurn s)
  | e :: rest => runEvent e { s with events := rest }

end Sys2Proof.Machine
end

