-- ==== Sys2Proof/Machine/Step.lean ====
section
/-! DEFINITION. One step of the machine, and how a command is placed for the next one. -/

namespace Sys2Proof.Machine

/-- One step: the next event (`runNext`). The core has no program counter; commands arrive from the
host (spec/10_state.md R21). -/
def step (s : State) : Host.Outcome State Fault Refusal := runNext s

/-- `s` with a CMD write of the word given by its low `nbits` bits `w` as the very next event. The
host's writes are the machine's program (R21; notes/assumptions/2.md). -/
def State.withFetchWord (s : State) (nbits w : Nat) : State :=
  { s with events := .command (tableWord nbits w) :: s.events }

end Sys2Proof.Machine
end

