-- ==== Sys2Proof/Machine/Assembler.lean ====
section
/-! DEFINITION. The assembler: command lines as text (spec/30_encoding.md R80), host statements
(R81) and pseudo-instructions (R82). -/

namespace Sys2Proof.Machine

/-- The text cut at every occurrence of a character. -/
def cutAt (c : Char) : List Char → List (List Char)
  | [] => [[]]
  | x :: xs =>
    match cutAt c xs with
    | [] => [[]]
    | w :: ws => if x = c then [] :: w :: ws else (x :: w) :: ws

/-- The text without leading and trailing spaces. -/
def trimSpaces (cs : List Char) : List Char :=
  ((cs.dropWhile (· = ' ')).reverse.dropWhile (· = ' ')).reverse

/-- The value of a hexadecimal digit. -/
def digitValue (c : Char) : Option Nat :=
  let n := c.toNat
  if 48 ≤ n ∧ n ≤ 57 then some (n - 48)
  else if 65 ≤ n ∧ n ≤ 70 then some (n - 55)
  else if 97 ≤ n ∧ n ≤ 102 then some (n - 87)
  else none

/-- The digits of a number in a base, after the value read so far. -/
def readDigits (base : Nat) : Nat → List Char → Option Nat
  | acc, [] => some acc
  | acc, c :: cs =>
    match digitValue c with
    | some d => if d < base then readDigits base (base * acc + d) cs else none
    | none => none

/-- A number in decimal or `0x` hexadecimal (R80). -/
def readNumber : List Char → Option Nat
  | [] => none
  | '0' :: 'x' :: c :: cs => readDigits 16 0 (c :: cs)
  | c :: cs => readDigits 10 0 (c :: cs)

/-- A mnemonic as it is written (R80). -/
def readMnemonic (cs : List Char) : Option Mnemonic :=
  if cs = ['n', 'o', 'p'] then some .nop
  else if cs = ['g', 'e', 't', '_', 'b', 'i', 't'] then some .getBit
  else if cs = ['s', 'e', 't', '_', 'b', 'i', 't'] then some .setBit
  else if cs = ['c', 'l', 'e', 'a', 'r', '_', 'b', 'i', 't'] then some .clearBit
  else if cs = ['p', 'a', 'c', 'k'] then some .pack
  else if cs = ['e', 'n', 'c', 'o', 'd', 'e'] then some .encode
  else none

/-- Numbers separated by commas. -/
def readOperands (cs : List Char) : Option (List Nat) :=
  if trimSpaces cs = [] then some []
  else (cutAt ',' cs).mapM (fun w => readNumber (trimSpaces w))

/-- A command line (R80): a mnemonic, then its operands. -/
def readCommand (cs : List Char) : Option RawCommand :=
  let line := trimSpaces cs
  let name := line.takeWhile (· ≠ ' ')
  match readMnemonic name, readOperands (line.drop name.length) with
  | some m, some ops => some { mnemonic := m, operands := ops }
  | _, _ => none

/-- The word a command line assembles to (R80); none if the line is ill formed. -/
def assemble (cs : List Char) : Option Word :=
  match readCommand cs with
  | some c => c.toInstr.map encode
  | none => none

/-- What `cmd` issues: a command by its mnemonic (R81), or a 32-bit word as it is (spec/00_scope.md R14;
spec/95_test_vectors.md P4 writes `cmd 0x60000000`, an Illegal word). -/
inductive CmdArg where
  | instr (i : Instr)
  | word (w : Word)
  deriving DecidableEq, Repr

/-- The word `cmd` writes to CMD (R81): the encoding of the command, or the word itself. -/
def CmdArg.toWord : CmdArg → Word
  | .instr i => Sys2Proof.encode i
  | .word w => w

/-- Host statements (R81) and pseudo-instructions (R82). `bitop` takes a format B command only, by its
operation and operands (`bitCommand`). -/
inductive Stmt where
  | wr (r : RegName) (v : Word)
  | rd (r : RegName)
  | cmd (c : CmdArg)
  | poll
  | mw (a : Nat) (bs : List Byte)
  | mr (a n : Nat)
  | mws (a : Nat) (s : List Char)
  | pack (s d n : Word)
  | encode (s d n : Word)
  | bitop (op : BitOp) (byte : Byte) (pos : BitVec 4)
  | clrst
  deriving DecidableEq, Repr

/-- The format B command of an operation of the bit primitive module (R72, R123). -/
def bitCommand (op : BitOp) (byte : Byte) (pos : BitVec 4) : Instr :=
  match op with
  | .get => .getBit byte pos
  | .set => .setBit byte pos
  | .clr => .clearBit byte pos

/-- The byte `mws` writes for a character (R82): 0x31 for '1' and 0x30 for '0'. For any other character
R82 gives no byte; DESIGN CHOICE its code point mod 256, unsafe, notes/assumptions/19.md. -/
def charByte (c : Char) : Byte := BitVec.ofNat 8 c.toNat

/-- `wr REG, V` as an event. -/
def wrEvent (r : RegName) (v : Word) : Event := .regWrite (regOffset r) 4 v

/-- `cmd C` as an event: `wr CMD` of its word (R81). -/
def cmdEvent (c : CmdArg) : Event := wrEvent .cmd c.toWord

/-- `mw A, B0, B1, ...` as events. -/
def mwEvents (a : Nat) : List Byte → List Event
  | [] => []
  | b :: bs => .memWrite a b :: mwEvents (a + 1) bs

/-- `mr A, N` as events. -/
def mrEvents (a : Nat) : Nat → List Event
  | 0 => []
  | n + 1 => .memRead a :: mrEvents (a + 1) n

/-- The host actions of a statement (R81), a pseudo-instruction by its expansion (R82). -/
def stmtEvents : Stmt → List Event
  | .wr r v => [wrEvent r v]
  | .rd r => [.regRead (regOffset r) 4]
  | .cmd c => [cmdEvent c]
  | .poll => [.poll]
  | .mw a bs => mwEvents a bs
  | .mr a n => mrEvents a n
  | .mws a s => mwEvents a (s.map charByte)
  | .pack s d n =>
    [wrEvent .pkSrc s, wrEvent .pkDst d, wrEvent .pkLen n, cmdEvent (.instr .pack), .poll]
  | .encode s d n =>
    [wrEvent .enSrc s, wrEvent .enDst d, wrEvent .enLen n, cmdEvent (.instr .encode), .poll]
  | .bitop op byte pos => [cmdEvent (.instr (bitCommand op byte pos)), .poll]
  | .clrst => [wrEvent .status 0x00000F06#32]

/-- The state with the host actions of some statements waiting before all others. -/
def withStmts (s : State) (p : List Stmt) : State :=
  { s with events := p.flatMap stmtEvents ++ s.events }

end Sys2Proof.Machine
end

