-- ==== Sys2Proof/Safety.lean ====
section
/-! DEFINITION. The terms the claims use: the state invariant, which states and events break a duty of
the host, and the closed forms of spec/42_bit_packer.md and spec/43_rle_encoder.md, written over
values and lists instead of the machine's loops. -/

namespace Sys2Proof.Machine

open Sys2Proof.Config

/-! ### The invariant -/

/-- The hidden state of a running PACK or ENCODE stays inside what its range check allowed. -/
def engineOk (P : Params) : Engine → Prop
  | .pkElem l r => packInRange P l = true ∧ r.g.toNat < groupCount l
  | .enPre l => encInRange P l = true
  | .enScan l r =>
    encInRange P l = true ∧ r.i.toNat < l.enLen.toNat ∧ r.k.toNat ≤ r.i.toNat
      ∧ ∀ c ∈ r.pend, c.1 < memBytes P
  | .enFinish l r =>
    encInRange P l = true ∧ r.k.toNat ≤ l.enLen.toNat ∧ ∀ c ∈ r.pend, c.1 < memBytes P
  | _ => True

/-- What every step keeps: memory in its canonical form (no two entries for an address) and inside
0 .. MEM_BYTES - 1 (R50), the engine IDLE exactly when BUSY = 0 (R37), ERRCODE nonzero exactly when
ERROR = 1 (R28), EN_PREV[31:8] zero (R34), and a running command inside its checked ranges. -/
structure Inv (s : State) : Prop where
  memWf     : Memory.wf s.mem
  memWithin : Memory.within s.mem (memBytes s.params)
  idleIff   : s.engine = .idle ↔ s.status.busy = false
  errIff    : s.status.errcode = none ↔ s.status.error = false
  prevByte  : s.enPrev.toNat < 256
  engine    : engineOk s.params s.engine

/-! ### Commands -/

/-- A word of R76 or R77, in terms of its number: OP in 0x6 .. 0xF, or OP in 0x0 .. 0x5 and a nonzero
reserved field. -/
def reservedWord (w : Word) : Prop :=
  6 ≤ w.toNat / 2 ^ 28 ∨
  ((w.toNat / 2 ^ 28 = 0 ∨ w.toNat / 2 ^ 28 = 4 ∨ w.toNat / 2 ^ 28 = 5) ∧ w.toNat % 2 ^ 28 ≠ 0) ∨
  ((w.toNat / 2 ^ 28 = 1 ∨ w.toNat / 2 ^ 28 = 2 ∨ w.toNat / 2 ^ 28 = 3) ∧
    w.toNat / 2 ^ 12 % 2 ^ 16 ≠ 0)

/-- A command of BUSY = 0 that ended in error `e` (R207, R94): DONE and ERROR are set, the code is
recorded if ERROR was 0, and nothing else changes. -/
def endedInError (e : ErrorKind) (s : State) : State :=
  { s with
    status := { s.status with
      done := true, error := true
      errcode := if s.status.error then s.status.errcode else some e }
    engine := .idle }

/-- The two states agree on everything a command computes: memory, the result registers, the engine,
BUSY, DONE and the sticky flags. -/
def sameComputation (t u : State) : Prop :=
  t.mem = u.mem ∧ t.result = u.result ∧ t.enOutlen = u.enOutlen ∧ t.enRun = u.enRun ∧
    t.enPrev = u.enPrev ∧ t.engine = u.engine ∧
    { t.status with error := u.status.error, errcode := u.status.errcode } = u.status

/-- The state `n` steps on, if every one of them answers a next state. -/
def stepsTo : Nat → State → Option State
  | 0, s => some s
  | n + 1, s =>
    match step s with
    | .next t => stepsTo n t
    | _ => none

/-! ### Events -/

/-- A register-port write to STATUS or a reset: the only events that clear a STATUS field (R27 to
R30). -/
def clearsStatus : Event → Bool
  | .regWrite offset bytes _ => portAccess offset bytes && decide (offset = 0x04)
  | .reset => true
  | _ => false

/-- The engine is executing PACK or ENCODE past acceptance, the only time it touches memory (R52). -/
def engineUsesMemory : Engine → Bool
  | .idle => false
  | .accepted _ _ => false
  | .pkEnd _ => false
  | .enEnd _ => false
  | _ => true

/-- The event is a host memory write or an atomic PACK or ENCODE. -/
def eventUsesMemory : Event → Bool
  | .memWrite _ _ => true
  | .command w => decide (verdict w = some .pack) || decide (verdict w = some .encode)
  | _ => false

/-- The six operand registers that a command latches (R93). -/
def operandRegs : List RegName := [.pkSrc, .pkDst, .pkLen, .enSrc, .enDst, .enLen]

/-- The registers with access R (R22). -/
def readOnlyRegs : List RegName := [.result, .enOutlen, .enRun, .enPrev]

/-- The codes of R200's table as numbers; 0 is NONE. -/
def codeNumber : Option ErrorKind → Nat
  | none => 0
  | some .illegalCommand => 1
  | some .bitPosRange => 2
  | some .indexOutOfBounds => 3
  | some .cmdWhileBusy => 4

/-! ### Closed forms of PACK -/

/-- PACK's source and slots of complete groups are the same bytes or share none (R67, R141). -/
def packSeparateOrInPlace (l : Latched) : Prop :=
  l.pkDst.toNat = l.pkSrc.toNat
    ∨ l.pkSrc.toNat + 8 * groupCount l ≤ l.pkDst.toNat
    ∨ l.pkDst.toNat + 8 * groupCount l ≤ l.pkSrc.toNat

/-- PACK's source and slots of complete groups share no byte. -/
def packSeparate (l : Latched) : Prop :=
  l.pkSrc.toNat + 8 * groupCount l ≤ l.pkDst.toNat
    ∨ l.pkDst.toNat + 8 * groupCount l ≤ l.pkSrc.toNat

/-- The symbols of the group of `idx`, as a sum of 2^j over the positions j < n that hold '1'
(R142). -/
def onesBelow (sym : Nat → Byte) (idx : Nat) : Nat → Nat
  | 0 => 0
  | n + 1 => onesBelow sym idx n + (if sym (8 * (idx / 8) + n) = 0x31#8 then 2 ^ n else 0)

/-- The operand byte of R133 as a number, from the symbols and the slots' prior contents. -/
def operandValue (P : Params) (sym slot : Nat → Byte) (idx : Nat) : Nat :=
  match P.packOperand with
  | .zero => 0
  | .accum => onesBelow sym idx (idx % 8)
  | .slot => (slot idx).toNat

/-- The byte PACK leaves in slot `idx` (R132 to R134): bit idx mod 8 of the operand set or cleared,
or what PACK_OTHER says. -/
def packedByte (P : Params) (sym slot : Nat → Byte) (idx : Nat) : Byte :=
  let op : Byte := BitVec.ofNat 8 (operandValue P sym slot idx)
  if sym idx = 0x31#8 then op ||| BitVec.ofNat 8 (2 ^ (idx % 8))
  else if sym idx = 0x30#8 then op &&& ~~~ BitVec.ofNat 8 (2 ^ (idx % 8))
  else
    match P.packOther with
    | .copy => sym idx
    | .nowrite => slot idx
    | .operand => op

/-- PACK's loop after its first `n` symbols, as one loop over the absolute index (R132). -/
def packAfter (P : Params) (l : Latched) (m : Memory) : Nat → PackLoop
  | 0 => { mem := m, acc := 0x00#8, nonbin := false }
  | n + 1 =>
    let st := packAfter P l m n
    packElem P l n (BitVec.ofNat 3 (n % 8)) { st with acc := if n % 8 = 0 then 0x00#8 else st.acc }

/-- A symbol that is neither '1' nor '0' (R137). -/
def nonBinary (b : Byte) : Prop := b ≠ 0x31#8 ∧ b ≠ 0x30#8

/-- PACK writes slot `idx`: always but for a symbol that is neither '1' nor '0' under NOWRITE
(R134). -/
def packWritesSlot (P : Params) (l : Latched) (m : Memory) (idx : Nat) : Bool :=
  let sym := readByte (packAfter P l m idx).mem (l.pkSrc.toNat + idx)
  decide (P.packOther ≠ .nowrite) || decide (sym = 0x31#8) || decide (sym = 0x30#8)

/-! ### Closed forms of ENCODE -/

/-- The `n` packed values from an address on. -/
def valuesAt (m : Memory) (a : Nat) : Nat → List Byte
  | 0 => []
  | n + 1 => readByte m a :: valuesAt m (a + 1) n

/-- The lengths L_0, L_1, ..., L_m of the maximal runs of equal values (R173). -/
def runLengths : List Byte → List Nat
  | [] => []
  | v :: vs =>
    match vs with
    | [] => [1]
    | w :: _ =>
      match runLengths vs with
      | [] => [1]
      | n :: ns => if v = w then (n + 1) :: ns else 1 :: n :: ns

/-- Whether the leading marker is emitted: v0 = 0 (R163). -/
def leadingZero (vs : List Byte) : Bool :=
  match vs with
  | [] => false
  | v :: _ => decide (v = 0x00#8)

/-- The emitted elements before truncation, in terms of the run lengths (R173). -/
def expectedElements (P : Params) (vs : List Byte) : List Nat :=
  let done := (runLengths vs).dropLast
  if leadingZero vs then 0 :: done.map (· - 1)
  else
    match P.nzStart with
    | .prescan => done.map (· - 1)
    | .seedFirst =>
      match done with
      | [] => []
      | n :: ns => n :: ns.map (· - 1)

/-- The final run counter, in terms of the run lengths (R173). -/
def expectedRun (P : Params) (vs : List Byte) : Nat :=
  let ls := runLengths vs
  if leadingZero vs = false ∧ P.nzStart = .seedFirst ∧ ls.length = 1 then ls.getLastD 0
  else ls.getLastD 0 - 1

/-- The boundary count (R172): over N values, cursor 0 or 1. -/
def expectedBoundaries (P : Params) (v0 : Byte) (n : Nat) : Nat :=
  if v0 ≠ 0x00#8 ∧ P.nzStart = .seedFirst then (n - 1) / 8 + 1 else (n - 1) / 8

/-- The number of scanned indices that are a multiple of 8 (R172): those of cursor .. N-1, where the
cursor is 0 only under SEED_FIRST with v0 ≠ 0 (R163). -/
def countBoundaries (P : Params) (v0 : Byte) (n : Nat) : Nat :=
  let cursor := if v0 ≠ 0x00#8 ∧ P.nzStart = .seedFirst then 0 else 1
  ((List.range n).filter (fun i => decide (cursor ≤ i) && decide (i % 8 = 0))).length

/-- ENCODE's source and reserved destination ranges share no byte. -/
def encSeparate (P : Params) (l : Latched) : Prop :=
  l.enSrc.toNat + l.enLen.toNat ≤ l.enDst.toNat
    ∨ l.enDst.toNat + elemBytes P * l.enLen.toNat ≤ l.enSrc.toNat

/-- The byte writes of a command that went from `s` to `t`, in the order of its pseudocode (R132,
R162). Both loops write ascending addresses, each once, so each write is of the byte `t` holds. -/
def commandWrites (c : Option Instr) (s t : State) : List Host.Cell :=
  match c with
  | some .pack =>
    if packInRange s.params (latch s) then
      ((List.range (8 * groupCount (latch s))).filter (packWritesSlot s.params (latch s) s.mem)).map
        (fun idx => (s.pkDst.toNat + idx, readByte t.mem (s.pkDst.toNat + idx)))
    else []
  | some .encode =>
    if encInRange s.params (latch s) then
      (List.range (elemBytes s.params * t.enOutlen.toNat)).map
        (fun j => (s.enDst.toNat + j, readByte t.mem (s.enDst.toNat + j)))
    else []
  | _ => []

/-- ENCODE in place with one-byte elements (R68). -/
def encInPlace (P : Params) (l : Latched) : Prop :=
  l.enDst.toNat = l.enSrc.toNat ∧ elemBytes P = 1

end Sys2Proof.Machine
end

