-- ==== Sys2Proof/Certificates/Slice0/Obligations.lean ====
section
/-! DEFINITION. The statements for the provers. Each docstring names the rule of spec/ it formalises,
or says that it is derived. -/

open Sys2Proof Sys2Proof.Machine

/-! ### Decoding and encoding -/

/-- spec/30_encoding.md R79, R72 to R74, R80: every command, with every operand value, decodes from
its own word; written out it is a well-formed command line that stands for it. -/
def Obligations.DecodeOfEncodeIsTheCommand : Prop :=
  ∀ i : Instr, decode (encode i) = .ok i ∧ i.raw.wellFormed = true ∧ i.raw.toInstr = some i

/-- R79, R71 to R73: a word that decodes to a command is exactly that command's word, so no bit of a
word is ignored. -/
def Obligations.EncodeOfDecodeIsTheWord : Prop :=
  ∀ (w : Word) (i : Instr), decode w = .ok i → encode i = w

/-- R75: "a command word selects the row whose `match` equals `w & mask`": a word that decodes to a
command selects exactly one row, that command's, and every other word selects none. -/
def Obligations.OpcodeMapSelectsTheDecodedRow : Prop :=
  ∀ w : Word,
    (∀ i, verdict w = some i → ∃ r, selectedRows w = [r] ∧ r.mnemonic = i.mnemonic) ∧
    (verdict w = none → selectedRows w = [])

/-- R79: the decoder, case by case, on the word's number: OP is w div 2^28, the format Z reserved field
w mod 2^28, the format B one (w div 2^12) mod 2^16, POS (w div 2^8) mod 16 and BYTE w mod 256. -/
def Obligations.DecoderIsTheCaseTable : Prop :=
  ∀ w : Word,
    let op := w.toNat / 2 ^ 28
    let z (i : Instr) : Option Instr := if w.toNat % 2 ^ 28 = 0 then some i else none
    let b (f : Byte → BitVec 4 → Instr) : Option Instr :=
      if w.toNat / 2 ^ 12 % 2 ^ 16 = 0 then
        some (f (BitVec.ofNat 8 (w.toNat % 256)) (BitVec.ofNat 4 (w.toNat / 2 ^ 8 % 16)))
      else none
    (op = 0 → verdict w = z .nop) ∧ (op = 1 → verdict w = b .getBit) ∧
    (op = 2 → verdict w = b .setBit) ∧ (op = 3 → verdict w = b .clearBit) ∧
    (op = 4 → verdict w = z .pack) ∧ (op = 5 → verdict w = z .encode) ∧ (6 ≤ op → verdict w = none)

/-- R83's examples of encodings, one word of each format and each kind of Illegal word. -/
def Obligations.WrittenOutWordsDecode : Prop :=
  decode 0x00000000#32 = .ok .nop ∧ decode 0x100002A5#32 = .ok (.getBit 0xA5#8 2#4) ∧
  decode 0x20000300#32 = .ok (.setBit 0x00#8 3#4) ∧ decode 0x300007FF#32 = .ok (.clearBit 0xFF#8 7#4) ∧
  decode 0x20000810#32 = .ok (.setBit 0x10#8 8#4) ∧ decode 0x40000000#32 = .ok .pack ∧
  decode 0x50000000#32 = .ok .encode ∧ decode 0x40000001#32 = .error .reservedField ∧
  decode 0x10001000#32 = .error .reservedField ∧ decode 0x60000000#32 = .error .reservedOpcode

/-! ### The life of a command -/

/-- Derived from spec/40_command_control.md R90, R95, R98: when the next event is a command word, the
step is `exec` of the decoded command in the state with that event consumed, or the Illegal verdict's
transition; and from every state, whatever event waits there, the word `withFetchWord` places is run
next. That a whole command is one event is the
model's choice (notes/assumptions/5.md). -/
def Obligations.StepRunsTheDecodedCommand : Prop :=
  ∀ s : State,
    (∀ (w : Word) (rest : List Event), s.events = .command w :: rest →
      (∀ i, decode w = .ok i → step s = exec i { s with events := rest }) ∧
      (∀ x, decode w = .error x → step s = execIllegal { s with events := rest })) ∧
    ∀ (n v : Nat),
      (∀ i, decodeTableWord n v = some i → step (s.withFetchWord n v) = exec i s) ∧
      (decodeTableWord n v = none → step (s.withFetchWord n v) = execIllegal s)

/-- R91: a CMD write while BUSY = 1 is discarded: CMD_WHILE_BUSY is recorded, DONE and all else stay,
for every command, for Illegal words and for a write through the register port; and the running
command goes on as if the write had not happened. -/
def Obligations.CommandWhileBusyIsRejected : Prop :=
  ∀ s : State, s.status.busy = true →
    let t : State := { s with status := { s.status with
      error := true, errcode := if s.status.error then s.status.errcode else some .cmdWhileBusy } }
    (∀ i : Instr, exec i s = .next t) ∧ execIllegal s = .next t ∧
    (∀ w : Word, writeReg w s .cmd = t) ∧
    ∀ n, sameComputation (engineTurns n t) (engineTurns n s)

/-- R92, R93: a CMD write through the port while BUSY = 0 is accepted: BUSY becomes 1, the engine
leaves IDLE with the decoded word and the six operand registers copied, and nothing else changes. -/
def Obligations.AcceptanceSetsBusyAndLatches : Prop :=
  ∀ (s : State) (w : Word), s.status.busy = false →
    writeReg w s .cmd = { s with
      status := { s.status with busy := true }
      engine := .accepted (verdict w)
        { pkSrc := s.pkSrc, pkDst := s.pkDst, pkLen := s.pkLen,
          enSrc := s.enSrc, enDst := s.enDst, enLen := s.enLen } }

/-- R76, R77 and spec/60_exceptions.md R201: the Illegal words are those with a reserved opcode or a
nonzero reserved field; an accepted one performs nothing and ends in error with code 1, recorded only
if ERROR was 0, and nothing else changes. -/
def Obligations.IllegalWordEndsInIllegalCommand : Prop :=
  codeNumber (some .illegalCommand) = 1 ∧
  ∀ w : Word, (reservedWord w ↔ verdict w = none) ∧
    ∀ (s : State) (rest : List Event), s.status.busy = false → reservedWord w →
      s.events = .command w :: rest →
      step s = .next { endedInError .illegalCommand s with events := rest }

/-- R208: RecordError(E) writes the code only when ERROR = 0, sets ERROR, and writes nothing else. -/
def Obligations.RecordErrorKeepsTheFirstCode : Prop :=
  ∀ (s : State) (e : ErrorKind),
    (s.status.error = false →
      recordError e s = { s with status := { s.status with error := true, errcode := some e } }) ∧
    (s.status.error = true → recordError e s = s)

/-- R210, R92: a recorded error does not change what a command does: with ERROR and ERRCODE set
otherwise, `exec` answers the same state but for those two fields. -/
def Obligations.RecordedErrorBlocksNoCommand : Prop :=
  ∀ (s : State) (i : Instr) (err : Bool) (code : Option ErrorKind), s.status.busy = false →
    ∃ t u : State,
      exec i s = .next t ∧
      exec i { s with status := { s.status with error := err, errcode := code } } = .next u ∧
      { u with status := { u.status with error := t.status.error, errcode := t.status.errcode } } = t

/-- spec/10_state.md R36, last sentence: no hidden state carries over between commands. What a command
does from BUSY = 0 does not depend on the engine state, and it leaves the engine IDLE. -/
def Obligations.NoHiddenStateCarriesOver : Prop :=
  ∀ (s : State) (i : Instr) (e : Engine), s.status.busy = false →
    exec i { s with engine := e } = exec i s ∧ ∃ t, exec i s = .next t ∧ t.engine = .idle

/-! ### NOP and the bit primitives -/

/-- R100: NOP is the all-zero word. From BUSY = 0 it completes; it reads and writes no memory and no
register, and of STATUS only DONE is set. While BUSY = 1 it is rejected, and a word with OP = 0x0 and
any other bit set is not NOP but Illegal. -/
def Obligations.NopCompletes : Prop :=
  encode .nop = 0x00000000#32 ∧
  (∀ w : Word, w.toNat / 2 ^ 28 = 0 → w ≠ 0x00000000#32 → verdict w = none) ∧
  ∀ s : State,
    (s.status.busy = false →
      exec .nop s = .next { s with status := { s.status with done := true }, engine := .idle }) ∧
    (s.status.busy = true → exec .nop s = .next (recordError .cmdWhileBusy s))

/-- spec/41_bit_primitives.md R112 with R110: the word of GET_BIT; from BUSY = 0 and pos <= 7, RESULT
receives bit pos of the byte, DONE is set and nothing else changes; with pos > 7 it ends in
BIT_POS_RANGE. -/
def Obligations.GetBitCompletes : Prop :=
  ∀ (byte : Byte) (pos : BitVec 4),
    (encode (.getBit byte pos)).toNat = 0x10000000 + 256 * pos.toNat + byte.toNat ∧
    ∀ s : State, s.status.busy = false →
      (pos.toNat ≤ 7 →
        exec (.getBit byte pos) s = .next { s with
          result := BitVec.ofNat 32 (byte.toNat / 2 ^ pos.toNat % 2)
          status := { s.status with done := true }
          engine := .idle }) ∧
      (8 ≤ pos.toNat → exec (.getBit byte pos) s = .next (endedInError .bitPosRange s))

/-- R114 with R110: the word of SET_BIT; from BUSY = 0 and pos <= 7, RESULT receives the byte with bit pos
forced to 1 and all others unchanged, zero-extended, DONE is set and nothing else changes; with pos > 7
it ends in BIT_POS_RANGE. -/
def Obligations.SetBitCompletes : Prop :=
  ∀ (byte : Byte) (pos : BitVec 4),
    (encode (.setBit byte pos)).toNat = 0x20000000 + 256 * pos.toNat + byte.toNat ∧
    ∀ s : State, s.status.busy = false →
      (pos.toNat ≤ 7 →
        ∃ r : Word,
          exec (.setBit byte pos) s = .next { s with
            result := r, status := { s.status with done := true }, engine := .idle } ∧
          ∀ j, r.getLsbD j = (decide (j = pos.toNat) || byte.getLsbD j)) ∧
      (8 ≤ pos.toNat → exec (.setBit byte pos) s = .next (endedInError .bitPosRange s))

/-- R116 with R110: the word of CLEAR_BIT; from BUSY = 0 and pos <= 7, RESULT receives the byte with bit pos
forced to 0 and all others unchanged, zero-extended, DONE is set and nothing else changes; with pos > 7
it ends in BIT_POS_RANGE. -/
def Obligations.ClearBitCompletes : Prop :=
  ∀ (byte : Byte) (pos : BitVec 4),
    (encode (.clearBit byte pos)).toNat = 0x30000000 + 256 * pos.toNat + byte.toNat ∧
    ∀ s : State, s.status.busy = false →
      (pos.toNat ≤ 7 →
        ∃ r : Word,
          exec (.clearBit byte pos) s = .next { s with
            result := r, status := { s.status with done := true }, engine := .idle } ∧
          ∀ j, r.getLsbD j = (!decide (j = pos.toNat) && byte.getLsbD j)) ∧
      (8 ≤ pos.toNat → exec (.clearBit byte pos) s = .next (endedInError .bitPosRange s))

/-- R202: each format B command with POS in 8 .. 15 ends in error with code 2 and leaves RESULT
unchanged, and everything else but DONE, ERROR and ERRCODE; run as a step from its own word. -/
def Obligations.BitPositionOutOfRangeIsReported : Prop :=
  codeNumber (some .bitPosRange) = 2 ∧
  ∀ (s : State) (byte : Byte) (pos : BitVec 4) (rest : List Event) (i : Instr),
    (i = .getBit byte pos ∨ i = .setBit byte pos ∨ i = .clearBit byte pos) →
    s.status.busy = false → 8 ≤ pos.toNat → s.events = .command (encode i) :: rest →
    step s = .next { endedInError .bitPosRange s with events := rest }

/-- R120 and R121: the laws of the primitives, for every byte and all positions. -/
def Obligations.BitPrimitiveLaws : Prop :=
  ∀ (b : Byte) (p q : BitVec 3),
    getBit (setBit b p) p = 1#8 ∧ getBit (clearBit b p) p = 0#8 ∧
    setBit b p &&& ~~~ (1#8 <<< p.toNat) = b &&& ~~~ (1#8 <<< p.toNat) ∧
    clearBit b p &&& ~~~ (1#8 <<< p.toNat) = b &&& ~~~ (1#8 <<< p.toNat) ∧
    setBit (setBit b p) p = setBit b p ∧ clearBit (clearBit b p) p = clearBit b p ∧
    clearBit (setBit b p) p = clearBit b p ∧ setBit (clearBit b p) p = setBit b p ∧
    (p ≠ q → setBit (setBit b p) q = setBit (setBit b q) p ∧
      clearBit (clearBit b p) q = clearBit (clearBit b q) p ∧
      setBit (clearBit b p) q = clearBit (setBit b q) p) ∧
    (getBit b p = 1#8 ↔ setBit b p = b) ∧
    setBit 0#8 p = BitVec.ofNat 8 (2 ^ p.toNat) ∧ clearBit 0#8 p = 0#8 ∧
    b.toNat = ((List.range 8).map (fun j => (getBit b (BitVec.ofNat 3 j)).toNat * 2 ^ j)).sum

/-! ### PACK -/

/-- spec/42_bit_packer.md R132, R135, R136, R137, spec/20_memory.md R61 for PACK: with both ranges in
memory, PACK completes for every parameter value and every overlap. RESULT is N div 8; the memory is
that of the loop over idx = 0 .. 8G-1; INCOMPLETE_GROUP_DROPPED is set exactly when N mod 8 ≠ 0 and
NONBINARY_SYMBOL exactly when a symbol read was neither 0x31 nor 0x30, else each is as before; every
byte outside D .. D + 8G - 1 and everything else is unchanged. -/
def Obligations.PackCompletes : Prop :=
  ∀ s : State, s.status.busy = false →
    s.pkSrc.toNat + s.pkLen.toNat ≤ memBytes s.params →
    s.pkDst.toNat + s.pkLen.toNat ≤ memBytes s.params →
    ∃ nonbin : Bool,
      exec .pack s = .next { s with
        mem := (packAfter s.params (latch s) s.mem (8 * (s.pkLen.toNat / 8))).mem
        result := BitVec.ofNat 32 (s.pkLen.toNat / 8)
        status := { s.status with
          done := true
          incompleteGroupDropped :=
            s.status.incompleteGroupDropped || decide (s.pkLen.toNat % 8 ≠ 0)
          nonbinarySymbol := s.status.nonbinarySymbol || nonbin }
        engine := .idle } ∧
      (nonbin = true ↔ ∃ idx < 8 * (s.pkLen.toNat / 8),
        nonBinary (readByte (packAfter s.params (latch s) s.mem idx).mem (s.pkSrc.toNat + idx))) ∧
      ∀ a, (a < s.pkDst.toNat ∨ s.pkDst.toNat + 8 * (s.pkLen.toNat / 8) ≤ a) →
        readByte (packAfter s.params (latch s) s.mem (8 * (s.pkLen.toNat / 8))).mem a
          = readByte s.mem a

/-- R203: INDEX_OUT_OF_BOUNDS (code 3) is raised by PACK when a range of the full claimed length leaves
the memory, and by ENCODE when EN_LEN = 0 or a range leaves the memory; memory, RESULT, EN_OUTLEN,
EN_RUN, EN_PREV and the sticky flags are unchanged, and so is all but DONE, ERROR and ERRCODE. -/
def Obligations.RangeErrorsAreReported : Prop :=
  codeNumber (some .indexOutOfBounds) = 3 ∧
  ∀ s : State, s.status.busy = false →
    ((memBytes s.params < s.pkSrc.toNat + s.pkLen.toNat ∨
        memBytes s.params < s.pkDst.toNat + s.pkLen.toNat) →
      exec .pack s = .next (endedInError .indexOutOfBounds s)) ∧
    ((s.enLen.toNat = 0 ∨ memBytes s.params < s.enSrc.toNat + s.enLen.toNat ∨
        memBytes s.params < s.enDst.toNat + elemBytes s.params * s.enLen.toNat) →
      exec .encode s = .next (endedInError .indexOutOfBounds s))

/-- R140(a), R140(b), R236: PACK of fewer than eight symbols completes with RESULT = 0 and no memory
access; INCOMPLETE_GROUP_DROPPED is set exactly when N ≠ 0. -/
def Obligations.PackOfNoCompleteGroup : Prop :=
  ∀ s : State, s.status.busy = false → s.pkLen.toNat < 8 →
    s.pkSrc.toNat + s.pkLen.toNat ≤ memBytes s.params →
    s.pkDst.toNat + s.pkLen.toNat ≤ memBytes s.params →
    exec .pack s = .next { s with
      result := 0
      status := { s.status with
        done := true
        incompleteGroupDropped := s.status.incompleteGroupDropped || decide (s.pkLen.toNat ≠ 0) }
      engine := .idle }

/-- R132, R133, R134 and R67: for every parameter value, with source and slots separate or in place,
PACK leaves in slot idx the bit idx mod 8 of the operand byte set for '1' and cleared for '0', and
what PACK_OTHER says for any other symbol. Partly overlapping buffers are PackCompletes'. -/
def Obligations.PackSlotsForEveryParameter : Prop :=
  ∀ s : State, s.status.busy = false →
    s.pkSrc.toNat + s.pkLen.toNat ≤ memBytes s.params →
    s.pkDst.toNat + s.pkLen.toNat ≤ memBytes s.params →
    packSeparateOrInPlace (latch s) →
    ∃ t, exec .pack s = .next t ∧
      ∀ idx < 8 * (s.pkLen.toNat / 8),
        readByte t.mem (s.pkDst.toNat + idx)
          = packedByte s.params (fun j => readByte s.mem (s.pkSrc.toNat + j))
              (fun j => readByte s.mem (s.pkDst.toNat + j)) idx

/-- R141: the closed form under PACK_OPERAND = ZERO and PACK_OTHER = COPY, for buffers that do not
overlap; every byte outside D .. D + 8G - 1 is unchanged. -/
def Obligations.PackClosedFormUnderTheDefaults : Prop :=
  ∀ s : State, s.status.busy = false →
    s.pkSrc.toNat + s.pkLen.toNat ≤ memBytes s.params →
    s.pkDst.toNat + s.pkLen.toNat ≤ memBytes s.params →
    s.params.packOperand = .zero → s.params.packOther = .copy → packSeparate (latch s) →
    ∃ t, exec .pack s = .next t ∧
      (∀ idx < 8 * (s.pkLen.toNat / 8),
        let sym := readByte s.mem (s.pkSrc.toNat + idx)
        readByte t.mem (s.pkDst.toNat + idx)
          = if sym = 0x31#8 then BitVec.ofNat 8 (2 ^ (idx % 8))
            else if sym = 0x30#8 then 0x00#8 else sym) ∧
      ∀ a, (a < s.pkDst.toNat ∨ s.pkDst.toNat + 8 * (s.pkLen.toNat / 8) ≤ a) →
        readByte t.mem a = readByte s.mem a

/-- R142: the closed form under PACK_OPERAND = ACCUM, for buffers that do not overlap: the byte of
position i of group g (symbol '1' or '0', or any symbol under PACK_OTHER = OPERAND) is the sum of 2^j
over the positions j in 0 .. i whose symbol is 0x31; so the slot at position 7 holds the group packed
8 to 1, the symbol at position j in bit j. -/
def Obligations.PackClosedFormUnderAccum : Prop :=
  ∀ s : State, s.status.busy = false →
    s.pkSrc.toNat + s.pkLen.toNat ≤ memBytes s.params →
    s.pkDst.toNat + s.pkLen.toNat ≤ memBytes s.params →
    s.params.packOperand = .accum → packSeparate (latch s) →
    ∃ t, exec .pack s = .next t ∧
      ∀ g i : Nat, g < s.pkLen.toNat / 8 → i < 8 →
        (¬ nonBinary (readByte s.mem (s.pkSrc.toNat + (8 * g + i))) ∨ s.params.packOther = .operand) →
        (readByte t.mem (s.pkDst.toNat + (8 * g + i))).toNat
          = ((List.range (i + 1)).map (fun j =>
              if readByte s.mem (s.pkSrc.toNat + (8 * g + j)) = 0x31#8 then 2 ^ j else 0)).sum ∧
        (i = 7 → ∀ j < 8, (readByte t.mem (s.pkDst.toNat + (8 * g + i))).getLsbD j
          = decide (readByte s.mem (s.pkSrc.toNat + (8 * g + j)) = 0x31#8))

/-- R143: under the defaults, the OR of the eight slots of a group of '1's and '0's has bit j set
exactly when the symbol at position j is '1'. -/
def Obligations.PackKeepsTheGroupsInformation : Prop :=
  ∀ s : State, s.status.busy = false →
    s.pkSrc.toNat + s.pkLen.toNat ≤ memBytes s.params →
    s.pkDst.toNat + s.pkLen.toNat ≤ memBytes s.params →
    s.params.packOperand = .zero → s.params.packOther = .copy → packSeparate (latch s) →
    ∃ t, exec .pack s = .next t ∧
      ∀ g < s.pkLen.toNat / 8,
        (∀ i < 8, ¬ nonBinary (readByte s.mem (s.pkSrc.toNat + (8 * g + i)))) →
        ∀ j < 8,
          (((List.range 8).map (fun i => readByte t.mem (s.pkDst.toNat + (8 * g + i)))).foldl
              (· ||| ·) 0#8).getLsbD j
            = decide (readByte s.mem (s.pkSrc.toNat + (8 * g + j)) = 0x31#8)

/-- R144: re-running PACK with the same operands, the same symbols and buffers that do not overlap
gives the same RESULT and the same output bytes: under every parameter value if the output buffer
still holds the first run's output, and whatever it holds under ZERO and ACCUM, but for the slots that
NOWRITE leaves unwritten. -/
def Obligations.PackIsRepeatable : Prop :=
  ∀ s t s' : State, s.status.busy = false → s'.status.busy = false →
    s.pkSrc.toNat + s.pkLen.toNat ≤ memBytes s.params →
    s.pkDst.toNat + s.pkLen.toNat ≤ memBytes s.params →
    packSeparate (latch s) → exec .pack s = .next t →
    s'.params = s.params → s'.pkSrc = s.pkSrc → s'.pkDst = s.pkDst → s'.pkLen = s.pkLen →
    (∀ idx < 8 * (s.pkLen.toNat / 8),
      readByte s'.mem (s.pkSrc.toNat + idx) = readByte s.mem (s.pkSrc.toNat + idx)) →
    ∃ t', exec .pack s' = .next t' ∧ t'.result = t.result ∧
      ((∀ idx < 8 * (s.pkLen.toNat / 8),
          readByte s'.mem (s.pkDst.toNat + idx) = readByte t.mem (s.pkDst.toNat + idx)) →
        ∀ idx < 8 * (s.pkLen.toNat / 8),
          readByte t'.mem (s.pkDst.toNat + idx) = readByte t.mem (s.pkDst.toNat + idx)) ∧
      (s.params.packOperand ≠ .slot → ∀ idx < 8 * (s.pkLen.toNat / 8),
        (s.params.packOther ≠ .nowrite ∨ ¬ nonBinary (readByte s.mem (s.pkSrc.toNat + idx))) →
          readByte t'.mem (s.pkDst.toNat + idx) = readByte t.mem (s.pkDst.toNat + idx))

/-! ### ENCODE -/

/-- spec/43_rle_encoder.md R172: with the ranges in memory, ENCODE completes for every parameter value
and every overlap, and RESULT is the number of scanned multiples of 8, in both of R172's forms, from the
first packed value. Also, derived from R61, R167, R168 and R169: at most N elements are emitted and the
run counter is at most N; TRAILING_RUN_DISCARDED and DONE are set; RUN_OVERFLOW is set or as before; and
every byte outside D .. D + E*EN_OUTLEN - 1 and everything not named is unchanged. -/
def Obligations.EncodeCompletes : Prop :=
  ∀ s : State, s.status.busy = false → s.enLen.toNat ≠ 0 →
    s.enSrc.toNat + s.enLen.toNat ≤ memBytes s.params →
    s.enDst.toNat + elemBytes s.params * s.enLen.toNat ≤ memBytes s.params →
    let v0 := readByte s.mem s.enSrc.toNat
    countBoundaries s.params v0 s.enLen.toNat = expectedBoundaries s.params v0 s.enLen.toNat ∧
    ∃ (m : Memory) (k run : Word) (prev : Byte) (ovf : Bool),
      exec .encode s = .next { s with
        mem := m
        result := BitVec.ofNat 32 (expectedBoundaries s.params v0 s.enLen.toNat)
        enOutlen := k
        enRun := run
        enPrev := prev.setWidth 32
        status := { s.status with
          done := true
          trailingRunDiscarded := true
          runOverflow := s.status.runOverflow || ovf }
        engine := .idle } ∧
      k.toNat ≤ s.enLen.toNat ∧ run.toNat ≤ s.enLen.toNat ∧
      ∀ a, (a < s.enDst.toNat ∨ s.enDst.toNat + elemBytes s.params * k.toNat ≤ a) →
        readByte m a = readByte s.mem a

/-- R173 with R166 and R167, for source and destination that share no byte or, with one-byte elements,
are the same (R68): the elements, their number, the final run counter and the final value are those of
the maximal runs of the packed values, each element the low 8E bits, least significant byte first;
RUN_OVERFLOW is set exactly when a value does not fit, else it is as before. Other overlaps are
EncodeCompletes'. -/
def Obligations.EncodeElementsAreTheRuns : Prop :=
  ∀ s : State, s.status.busy = false → s.enLen.toNat ≠ 0 →
    s.enSrc.toNat + s.enLen.toNat ≤ memBytes s.params →
    s.enDst.toNat + elemBytes s.params * s.enLen.toNat ≤ memBytes s.params →
    (encSeparate s.params (latch s) ∨ encInPlace s.params (latch s)) →
    let vs := valuesAt s.mem s.enSrc.toNat s.enLen.toNat
    let es := expectedElements s.params vs
    ∃ t, exec .encode s = .next t ∧
      t.enOutlen.toNat = es.length ∧ t.enRun.toNat = expectedRun s.params vs ∧
      t.enPrev = (vs.getLastD 0).setWidth 32 ∧
      (∀ k < es.length,
        memRead t.mem (s.enDst.toNat + elemBytes s.params * k) (elemBytes s.params)
          = es.getD k 0 % 2 ^ (8 * elemBytes s.params)) ∧
      t.status.runOverflow
        = (s.status.runOverflow || es.any (fun x => decide (2 ^ (8 * elemBytes s.params) ≤ x)))

/-- R68: an ENCODE with EN_DST = EN_SRC and RUN_ELEM_BYTES = 1 gives the same outputs as an ENCODE of
the same values into a separate buffer. -/
def Obligations.EncodeInPlaceEqualsSeparate : Prop :=
  ∀ (s : State) (d : Word), s.status.busy = false → s.enLen.toNat ≠ 0 →
    s.enSrc.toNat + s.enLen.toNat ≤ memBytes s.params →
    d.toNat + s.enLen.toNat ≤ memBytes s.params →
    elemBytes s.params = 1 → s.enDst = s.enSrc →
    (s.enSrc.toNat + s.enLen.toNat ≤ d.toNat ∨ d.toNat + s.enLen.toNat ≤ s.enSrc.toNat) →
    ∃ t u, exec .encode s = .next t ∧ exec .encode { s with enDst := d } = .next u ∧
      t.result = u.result ∧ t.enOutlen = u.enOutlen ∧ t.enRun = u.enRun ∧ t.enPrev = u.enPrev ∧
      t.status = u.status ∧
      ∀ k < t.enOutlen.toNat, readByte t.mem (s.enSrc.toNat + k) = readByte u.mem (d.toNat + k)

/-- Derived from R236: from reset with any memory and parameters, ENCODE ends in INDEX_OUT_OF_BOUNDS
and PACK succeeds with RESULT = 0 and no memory access. -/
def Obligations.CommandsFromReset : Prop :=
  ∀ (P : Config.Params) (m : Memory),
    exec .encode (State.powerOn P m) = .next { State.powerOn P m with
      status := { Status.reset with done := true, error := true, errcode := some .indexOutOfBounds } } ∧
    exec .pack (State.powerOn P m) = .next { State.powerOn P m with
      status := { Status.reset with done := true } }

/-! ### The engine, turn by turn -/

/-- R139: "The observable effect of this machine is exactly rule R132": from acceptance of PACK, BUSY
stays 1 through the engine's turns until the one that leaves exactly the state of the atomic command,
a finite number (R97). That 8G + 3 suffice counts the model's turns and is its choice: one for the state
`accepted` (notes/assumptions/8.md), one for PK_FINISH with PK_END merged (6.md). -/
def Obligations.PackEngineRefinesPack : Prop :=
  ∀ s : State, s.status.busy = false →
    ∃ n t, exec .pack s = .next t ∧ engineTurns n (accept (some .pack) s) = t ∧
      n ≤ 8 * (s.pkLen.toNat / 8) + 3 ∧
      ∀ j < n, (engineTurns j (accept (some .pack) s)).status.busy = true

/-- R170: "The transitions and their effects are exactly rule R162": the same for ENCODE, whose turns
are at most one per index, one per byte written, and four. The bound counts the model's turns and is its
choice: a turn per byte (notes/assumptions/7.md), one for the state `accepted` (8.md), one for
EN_FINISH with EN_END merged (6.md). -/
def Obligations.EncodeEngineRefinesEncode : Prop :=
  ∀ s : State, s.status.busy = false →
    ∃ n t, exec .encode s = .next t ∧ engineTurns n (accept (some .encode) s) = t ∧
      n ≤ s.enLen.toNat + elemBytes s.params * s.enLen.toNat + 4 ∧
      ∀ j < n, (engineTurns j (accept (some .encode) s)).status.busy = true

/-- R98: the atomic transition of any command word ends in the very state that the word's acceptance
and then the engine's own turns reach, after which BUSY stays 0. -/
def Obligations.AtomicCommandIsAcceptanceThenTurns : Prop :=
  ∀ (s : State) (w : Word), s.status.busy = false →
    ∃ n t, runCommandWord w s = .next t ∧ t.status.busy = false ∧
      ∀ j, n ≤ j → engineTurns j (writeReg w s .cmd) = t

/-- R97: "Every accepted command completes after a finite number of engine steps": from every state of
the invariant, in the middle of a command or not, the engine's turns reach BUSY = 0. -/
def Obligations.EngineAlwaysCompletes : Prop :=
  ∀ s : State, Inv s → ∃ n, (engineTurns n s).status.busy = false

/-- Derived from R81, R82 and R99: from BUSY = 0, a write of a command word to CMD through the register
port followed by `poll` reaches, in finitely many steps that all answer a next state, the state of the
atomic command, with STATUS as the host's answer and the later host actions still waiting. How a poll
takes turns is the model's choice (notes/assumptions/14.md). -/
def Obligations.CommandAndPollRunTheCommand : Prop :=
  ∀ (s : State) (w : Word) (rest : List Event), s.status.busy = false →
    s.events = .regWrite 0x00 4 w :: .poll :: rest →
    ∃ n t, runCommandWord w s = .next t ∧
      stepsTo n s = some { t with events := rest, reply := .word (statusWord t.status) }

/-- R242 and the table of R240: while a command runs, RESULT, EN_OUTLEN, EN_RUN, EN_PREV and STATUS
hold what they held: an engine turn that leaves BUSY = 1 changes only the engine and memory. It rests on
the model's reading of R139 and R170, that the turn which leaves PK_FINISH or EN_FINISH passes through
the end state (DEDUCED, notes/assumptions/6.md). -/
def Obligations.OutputsHiddenWhileBusy : Prop :=
  ∀ s : State, s.status.busy = true → (engineTurn s).status.busy = true →
    engineTurn s = { s with engine := (engineTurn s).engine, mem := (engineTurn s).mem }

/-- R93: acceptance copies the six operand registers; a register-port write to one of them updates the
register and is never seen by the running command (it commutes with any number of engine turns), and
the next command accepted copies the new value. -/
def Obligations.OperandWritesMissTheRunningCommand : Prop :=
  (∀ (s : State) (w : Word), s.status.busy = false →
    (writeReg w s .cmd).engine = .accepted (verdict w)
      { pkSrc := s.pkSrc, pkDst := s.pkDst, pkLen := s.pkLen,
        enSrc := s.enSrc, enDst := s.enDst, enLen := s.enLen }) ∧
  ∀ (s : State) (r : RegName) (v : Word) (n : Nat), r ∈ operandRegs →
    readReg (writeReg v s r) r = v ∧
    engineTurns n (writeReg v s r) = writeReg v (engineTurns n s) r

/-- R98, R91, R30: STATUS writes and rejected CMD writes during a command change nothing of what it
computes: whatever the other STATUS fields are, the turns leave the same memory, results and engine,
and the same BUSY. -/
def Obligations.StatusWritesMissTheRunningCommand : Prop :=
  ∀ (s : State) (st : Status) (n : Nat), st.busy = s.status.busy →
    let t := engineTurns n { s with status := st }
    let u := engineTurns n s
    t.mem = u.mem ∧ t.result = u.result ∧ t.enOutlen = u.enOutlen ∧ t.enRun = u.enRun ∧
      t.enPrev = u.enPrev ∧ t.engine = u.engine ∧ t.status.busy = u.status.busy

/-- Derived from spec/70_reset_and_hazards.md R233: a command aborted by reset after any number of turns leaves the
effect of a prefix of the command's byte writes in the order of its pseudocode, every one inside
memory; and every prefix, empty and complete among them, is left by some abort. That the draw of R233 is
the number of turns before the reset (notes/assumptions/9.md), and that a byte takes a turn (7.md), are
the model's choices. -/
def Obligations.AbortLeavesAPrefixOfTheWrites : Prop :=
  ∀ (s : State) (w : Word), s.status.busy = false →
    ∃ t, runCommandWord w s = .next t ∧
      let cells := commandWrites (verdict w) s t
      (∀ c ∈ cells, c.1 < memBytes s.params) ∧ t.mem = writeCells s.mem cells ∧
      (∀ n, ∃ j ≤ cells.length,
        (resetCore (engineTurns n (issue w s))).mem = writeCells s.mem (cells.take j)) ∧
      ∀ j ≤ cells.length, ∃ n,
        (resetCore (engineTurns n (issue w s))).mem = writeCells s.mem (cells.take j)

/-! ### The register port -/

/-- R25, with the codes of R200: every bit of STATUS as it is read; the bits not listed read 0. -/
def Obligations.StatusBitsAreTheFields : Prop :=
  ∀ (s : State) (j : Nat),
    (readReg s .status).getLsbD j =
      if j = 0 then s.status.busy else if j = 1 then s.status.done else if j = 2 then s.status.error
      else if j = 4 ∨ j = 5 ∨ j = 6 then
        (codeNumber s.status.errcode).testBit (j - 4)
      else if j = 8 then s.status.incompleteGroupDropped
      else if j = 9 then s.status.trailingRunDiscarded
      else if j = 10 then s.status.nonbinarySymbol else if j = 11 then s.status.runOverflow else false

/-- R30: a register-port write of w to STATUS, as the word read before and after: bits 1, 2 and 8 to 11
are cleared where w has a 1, ERRCODE with bit 2, every other bit stays; and nothing but STATUS
changes. It is allowed while BUSY = 1. -/
def Obligations.StatusWriteClearsWhereOne : Prop :=
  ∀ (s : State) (w : Word) (rest : List Event), s.events = .regWrite 0x04 4 w :: rest →
    ∃ st, step s = .next { s with status := st, events := rest } ∧
      ∀ j, (statusWord st).getLsbD j =
        ((statusWord s.status).getLsbD j &&
          !(if j = 1 ∨ j = 2 ∨ j = 8 ∨ j = 9 ∨ j = 10 ∨ j = 11 then w.getLsbD j
            else if j = 4 ∨ j = 5 ∨ j = 6 then w.getLsbD 2 else false))

/-- R22 and R23 for the RW registers: a write at each of their offsets holds all 32 bits in the field
that PACK or ENCODE latches and changes nothing else; so that register reads back exactly what was
written, and every other register reads as before. -/
def Obligations.OperandRegistersReadBack : Prop :=
  ∀ (s : State) (v : Word) (rest : List Event),
    (s.events = .regWrite 0x0C 4 v :: rest → step s = .next { s with pkSrc := v, events := rest }) ∧
    (s.events = .regWrite 0x10 4 v :: rest → step s = .next { s with pkDst := v, events := rest }) ∧
    (s.events = .regWrite 0x14 4 v :: rest → step s = .next { s with pkLen := v, events := rest }) ∧
    (s.events = .regWrite 0x18 4 v :: rest → step s = .next { s with enSrc := v, events := rest }) ∧
    (s.events = .regWrite 0x1C 4 v :: rest → step s = .next { s with enDst := v, events := rest }) ∧
    (s.events = .regWrite 0x20 4 v :: rest → step s = .next { s with enLen := v, events := rest }) ∧
    ∀ r ∈ operandRegs, s.events = .regWrite (regOffset r) 4 v :: rest →
      ∃ t, step s = .next t ∧ readReg t r = v ∧ (∀ q, q ≠ r → readReg t q = readReg s q) ∧
        t.mem = s.mem ∧ t.status = s.status ∧ t.engine = s.engine ∧ t.params = s.params ∧
        t.events = rest ∧ t.reply = s.reply

/-- R22, R23 for the R registers, and R24: a write at the offset of an R register changes nothing; a read
at the offset of each register answers 0 for CMD, the STATUS word, or the register's field, and changes
nothing but the answer. The table also says which offset and which value each register name of the other
statements stands for. -/
def Obligations.ReadOnlyRegistersAndReads : Prop :=
  ∀ (s : State) (v : Word) (rest : List Event),
    (∀ o, (o = 0x08 ∨ o = 0x24 ∨ o = 0x28 ∨ o = 0x2C) → s.events = .regWrite o 4 v :: rest →
      step s = .next { s with events := rest }) ∧
    ∀ (r : RegName) (o : Nat) (x : Word),
      (r, o, x) ∈
        [(RegName.cmd, 0x00, 0), (.status, 0x04, statusWord s.status), (.result, 0x08, s.result),
          (.pkSrc, 0x0C, s.pkSrc), (.pkDst, 0x10, s.pkDst), (.pkLen, 0x14, s.pkLen),
          (.enSrc, 0x18, s.enSrc), (.enDst, 0x1C, s.enDst), (.enLen, 0x20, s.enLen),
          (.enOutlen, 0x24, s.enOutlen), (.enRun, 0x28, s.enRun), (.enPrev, 0x2C, s.enPrev)] →
      regOffset r = o ∧ readReg s r = x ∧
        (s.events = .regRead o 4 :: rest →
          step s = .next { s with events := rest, reply := .word x })

/-- R35: a read of a reserved offset returns 0 and a write there has no effect; a register-port access
that is not a whole aligned 32-bit word, or whose offset is above 0xFF, is refused. -/
def Obligations.ReservedOffsetsAndRefusedAccesses : Prop :=
  ∀ (s : State) (o b : Nat) (v : Word) (rest : List Event),
    (b = 4 → o % 4 = 0 → 0x30 ≤ o → o ≤ 0xFC →
      (s.events = .regRead o b :: rest →
        step s = .next { s with events := rest, reply := .word 0 }) ∧
      (s.events = .regWrite o b v :: rest → step s = .next { s with events := rest })) ∧
    ((b ≠ 4 ∨ o % 4 ≠ 0 ∨ 0xFF < o) →
      (s.events = .regRead o b :: rest → step s = .refused .regAccessOutsidePort) ∧
      (s.events = .regWrite o b v :: rest → step s = .refused .regAccessOutsidePort))

/-! ### Memory and the memory port -/

/-- Derived from R53 and R241: HostMemRead and HostMemWrite are refused while BUSY = 1 and at an address >=
MEM_BYTES. With BUSY = 0 and a < MEM_BYTES, HostMemRead returns the byte at a and changes nothing
else, and HostMemWrite sets the byte at a and leaves every other byte and everything else. Which refusal
is given when BUSY = 1 and the address is outside is the model's choice (DEDUCED, notes/assumptions/12.md). -/
def Obligations.HostMemoryAccess : Prop :=
  ∀ (s : State) (a : Nat) (v : Byte) (rest : List Event),
    ((s.events = .memRead a :: rest ∨ s.events = .memWrite a v :: rest) →
      (s.status.busy = true → step s = .refused .hostAccessWhileBusy) ∧
      (s.status.busy = false → memBytes s.params ≤ a → step s = .refused .hostAccessOutsideMemory)) ∧
    (s.status.busy = false → a < memBytes s.params →
      (s.events = .memRead a :: rest →
        step s = .next { s with events := rest, reply := .byte (readByte s.mem a) }) ∧
      (s.events = .memWrite a v :: rest →
        ∃ m, step s = .next { s with events := rest, mem := m } ∧ readByte m a = v ∧
          ∀ b, b ≠ a → readByte m b = readByte s.mem b))

/-- R55, R56: MemWrite of n bytes sets byte addr+j to (v div 2^(8j)) mod 256 for each j < n and no
other byte; MemRead then returns v mod 2^(8n). -/
def Obligations.WideAccessesAreLittleEndian : Prop :=
  ∀ (m : Memory) (a n v : Nat),
    (∀ j < n, (readByte (memWrite m a n v) (a + j)).toNat = v / 2 ^ (8 * j) % 256) ∧
    (∀ b, b < a ∨ a + n ≤ b → readByte (memWrite m a n v) b = readByte m b) ∧
    memRead (memWrite m a n v) a n = v % 2 ^ (8 * n) ∧
    memRead m a n = ((List.range n).map (fun j => (readByte m (a + j)).toNat * 2 ^ (8 * j))).sum

/-- Derived from the model's memory form (notes/assumptions/4.md): canonical memories whose bytes are
the same are equal, so equality of states is equality of what they hold. -/
def Obligations.CanonicalMemoryIsUnique : Prop :=
  ∀ m m' : Memory, Memory.wf m → Memory.wf m' → (∀ a, readByte m a = readByte m' a) → m = m'

/-! ### The whole machine -/

/-- R231 and R230: reset sets every register to 0 and the engine to IDLE, from any state, a running
command is aborted and performs no further memory access, and memory (R232) and the parameters are
unchanged; the state after power-on is the same with the memory given. -/
def Obligations.ResetSetsEveryRegisterToZero : Prop :=
  (∀ (s : State) (rest : List Event), s.events = .reset :: rest →
    ∃ t, step s = .next t ∧ (∀ r, readReg t r = 0) ∧ t.engine = .idle ∧ t.mem = s.mem ∧
      t.params = s.params ∧ t.events = rest ∧ ∀ n, engineTurns n t = t) ∧
  (∀ (P : Config.Params) (m : Memory),
    (∀ r, readReg (State.powerOn P m) r = 0) ∧ (State.powerOn P m).engine = .idle ∧
      (State.powerOn P m).mem = m ∧ (State.powerOn P m).params = P)

/-- Derived: the invariant holds after reset. -/
def Obligations.ResetMeetsTheInvariant : Prop := Inv State.reset

/-- Derived from R28, R34, R37, R50: every step keeps the invariant. -/
def Obligations.EveryStepKeepsTheInvariant : Prop :=
  ∀ s t : State, Inv s → step s = .next t → Inv t

/-- R39: the parameters do not change at run time or at reset. -/
def Obligations.ParametersNeverChange : Prop :=
  ∀ s t : State, step s = .next t → t.params = s.params

/-- R29, R27, R28: no step but a STATUS write or a reset clears a sticky flag, DONE or ERROR, or
changes ERRCODE while ERROR = 1. -/
def Obligations.OnlyTheHostClearsStatus : Prop :=
  ∀ s t : State, step s = .next t → (∀ e ∈ s.events.head?, clearsStatus e = false) →
    (s.status.done = true → t.status.done = true) ∧
    (s.status.error = true → t.status.error = true ∧ t.status.errcode = s.status.errcode) ∧
    (s.status.incompleteGroupDropped = true → t.status.incompleteGroupDropped = true) ∧
    (s.status.trailingRunDiscarded = true → t.status.trailingRunDiscarded = true) ∧
    (s.status.nonbinarySymbol = true → t.status.nonbinarySymbol = true) ∧
    (s.status.runOverflow = true → t.status.runOverflow = true)

/-- R52: a step that changes a byte of memory is a host memory write, a PACK or an ENCODE. -/
def Obligations.OnlyPackEncodeAndTheHostWriteMemory : Prop :=
  ∀ s t : State, step s = .next t → engineUsesMemory s.engine = false →
    (∀ e ∈ s.events.head?, eventUsesMemory e = false) → t.mem = s.mem

/-- R40 and R52, R31, R32, R33: no command writes an operand register; NOP writes no result register;
the bit primitives and PACK write no EN_ register; no command writes params, events or reply; and
only PACK and ENCODE write memory. -/
def Obligations.CommandsWriteOnlyTheirState : Prop :=
  ∀ (s : State) (i : Instr), ∃ t, exec i s = .next t ∧
    (∀ r ∈ operandRegs, readReg t r = readReg s r) ∧
    (i ≠ .encode → t.enOutlen = s.enOutlen ∧ t.enRun = s.enRun ∧ t.enPrev = s.enPrev ∧
      t.status.trailingRunDiscarded = s.status.trailingRunDiscarded ∧
      t.status.runOverflow = s.status.runOverflow) ∧
    (i ≠ .pack → t.status.incompleteGroupDropped = s.status.incompleteGroupDropped ∧
      t.status.nonbinarySymbol = s.status.nonbinarySymbol) ∧
    (i ≠ .pack → i ≠ .encode → t.mem = s.mem) ∧ (i = .nop → t.result = s.result) ∧
    t.params = s.params ∧ t.events = s.events ∧ t.reply = s.reply

/-- R234 and spec/30_encoding.md R81: with no event waiting, an idle core waits (the step changes
nothing) and a running one takes a turn; `poll` takes turns while BUSY = 1 and then answers STATUS. The
scheduling is the model's choice (notes/assumptions/2.md and 14.md). -/
def Obligations.IdleCoreWaitsAndPollReturns : Prop :=
  ∀ s : State,
    (s.events = [] → s.engine = .idle → step s = .next s) ∧
    (s.events = [] → step s = .next (engineTurn s)) ∧
    (∀ rest, s.events = .poll :: rest → s.status.busy = false →
      step s = .next { s with events := rest, reply := .word (statusWord s.status) }) ∧
    (∀ rest, s.events = .poll :: rest → s.status.busy = true → step s = .next (engineTurn s))
end

