-- ==== Sys2Proof/Laws/State.lean ====
section
/-! SUPPORT. What each shared update of the state leaves in each field, by `rfl`; no later proof
unfolds a record update. -/

namespace Sys2Proof.Machine

/-! ### `recordError` -/

@[simp] theorem recordError_params (e : ErrorKind) (s : State) :
    (recordError e s).params = s.params := rfl
@[simp] theorem recordError_status (e : ErrorKind) (s : State) :
    (recordError e s).status = s.status.recordError e := rfl
@[simp] theorem recordError_result (e : ErrorKind) (s : State) :
    (recordError e s).result = s.result := rfl
@[simp] theorem recordError_pkSrc (e : ErrorKind) (s : State) :
    (recordError e s).pkSrc = s.pkSrc := rfl
@[simp] theorem recordError_pkDst (e : ErrorKind) (s : State) :
    (recordError e s).pkDst = s.pkDst := rfl
@[simp] theorem recordError_pkLen (e : ErrorKind) (s : State) :
    (recordError e s).pkLen = s.pkLen := rfl
@[simp] theorem recordError_enSrc (e : ErrorKind) (s : State) :
    (recordError e s).enSrc = s.enSrc := rfl
@[simp] theorem recordError_enDst (e : ErrorKind) (s : State) :
    (recordError e s).enDst = s.enDst := rfl
@[simp] theorem recordError_enLen (e : ErrorKind) (s : State) :
    (recordError e s).enLen = s.enLen := rfl
@[simp] theorem recordError_enOutlen (e : ErrorKind) (s : State) :
    (recordError e s).enOutlen = s.enOutlen := rfl
@[simp] theorem recordError_enRun (e : ErrorKind) (s : State) :
    (recordError e s).enRun = s.enRun := rfl
@[simp] theorem recordError_enPrev (e : ErrorKind) (s : State) :
    (recordError e s).enPrev = s.enPrev := rfl
@[simp] theorem recordError_engine (e : ErrorKind) (s : State) :
    (recordError e s).engine = s.engine := rfl
@[simp] theorem recordError_mem (e : ErrorKind) (s : State) :
    (recordError e s).mem = s.mem := rfl
@[simp] theorem recordError_events (e : ErrorKind) (s : State) :
    (recordError e s).events = s.events := rfl
@[simp] theorem recordError_reply (e : ErrorKind) (s : State) :
    (recordError e s).reply = s.reply := rfl

/-! ### `accept` -/

@[simp] theorem accept_params (c : Option Instr) (s : State) :
    (accept c s).params = s.params := rfl
@[simp] theorem accept_status (c : Option Instr) (s : State) :
    (accept c s).status = { s.status with busy := true } := rfl
@[simp] theorem accept_result (c : Option Instr) (s : State) :
    (accept c s).result = s.result := rfl
@[simp] theorem accept_pkSrc (c : Option Instr) (s : State) :
    (accept c s).pkSrc = s.pkSrc := rfl
@[simp] theorem accept_pkDst (c : Option Instr) (s : State) :
    (accept c s).pkDst = s.pkDst := rfl
@[simp] theorem accept_pkLen (c : Option Instr) (s : State) :
    (accept c s).pkLen = s.pkLen := rfl
@[simp] theorem accept_enSrc (c : Option Instr) (s : State) :
    (accept c s).enSrc = s.enSrc := rfl
@[simp] theorem accept_enDst (c : Option Instr) (s : State) :
    (accept c s).enDst = s.enDst := rfl
@[simp] theorem accept_enLen (c : Option Instr) (s : State) :
    (accept c s).enLen = s.enLen := rfl
@[simp] theorem accept_enOutlen (c : Option Instr) (s : State) :
    (accept c s).enOutlen = s.enOutlen := rfl
@[simp] theorem accept_enRun (c : Option Instr) (s : State) :
    (accept c s).enRun = s.enRun := rfl
@[simp] theorem accept_enPrev (c : Option Instr) (s : State) :
    (accept c s).enPrev = s.enPrev := rfl
@[simp] theorem accept_engine (c : Option Instr) (s : State) :
    (accept c s).engine = .accepted c (latch s) := rfl
@[simp] theorem accept_mem (c : Option Instr) (s : State) :
    (accept c s).mem = s.mem := rfl
@[simp] theorem accept_events (c : Option Instr) (s : State) :
    (accept c s).events = s.events := rfl
@[simp] theorem accept_reply (c : Option Instr) (s : State) :
    (accept c s).reply = s.reply := rfl

/-! ### `complete` -/

@[simp] theorem complete_params (o : Option ErrorKind) (s : State) :
    (complete o s).params = s.params := rfl
@[simp] theorem complete_status (o : Option ErrorKind) (s : State) :
    (complete o s).status = s.status.complete o := rfl
@[simp] theorem complete_result (o : Option ErrorKind) (s : State) :
    (complete o s).result = s.result := rfl
@[simp] theorem complete_pkSrc (o : Option ErrorKind) (s : State) :
    (complete o s).pkSrc = s.pkSrc := rfl
@[simp] theorem complete_pkDst (o : Option ErrorKind) (s : State) :
    (complete o s).pkDst = s.pkDst := rfl
@[simp] theorem complete_pkLen (o : Option ErrorKind) (s : State) :
    (complete o s).pkLen = s.pkLen := rfl
@[simp] theorem complete_enSrc (o : Option ErrorKind) (s : State) :
    (complete o s).enSrc = s.enSrc := rfl
@[simp] theorem complete_enDst (o : Option ErrorKind) (s : State) :
    (complete o s).enDst = s.enDst := rfl
@[simp] theorem complete_enLen (o : Option ErrorKind) (s : State) :
    (complete o s).enLen = s.enLen := rfl
@[simp] theorem complete_enOutlen (o : Option ErrorKind) (s : State) :
    (complete o s).enOutlen = s.enOutlen := rfl
@[simp] theorem complete_enRun (o : Option ErrorKind) (s : State) :
    (complete o s).enRun = s.enRun := rfl
@[simp] theorem complete_enPrev (o : Option ErrorKind) (s : State) :
    (complete o s).enPrev = s.enPrev := rfl
@[simp] theorem complete_engine (o : Option ErrorKind) (s : State) :
    (complete o s).engine = .idle := rfl
@[simp] theorem complete_mem (o : Option ErrorKind) (s : State) :
    (complete o s).mem = s.mem := rfl
@[simp] theorem complete_events (o : Option ErrorKind) (s : State) :
    (complete o s).events = s.events := rfl
@[simp] theorem complete_reply (o : Option ErrorKind) (s : State) :
    (complete o s).reply = s.reply := rfl

/-! ### `packFinish` -/

@[simp] theorem packFinish_params (l : Latched) (nb : Bool) (s : State) :
    (packFinish l nb s).params = s.params := rfl
@[simp] theorem packFinish_status (l : Latched) (nb : Bool) (s : State) :
    (packFinish l nb s).status = packFlags l.pkLen.toNat nb s.status := rfl
@[simp] theorem packFinish_result (l : Latched) (nb : Bool) (s : State) :
    (packFinish l nb s).result = BitVec.ofNat 32 (groupCount l) := rfl
@[simp] theorem packFinish_pkSrc (l : Latched) (nb : Bool) (s : State) :
    (packFinish l nb s).pkSrc = s.pkSrc := rfl
@[simp] theorem packFinish_pkDst (l : Latched) (nb : Bool) (s : State) :
    (packFinish l nb s).pkDst = s.pkDst := rfl
@[simp] theorem packFinish_pkLen (l : Latched) (nb : Bool) (s : State) :
    (packFinish l nb s).pkLen = s.pkLen := rfl
@[simp] theorem packFinish_enSrc (l : Latched) (nb : Bool) (s : State) :
    (packFinish l nb s).enSrc = s.enSrc := rfl
@[simp] theorem packFinish_enDst (l : Latched) (nb : Bool) (s : State) :
    (packFinish l nb s).enDst = s.enDst := rfl
@[simp] theorem packFinish_enLen (l : Latched) (nb : Bool) (s : State) :
    (packFinish l nb s).enLen = s.enLen := rfl
@[simp] theorem packFinish_enOutlen (l : Latched) (nb : Bool) (s : State) :
    (packFinish l nb s).enOutlen = s.enOutlen := rfl
@[simp] theorem packFinish_enRun (l : Latched) (nb : Bool) (s : State) :
    (packFinish l nb s).enRun = s.enRun := rfl
@[simp] theorem packFinish_enPrev (l : Latched) (nb : Bool) (s : State) :
    (packFinish l nb s).enPrev = s.enPrev := rfl
@[simp] theorem packFinish_engine (l : Latched) (nb : Bool) (s : State) :
    (packFinish l nb s).engine = s.engine := rfl
@[simp] theorem packFinish_mem (l : Latched) (nb : Bool) (s : State) :
    (packFinish l nb s).mem = s.mem := rfl
@[simp] theorem packFinish_events (l : Latched) (nb : Bool) (s : State) :
    (packFinish l nb s).events = s.events := rfl
@[simp] theorem packFinish_reply (l : Latched) (nb : Bool) (s : State) :
    (packFinish l nb s).reply = s.reply := rfl

/-! ### `encFinish` -/

@[simp] theorem encFinish_params (b k r : Word) (p : Byte) (o : Bool) (s : State) :
    (encFinish b k r p o s).params = s.params := rfl
@[simp] theorem encFinish_status (b k r : Word) (p : Byte) (o : Bool) (s : State) :
    (encFinish b k r p o s).status = encFlags o s.status := rfl
@[simp] theorem encFinish_result (b k r : Word) (p : Byte) (o : Bool) (s : State) :
    (encFinish b k r p o s).result = b := rfl
@[simp] theorem encFinish_pkSrc (b k r : Word) (p : Byte) (o : Bool) (s : State) :
    (encFinish b k r p o s).pkSrc = s.pkSrc := rfl
@[simp] theorem encFinish_pkDst (b k r : Word) (p : Byte) (o : Bool) (s : State) :
    (encFinish b k r p o s).pkDst = s.pkDst := rfl
@[simp] theorem encFinish_pkLen (b k r : Word) (p : Byte) (o : Bool) (s : State) :
    (encFinish b k r p o s).pkLen = s.pkLen := rfl
@[simp] theorem encFinish_enSrc (b k r : Word) (p : Byte) (o : Bool) (s : State) :
    (encFinish b k r p o s).enSrc = s.enSrc := rfl
@[simp] theorem encFinish_enDst (b k r : Word) (p : Byte) (o : Bool) (s : State) :
    (encFinish b k r p o s).enDst = s.enDst := rfl
@[simp] theorem encFinish_enLen (b k r : Word) (p : Byte) (o : Bool) (s : State) :
    (encFinish b k r p o s).enLen = s.enLen := rfl
@[simp] theorem encFinish_enOutlen (b k r : Word) (p : Byte) (o : Bool) (s : State) :
    (encFinish b k r p o s).enOutlen = k := rfl
@[simp] theorem encFinish_enRun (b k r : Word) (p : Byte) (o : Bool) (s : State) :
    (encFinish b k r p o s).enRun = r := rfl
@[simp] theorem encFinish_enPrev (b k r : Word) (p : Byte) (o : Bool) (s : State) :
    (encFinish b k r p o s).enPrev = p.setWidth 32 := rfl
@[simp] theorem encFinish_engine (b k r : Word) (p : Byte) (o : Bool) (s : State) :
    (encFinish b k r p o s).engine = s.engine := rfl
@[simp] theorem encFinish_mem (b k r : Word) (p : Byte) (o : Bool) (s : State) :
    (encFinish b k r p o s).mem = s.mem := rfl
@[simp] theorem encFinish_events (b k r : Word) (p : Byte) (o : Bool) (s : State) :
    (encFinish b k r p o s).events = s.events := rfl
@[simp] theorem encFinish_reply (b k r : Word) (p : Byte) (o : Bool) (s : State) :
    (encFinish b k r p o s).reply = s.reply := rfl

/-! ### `resetCore` -/

@[simp] theorem resetCore_params (s : State) :
    (resetCore s).params = s.params := rfl
@[simp] theorem resetCore_status (s : State) :
    (resetCore s).status = Status.reset := rfl
@[simp] theorem resetCore_result (s : State) :
    (resetCore s).result = 0 := rfl
@[simp] theorem resetCore_pkSrc (s : State) :
    (resetCore s).pkSrc = 0 := rfl
@[simp] theorem resetCore_pkDst (s : State) :
    (resetCore s).pkDst = 0 := rfl
@[simp] theorem resetCore_pkLen (s : State) :
    (resetCore s).pkLen = 0 := rfl
@[simp] theorem resetCore_enSrc (s : State) :
    (resetCore s).enSrc = 0 := rfl
@[simp] theorem resetCore_enDst (s : State) :
    (resetCore s).enDst = 0 := rfl
@[simp] theorem resetCore_enLen (s : State) :
    (resetCore s).enLen = 0 := rfl
@[simp] theorem resetCore_enOutlen (s : State) :
    (resetCore s).enOutlen = 0 := rfl
@[simp] theorem resetCore_enRun (s : State) :
    (resetCore s).enRun = 0 := rfl
@[simp] theorem resetCore_enPrev (s : State) :
    (resetCore s).enPrev = 0 := rfl
@[simp] theorem resetCore_engine (s : State) :
    (resetCore s).engine = .idle := rfl
@[simp] theorem resetCore_mem (s : State) :
    (resetCore s).mem = s.mem := rfl
@[simp] theorem resetCore_events (s : State) :
    (resetCore s).events = s.events := rfl
@[simp] theorem resetCore_reply (s : State) :
    (resetCore s).reply = s.reply := rfl

/-! ### STATUS -/

theorem complete_none_busy (st : Status) : (st.complete none).busy = false := rfl

@[simp] theorem statusComplete_busy (o : Option ErrorKind) (st : Status) :
    (st.complete o).busy = false := by cases o <;> rfl

@[simp] theorem statusComplete_done (o : Option ErrorKind) (st : Status) :
    (st.complete o).done = true := by cases o <;> rfl

@[simp] theorem recordStatus_busy (e : ErrorKind) (st : Status) :
    (st.recordError e).busy = st.busy := rfl

@[simp] theorem recordStatus_done (e : ErrorKind) (st : Status) :
    (st.recordError e).done = st.done := rfl

@[simp] theorem packFlags_busy (n : Nat) (b : Bool) (st : Status) :
    (packFlags n b st).busy = st.busy := rfl

@[simp] theorem encFlags_busy (b : Bool) (st : Status) : (encFlags b st).busy = st.busy := rfl

@[simp] theorem clearStatus_busy (w : Word) (st : Status) :
    (clearStatus w st).busy = st.busy := rfl

/-- ERRCODE is zero exactly when ERROR is (R28). -/
abbrev errConsistent (st : Status) : Prop := st.errcode = none ↔ st.error = false

theorem recordStatus_errConsistent {st : Status} (e : ErrorKind) (h : errConsistent st) :
    errConsistent (st.recordError e) := by
  cases he : st.error <;> simp_all [errConsistent, Status.recordError]

theorem statusComplete_errConsistent {st : Status} (o : Option ErrorKind) (h : errConsistent st) :
    errConsistent (st.complete o) := by
  cases o with
  | none => exact h
  | some e => exact recordStatus_errConsistent e h

theorem clearStatus_errConsistent {st : Status} (w : Word) (h : errConsistent st) :
    errConsistent (clearStatus w st) := by
  cases hw : w.getLsbD 2 <;> simp_all [errConsistent, clearStatus]

end Sys2Proof.Machine
end

