-- ==== Sys2Proof/Laws/Command.lean ====
section
/-! SUPPORT. The life of a command: what `exec` answers, once and for all, in terms of `Run(c, L)`. -/

namespace Sys2Proof.Machine

/-- `Run(c, L)` of R95 for a decoded command. -/
def runOf : Instr → Latched → State → RunResult
  | .nop => runNop
  | .getBit byte pos => runGetBit byte pos
  | .setBit byte pos => runSetBit byte pos
  | .clearBit byte pos => runClearBit byte pos
  | .pack => runPack
  | .encode => runEncode

theorem exec_eq (i : Instr) (s : State) :
    exec i s = .next (onCommand (some i) (runOf i) s) := by
  cases i <;> rfl

theorem onCommand_busy {s : State} (h : s.status.busy = true) (c : Option Instr)
    (run : Latched → State → RunResult) : onCommand c run s = recordError .cmdWhileBusy s := by
  rw [onCommand, if_pos h]

theorem onCommand_idle {s : State} (h : s.status.busy = false) (c : Option Instr)
    (run : Latched → State → RunResult) :
    onCommand c run s = finish (accept c s) (run (latch s) (accept c s)) := by
  rw [onCommand, if_neg (by simp [h])]

theorem exec_busy {s : State} (h : s.status.busy = true) (i : Instr) :
    exec i s = .next (recordError .cmdWhileBusy s) := by
  rw [exec_eq, onCommand_busy h]

theorem exec_idle {s : State} (h : s.status.busy = false) (i : Instr) :
    exec i s = .next (finish (accept (some i) s) (runOf i (latch s) (accept (some i) s))) := by
  rw [exec_eq, onCommand_idle h]

/-- A command that ends in error leaves everything but STATUS and the engine (R207). -/
theorem finish_error (s : State) (e : ErrorKind) : finish s (.error e) = complete (some e) s := rfl

theorem finish_ok (s s' : State) : finish s (.ok s') = complete none s' := rfl

@[simp] theorem finish_busy (s : State) (r : RunResult) : (finish s r).status.busy = false := by
  cases r <;> simp [finish]

@[simp] theorem finish_engine (s : State) (r : RunResult) : (finish s r).engine = .idle := by
  cases r <;> rfl

@[simp] theorem finish_done (s : State) (r : RunResult) : (finish s r).status.done = true := by
  cases r <;> simp [finish]

/-! ### The decision of each `Run` -/

theorem bitPosition_some {pos : BitVec 4} (h : pos.toNat ≤ 7) :
    bitPosition pos = some (pos.extractLsb' 0 3) := if_pos h

theorem bitPosition_none {pos : BitVec 4} (h : 8 ≤ pos.toNat) : bitPosition pos = none :=
  if_neg (by omega)

/-- A format B command ends in BIT_POS_RANGE or writes RESULT only. -/
theorem runBitOp_cases (op : BitOp) (byte : Byte) (pos : BitVec 4) (s : State) :
    (8 ≤ pos.toNat ∧ runBitOp op byte pos s = .error .bitPosRange) ∨
    (pos.toNat ≤ 7 ∧ runBitOp op byte pos s
      = .ok { s with result := (bitModule op byte (pos.extractLsb' 0 3)).setWidth 32 }) := by
  by_cases h : pos.toNat ≤ 7
  · exact .inr ⟨h, by rw [runBitOp, bitPosition_some h]⟩
  · exact .inl ⟨by omega, by rw [runBitOp, bitPosition_none (by omega)]⟩

theorem packInRange_iff {P : Config.Params} {l : Latched} : packInRange P l = true ↔
    l.pkSrc.toNat + l.pkLen.toNat ≤ memBytes P ∧ l.pkDst.toNat + l.pkLen.toNat ≤ memBytes P := by
  simp [packInRange]

theorem encInRange_iff {P : Config.Params} {l : Latched} : encInRange P l = true ↔
    l.enLen.toNat ≠ 0 ∧ l.enSrc.toNat + l.enLen.toNat ≤ memBytes P ∧
      l.enDst.toNat + elemBytes P * l.enLen.toNat ≤ memBytes P := by
  simp only [encInRange, Bool.and_eq_true, decide_eq_true_eq, and_assoc]

/-- PACK ends in INDEX_OUT_OF_BOUNDS or writes memory, RESULT and its two flags. -/
theorem runPack_cases (l : Latched) (s : State) :
    (packInRange s.params l = false ∧ runPack l s = .error .indexOutOfBounds) ∨
    (packInRange s.params l = true ∧ runPack l s = .ok (packFinish l
      (packAll s.params l s.mem).nonbin { s with mem := (packAll s.params l s.mem).mem })) := by
  cases h : packInRange s.params l
  · exact .inl ⟨rfl, by simp [runPack, h]⟩
  · exact .inr ⟨rfl, by simp [runPack, h]⟩

/-- ENCODE ends in INDEX_OUT_OF_BOUNDS or writes memory, its four result registers and its flags. -/
theorem runEncode_cases (l : Latched) (s : State) :
    (encInRange s.params l = false ∧ runEncode l s = .error .indexOutOfBounds) ∨
    (encInRange s.params l = true ∧ runEncode l s = .ok (encFinish
      (encAll s.params l s.mem).bcnt (encAll s.params l s.mem).k (encAll s.params l s.mem).run
      (encAll s.params l s.mem).prev (encAll s.params l s.mem).ovf
      { s with mem := (encAll s.params l s.mem).mem })) := by
  cases h : encInRange s.params l
  · exact .inl ⟨rfl, by simp [runEncode, h]⟩
  · exact .inr ⟨rfl, by simp [runEncode, h]⟩

theorem elemBytes_pos (P : Config.Params) : 1 ≤ elemBytes P := by
  unfold elemBytes
  split <;> omega

end Sys2Proof.Machine
end

