-- ==== Sys2Proof/Laws/Memory.lean ====
section
/-! SUPPORT. The buffer memory: a read after a write to the same address gives the value written, a
write leaves every other address alone, and every memory operation keeps the canonical form and the
bounds. The reading laws hold of every list, canonical or not. -/

namespace Sys2Proof.Machine

/-! ### Reading after one write -/

theorem readByte_eraseCell_same (m : Memory) (a : Nat) :
    readByte (eraseCell m a) a = unlisted a := by
  induction m with
  | nil => rfl
  | cons c m ih =>
    by_cases h : c.1 = a
    · simpa [eraseCell, h] using ih
    · simpa [eraseCell, readByte, h] using ih

theorem readByte_eraseCell_other (m : Memory) {a b : Nat} (hb : b ≠ a) :
    readByte (eraseCell m a) b = readByte m b := by
  induction m with
  | nil => rfl
  | cons c m ih =>
    by_cases h : c.1 = a
    · have hcb : c.1 ≠ b := fun e => hb (e.symm.trans h)
      rw [readByte, if_neg hcb, ← ih]
      simp [eraseCell, h]
    · rw [readByte, ← ih, eraseCell, List.filter_cons_of_pos (by simpa using h), readByte]
      rfl

theorem readByte_insertCell_other (m : Memory) {a b : Nat} (v : Byte) (hb : b ≠ a) :
    readByte (insertCell m a v) b = readByte m b := by
  induction m with
  | nil => simp [insertCell, readByte, Ne.symm hb]
  | cons c m ih =>
    by_cases h : a < c.1
    · simp [insertCell, readByte, h, Ne.symm hb]
    · simp [insertCell, readByte, h, ih]

theorem readByte_insertCell_same (m : Memory) (a : Nat) (v : Byte) (hm : ∀ c ∈ m, c.1 ≠ a) :
    readByte (insertCell m a v) a = v := by
  induction m with
  | nil => simp [insertCell, readByte]
  | cons c m ih =>
    have hc := hm c (by simp)
    have ih := ih (fun d hd => hm d (by simp [hd]))
    by_cases h : a < c.1
    · simp [insertCell, readByte, h]
    · simp [insertCell, readByte, h, hc, ih]

theorem eraseCell_ne (m : Memory) (a : Nat) : ∀ c ∈ eraseCell m a, c.1 ≠ a := by
  simp [eraseCell]

@[simp] theorem readByte_writeByte_same (m : Memory) (a : Nat) (v : Byte) :
    readByte (writeByte m a v) a = v := by
  by_cases h : v = unlisted a
  · simp [writeByte, h, readByte_eraseCell_same]
  · simp [writeByte, h, readByte_insertCell_same _ _ _ (eraseCell_ne m a)]

theorem readByte_writeByte_other (m : Memory) {a b : Nat} (v : Byte) (hb : b ≠ a) :
    readByte (writeByte m a v) b = readByte m b := by
  by_cases h : v = unlisted a
  · simp [writeByte, h, readByte_eraseCell_other m hb]
  · simp [writeByte, h, readByte_insertCell_other _ v hb, readByte_eraseCell_other m hb]

theorem readByte_writeByte (m : Memory) (a b : Nat) (v : Byte) :
    readByte (writeByte m a v) b = if b = a then v else readByte m b := by
  by_cases h : b = a
  · subst h; simp
  · simp [h, readByte_writeByte_other m v h]

/-! ### The canonical form and the bounds -/

theorem mem_insertCell {m : Memory} {a : Nat} {v : Byte} {d : Host.Cell}
    (hd : d ∈ insertCell m a v) : d = (a, v) ∨ d ∈ m := by
  induction m with
  | nil => simpa [insertCell] using hd
  | cons c m ih =>
    by_cases h : a < c.1
    · simpa [insertCell, h] using hd
    · simp only [insertCell, h, if_false, List.mem_cons] at hd ⊢
      rcases hd with rfl | hd
      · exact .inr (.inl rfl)
      · exact (ih hd).imp_right .inr

theorem eraseCell_wf {m : Memory} (a : Nat) (h : Memory.wf m) : Memory.wf (eraseCell m a) :=
  ⟨h.1.sublist List.filter_sublist, fun c hc => h.2 c (List.mem_of_mem_filter hc)⟩

theorem insertCell_rising {m : Memory} {a : Nat} {v : Byte} (hm : ∀ c ∈ m, c.1 ≠ a)
    (h : m.Pairwise (fun c d => c.1 < d.1)) :
    (insertCell m a v).Pairwise (fun c d => c.1 < d.1) := by
  induction m with
  | nil => simp [insertCell]
  | cons c m ih =>
    rw [List.pairwise_cons] at h
    by_cases hac : a < c.1
    · simp only [insertCell, hac, if_true, List.pairwise_cons, List.mem_cons]
      refine ⟨?_, h.1, h.2⟩
      rintro d (rfl | hd)
      · exact hac
      · exact hac.trans (h.1 d hd)
    · simp only [insertCell, hac, if_false, List.pairwise_cons]
      refine ⟨fun d hd => ?_, ih (fun d hd => hm d (by simp [hd])) h.2⟩
      rcases mem_insertCell hd with rfl | hd
      · exact lt_of_le_of_ne (not_lt.mp hac) (hm c (by simp))
      · exact h.1 d hd

/-- A byte write keeps the canonical form. -/
theorem writeByte_wf {m : Memory} (a : Nat) (v : Byte) (h : Memory.wf m) :
    Memory.wf (writeByte m a v) := by
  have he := eraseCell_wf a h
  by_cases hv : v = unlisted a
  · simpa only [writeByte, hv, if_true] using he
  · simp only [writeByte, hv, if_false]
    refine ⟨insertCell_rising (eraseCell_ne m a) he.1, fun c hc => ?_⟩
    rcases mem_insertCell hc with rfl | hc
    · exact hv
    · exact he.2 c hc

/-- A byte write below `n` keeps memory below `n`. -/
theorem writeByte_within {m : Memory} {n a : Nat} (v : Byte) (ha : a < n)
    (h : Memory.within m n) : Memory.within (writeByte m a v) n := by
  intro c hc
  by_cases hv : v = unlisted a
  · simp only [writeByte, hv, if_true] at hc
    exact h c (List.mem_of_mem_filter hc)
  · simp only [writeByte, hv, if_false] at hc
    rcases mem_insertCell hc with rfl | hc
    · exact ha
    · exact h c (List.mem_of_mem_filter hc)

/-! ### Several writes -/

@[simp] theorem writeCells_nil (m : Memory) : writeCells m [] = m := rfl

@[simp] theorem writeCells_cons (m : Memory) (c : Host.Cell) (cs : List Host.Cell) :
    writeCells m (c :: cs) = writeCells (writeByte m c.1 c.2) cs := rfl

theorem writeCells_append (m : Memory) (cs ds : List Host.Cell) :
    writeCells m (cs ++ ds) = writeCells (writeCells m cs) ds := List.foldl_append

theorem writeCells_wf {m : Memory} (cs : List Host.Cell) (h : Memory.wf m) :
    Memory.wf (writeCells m cs) := by
  induction cs generalizing m with
  | nil => exact h
  | cons c cs ih => exact ih (writeByte_wf _ _ h)

theorem writeCells_within {m : Memory} {n : Nat} {cs : List Host.Cell}
    (hcs : ∀ c ∈ cs, c.1 < n) (h : Memory.within m n) : Memory.within (writeCells m cs) n := by
  induction cs generalizing m with
  | nil => exact h
  | cons c cs ih =>
    exact ih (fun d hd => hcs d (by simp [hd])) (writeByte_within _ (hcs c (by simp)) h)

/-- Writes away from an address leave its byte alone. -/
theorem readByte_writeCells_other {m : Memory} {b : Nat} {cs : List Host.Cell}
    (h : ∀ c ∈ cs, b ≠ c.1) : readByte (writeCells m cs) b = readByte m b := by
  induction cs generalizing m with
  | nil => rfl
  | cons c cs ih =>
    rw [writeCells_cons, ih (fun d hd => h d (by simp [hd])),
      readByte_writeByte_other _ _ (h c (by simp))]

/-- Where the bytes of an element lie: `addr .. addr + n - 1`. -/
theorem elemCells_addr {a n v : Nat} {c : Host.Cell} (h : c ∈ elemCells a n v) :
    a ≤ c.1 ∧ c.1 < a + n := by
  induction n generalizing a v with
  | zero => simp [elemCells] at h
  | succ n ih =>
    simp only [elemCells, List.mem_cons] at h
    rcases h with rfl | h
    · exact ⟨le_refl a, by simp⟩
    · have := ih h
      omega

@[simp] theorem elemCells_length (a n v : Nat) : (elemCells a n v).length = n := by
  induction n generalizing a v with
  | zero => rfl
  | succ n ih => simp [elemCells, ih]

theorem memWrite_wf {m : Memory} (a n v : Nat) (h : Memory.wf m) : Memory.wf (memWrite m a n v) :=
  writeCells_wf _ h

theorem memWrite_within {m : Memory} {k a n v : Nat} (ha : a + n ≤ k) (h : Memory.within m k) :
    Memory.within (memWrite m a n v) k :=
  writeCells_within (fun _ hc => by have := elemCells_addr hc; omega) h

theorem readByte_memWrite_other {m : Memory} {a n v b : Nat} (hb : b < a ∨ a + n ≤ b) :
    readByte (memWrite m a n v) b = readByte m b :=
  readByte_writeCells_other (fun _ hc => by have := elemCells_addr hc; omega)

/-- Reset memory is canonical. -/
theorem reset_mem_wf : Memory.wf State.reset.mem := ⟨List.Pairwise.nil, by simp [State.reset, State.powerOn]⟩

end Sys2Proof.Machine
end

