-- ==== Sys2Proof/Laws/Encoder.lean ====
section
/-! SUPPORT. The encoder's scan: what an emission writes, and the bounds that keep it inside the
destination range (spec/43_rle_encoder.md R169). -/

namespace Sys2Proof.Machine

open Sys2Proof.Config

theorem word_succ {w : Word} {n : Nat} (h : w.toNat ≤ n) (hn : n + 1 < 2 ^ 32) :
    (w + 1).toNat = w.toNat + 1 := by
  rw [BitVec.toNat_add]
  simp only [BitVec.ofNat_eq_ofNat, BitVec.toNat_ofNat]
  omega

theorem elemAddr_succ (P : Params) (l : Latched) (k : Nat) :
    elemAddr P l (k + 1) = elemAddr P l k + elemBytes P := by
  simp only [elemAddr, Nat.mul_add, Nat.mul_one, Nat.add_assoc]

theorem elemAddr_mono (P : Params) (l : Latched) {j k : Nat} (h : j ≤ k) :
    elemAddr P l j ≤ elemAddr P l k :=
  Nat.add_le_add_left (Nat.mul_le_mul_left _ h) _

/-- Scanning an index extends the run or emits it (R164). -/
theorem encIndex_cases (P : Params) (l : Latched) (i : Nat) (st : EncLoop) :
    (readByte st.mem (packedAddr l i) = st.prev ∧ encIndex P l i st
      = { st with bcnt := countBoundary i st.bcnt, run := st.run + 1 }) ∨
    (readByte st.mem (packedAddr l i) ≠ st.prev ∧ encIndex P l i st
      = { emit P l st.run st with
          bcnt := countBoundary i st.bcnt, run := 0
          prev := readByte st.mem (packedAddr l i) }) := by
  by_cases h : readByte st.mem (packedAddr l i) = st.prev
  · exact .inl ⟨h, by simp [encIndex, h]⟩
  · exact .inr ⟨h, by simp [encIndex, h, emit]⟩

/-- The counters stay bounded by the index (R169). -/
theorem encIndex_bounds (P : Params) (l : Latched) {i : Nat} {st : EncLoop}
    (hi : i + 1 < 2 ^ 32) (hk : st.k.toNat ≤ i) (hr : st.run.toNat ≤ i) :
    (encIndex P l i st).k.toNat ≤ i + 1 ∧ (encIndex P l i st).run.toNat ≤ i + 1 ∧
      st.k.toNat ≤ (encIndex P l i st).k.toNat := by
  rcases encIndex_cases P l i st with ⟨-, h⟩ | ⟨-, h⟩
  · rw [h]
    have := word_succ hr hi
    exact ⟨Nat.le_succ_of_le hk, by simp only; omega, le_refl _⟩
  · rw [h]
    have := word_succ hk hi
    exact ⟨by simp only [emit]; omega, by simp, by simp only [emit]; omega⟩

/-- Scanning an index writes the bytes of the elements it emits, and no others. -/
theorem encIndex_writes (P : Params) (l : Latched) {i : Nat} {st : EncLoop}
    (hi : i + 1 < 2 ^ 32) (hk : st.k.toNat ≤ i) :
    ∃ cs : List Host.Cell,
      (∀ c ∈ cs, elemAddr P l st.k.toNat ≤ c.1 ∧ c.1 < elemAddr P l (encIndex P l i st).k.toNat) ∧
      (encIndex P l i st).mem = writeCells st.mem cs := by
  rcases encIndex_cases P l i st with ⟨-, h⟩ | ⟨-, h⟩
  · exact ⟨[], by simp, by rw [h]; rfl⟩
  · refine ⟨elemCells (elemAddr P l st.k.toNat) (elemBytes P)
      (st.run.toNat % 2 ^ (8 * elemBytes P)), fun c hc => ?_, by rw [h]; rfl⟩
    have hs := word_succ hk hi
    have := elemCells_addr hc
    rw [h]
    simp only [emit, hs, elemAddr_succ]
    omega

/-- The same of a stretch of indices. -/
theorem encScan_bounds (P : Params) (l : Latched) {n i : Nat} {st : EncLoop}
    (hi : i + n < 2 ^ 32) (hk : st.k.toNat ≤ i) (hr : st.run.toNat ≤ i) :
    (encScan P l n i st).k.toNat ≤ i + n ∧ (encScan P l n i st).run.toNat ≤ i + n ∧
      st.k.toNat ≤ (encScan P l n i st).k.toNat := by
  induction n generalizing i st with
  | zero => exact ⟨hk, hr, le_refl _⟩
  | succ n ih =>
    obtain ⟨h1, h2, h3⟩ := encIndex_bounds P l (by omega) hk hr
    have := ih (by omega) h1 h2
    simp only [encScan]
    omega

theorem encScan_writes (P : Params) (l : Latched) {n i : Nat} {st : EncLoop}
    (hi : i + n < 2 ^ 32) (hk : st.k.toNat ≤ i) (hr : st.run.toNat ≤ i) :
    ∃ cs : List Host.Cell,
      (∀ c ∈ cs, elemAddr P l st.k.toNat ≤ c.1 ∧ c.1 < elemAddr P l (encScan P l n i st).k.toNat) ∧
      (encScan P l n i st).mem = writeCells st.mem cs := by
  induction n generalizing i st with
  | zero => exact ⟨[], by simp, rfl⟩
  | succ n ih =>
    obtain ⟨h1, h2, h3⟩ := encIndex_bounds P l (by omega) hk hr
    obtain ⟨cs, hcs, hm⟩ := encIndex_writes P l (i := i) (st := st) (by omega) hk
    obtain ⟨ds, hds, hm'⟩ := ih (i := i + 1) (by omega) h1 h2
    have h4 := encScan_bounds P l (n := n) (i := i + 1) (by omega) h1 h2
    refine ⟨cs ++ ds, fun c hc => ?_, by rw [encScan, hm', hm, writeCells_append]⟩
    rcases List.mem_append.mp hc with h | h
    · exact ⟨(hcs c h).1, (hcs c h).2.trans_le (elemAddr_mono P l h4.2.2)⟩
    · exact ⟨(elemAddr_mono P l h3).trans (hds c h).1, (hds c h).2⟩

/-! ### The pre-step -/

/-- The cursor is 0 only under SEED_FIRST with v0 ≠ 0 (R163). -/
theorem startCursor_cases (P : Params) (v0 : Byte) :
    (v0 = 0x00#8 ∧ startCursor P v0 = 1) ∨
    (v0 ≠ 0x00#8 ∧ P.nzStart = .seedFirst ∧ startCursor P v0 = 0) ∨
    (v0 ≠ 0x00#8 ∧ P.nzStart = .prescan ∧ startCursor P v0 = 1) := by
  unfold startCursor
  by_cases h : v0 = 0x00#8
  · exact .inl ⟨h, if_pos h⟩
  · cases hp : P.nzStart
    · exact .inr (.inl ⟨h, rfl, by simp [h]⟩)
    · exact .inr (.inr ⟨h, rfl, by simp [h]⟩)

/-- The pre-step emits the leading marker or nothing, and seeds the previous value with v0 (R163). -/
theorem encPre_cases (P : Params) (l : Latched) (m : Memory) :
    (readByte m (packedAddr l 0) = 0x00#8 ∧ encPre P l m
      = { mem := memWrite m (elemAddr P l 0) (elemBytes P) 0, k := 1, run := 0, bcnt := 0
          prev := 0x00#8, ovf := false }) ∨
    (readByte m (packedAddr l 0) ≠ 0x00#8 ∧ encPre P l m
      = { mem := m, k := 0, run := 0, bcnt := 0, prev := readByte m (packedAddr l 0)
          ovf := false }) := by
  by_cases h : readByte m (packedAddr l 0) = 0x00#8
  · refine .inl ⟨h, ?_⟩
    simp [encPre, h, emit, overflows]
  · exact .inr ⟨h, by simp [encPre, h]⟩

/-- What ENCODE's loops leave, within the bounds of R169: at most N elements, a run of at most N, and
byte writes inside D .. D + E*k - 1 (R61). -/
theorem encAll_bounds (P : Params) (l : Latched) (m : Memory) (hn : l.enLen.toNat ≠ 0) :
    (encAll P l m).k.toNat ≤ l.enLen.toNat ∧ (encAll P l m).run.toNat ≤ l.enLen.toNat ∧
    ∃ cs : List Host.Cell,
      (∀ c ∈ cs, l.enDst.toNat ≤ c.1 ∧ c.1 < elemAddr P l (encAll P l m).k.toNat) ∧
      (encAll P l m).mem = writeCells m cs := by
  have hl := l.enLen.isLt
  have h0 : elemAddr P l 0 = l.enDst.toNat := by simp [elemAddr]
  rcases encPre_cases P l m with ⟨hv, hp⟩ | ⟨hv, hp⟩
  · have hc : startCursor P (readByte m (packedAddr l 0)) = 1 := by
      rcases startCursor_cases P (readByte m (packedAddr l 0)) with ⟨-, h⟩ | ⟨h, -⟩ | ⟨h, -⟩
      · exact h
      · exact absurd hv h
      · exact absurd hv h
    have hk : (encPre P l m).k.toNat ≤ 1 := by rw [hp]; simp
    have hr : (encPre P l m).run.toNat ≤ 1 := by rw [hp]; simp
    have hb := encScan_bounds P l (n := l.enLen.toNat - 1) (i := 1) (by omega) hk hr
    obtain ⟨cs, hcs, hm⟩ := encScan_writes P l (n := l.enLen.toNat - 1) (i := 1) (by omega) hk hr
    have he : encAll P l m = encScan P l (l.enLen.toNat - 1) 1 (encPre P l m) := by
      rw [encAll, hc]; rfl
    rw [he]
    refine ⟨by omega, by omega, elemCells (elemAddr P l 0) (elemBytes P) 0 ++ cs, fun c h => ?_, ?_⟩
    · rcases List.mem_append.mp h with h | h
      · have h1 := elemCells_addr h
        have h2 := elemAddr_mono P l (j := 1)
          (k := (encScan P l (l.enLen.toNat - 1) 1 (encPre P l m)).k.toNat)
          (by have := hb.2.2; rw [hp] at this ⊢; exact this)
        have h3 := elemAddr_succ P l 0
        rw [Nat.zero_add] at h3
        omega
      · have h1 := hcs c h
        have h2 := elemAddr_mono P l (Nat.zero_le (encPre P l m).k.toNat)
        omega
    · rw [hm, writeCells_append, hp]
      rfl
  · generalize hcu : startCursor P (readByte m (packedAddr l 0)) = cu
    have hcu1 : cu.toNat ≤ 1 := by
      rcases startCursor_cases P (readByte m (packedAddr l 0)) with ⟨-, h⟩ | ⟨-, -, h⟩ | ⟨-, -, h⟩ <;>
        · rw [← hcu, h]; decide
    have he : encAll P l m = encScan P l (l.enLen.toNat - cu.toNat) cu.toNat (encPre P l m) := by
      rw [encAll, hcu]
    have hk : (encPre P l m).k.toNat ≤ cu.toNat := by rw [hp]; simp
    have hr : (encPre P l m).run.toNat ≤ cu.toNat := by rw [hp]; simp
    have hb := encScan_bounds P l (n := l.enLen.toNat - cu.toNat) (by omega) hk hr
    obtain ⟨cs, hcs, hm⟩ := encScan_writes P l (n := l.enLen.toNat - cu.toNat) (by omega) hk hr
    rw [he]
    refine ⟨by omega, by omega, cs, fun c h => ?_, by rw [hm, hp]⟩
    have h1 := hcs c h
    rw [hp] at h1
    simp only [BitVec.toNat_zero, BitVec.ofNat_eq_ofNat, h0] at h1
    rw [hp]
    exact h1

end Sys2Proof.Machine
end

