-- ==== Sys2Proof/Laws/Packer.lean ====
section
/-! SUPPORT. The packer's loop: every element writes at most its own slot. -/

namespace Sys2Proof.Machine

open Sys2Proof.Config

/-- One element writes its slot once or not at all. -/
theorem packElem_writes (P : Params) (l : Latched) (idx : Nat) (pos : BitVec 3) (st : PackLoop) :
    ∃ cs : List Host.Cell, cs.length ≤ 1 ∧ (∀ c ∈ cs, c.1 = slotAddr l idx) ∧
      (packElem P l idx pos st).mem = writeCells st.mem cs := by
  have one : ∀ b : Byte, ∃ cs : List Host.Cell, cs.length ≤ 1 ∧ (∀ c ∈ cs, c.1 = slotAddr l idx) ∧
      writeByte st.mem (slotAddr l idx) b = writeCells st.mem cs :=
    fun b => ⟨[(slotAddr l idx, b)], by simp, by simp, rfl⟩
  unfold packElem packOther packResult
  dsimp only
  split
  · exact one _
  · split
    · exact one _
    · split
      · exact one _
      · exact ⟨[], by simp, by simp, rfl⟩

/-- An element leaves every byte but its slot's alone. -/
theorem packElem_other (P : Params) (l : Latched) (idx : Nat) (pos : BitVec 3) (st : PackLoop)
    {a : Nat} (ha : a ≠ slotAddr l idx) :
    readByte (packElem P l idx pos st).mem a = readByte st.mem a := by
  obtain ⟨cs, -, hcs, hm⟩ := packElem_writes P l idx pos st
  rw [hm, readByte_writeCells_other (fun c hc => by rw [hcs c hc]; exact ha)]

/-- The element marks a symbol that is neither '1' nor '0', and nothing else (R137). -/
theorem packElem_nonbin (P : Params) (l : Latched) (idx : Nat) (pos : BitVec 3) (st : PackLoop) :
    (packElem P l idx pos st).nonbin = (st.nonbin ||
      decide (readByte st.mem (symbolAddr l idx) ≠ symbolOne ∧
        readByte st.mem (symbolAddr l idx) ≠ symbolZero)) := by
  unfold packElem packOther packResult
  dsimp only
  split
  · simp_all
  · split
    · simp_all
    · split <;> simp_all

/-- The element's marks and bytes do not depend on the mark before it. -/
theorem packElem_mem_nonbin (P : Params) (l : Latched) (idx : Nat) (pos : BitVec 3) (st : PackLoop)
    (nb : Bool) :
    (packElem P l idx pos { st with nonbin := nb }).mem = (packElem P l idx pos st).mem := by
  unfold packElem packOther packResult
  dsimp only
  split
  · rfl
  · split
    · rfl
    · split <;> rfl

/-! ### The nested loops as one loop over the absolute index -/

/-- The loop entering element `n`: the accumulator is 0x00 at the start of a group. -/
def enterElem (n : Nat) (st : PackLoop) : PackLoop :=
  { st with acc := if n % 8 = 0 then 0x00#8 else st.acc }

/-- `n` elements from absolute index `idx` on. -/
def packFrom (P : Params) (l : Latched) : Nat → Nat → PackLoop → PackLoop
  | 0, _, st => st
  | n + 1, idx, st =>
    packFrom P l n (idx + 1) (packElem P l idx (BitVec.ofNat 3 (idx % 8)) (enterElem idx st))

theorem packFrom_add (P : Params) (l : Latched) (n k idx : Nat) (st : PackLoop) :
    packFrom P l (n + k) idx st = packFrom P l k (idx + n) (packFrom P l n idx st) := by
  induction n generalizing idx st with
  | zero => simp [packFrom]
  | succ n ih => rw [Nat.succ_add, packFrom, ih, packFrom]; congr 1; omega

theorem packPositions_eq (P : Params) (l : Latched) (g n i : Nat) (st : PackLoop)
    (hi : 1 ≤ i) (hn : i + n ≤ 8) :
    packPositions P l g n i st = packFrom P l n (8 * g + i) st := by
  induction n generalizing i st with
  | zero => rfl
  | succ n ih =>
    have h8 : (8 * g + i) % 8 = i := by omega
    have he : enterElem (8 * g + i) st = st := by simp [enterElem, h8, show i ≠ 0 by omega]
    rw [packPositions, ih _ _ (by omega) (by omega), packFrom, he, h8]
    rfl

theorem packGroup_eq (P : Params) (l : Latched) (g : Nat) (st : PackLoop) :
    packGroup P l g st = packFrom P l 8 (8 * g) st := by
  have h8 : 8 * g % 8 = 0 := by omega
  have he : enterElem (8 * g) st = { st with acc := 0x00#8 } := by simp [enterElem, h8]
  have hs : packFrom P l 8 (8 * g) st = packFrom P l 7 (8 * g + 1)
      (packElem P l (8 * g) (BitVec.ofNat 3 (8 * g % 8)) (enterElem (8 * g) st)) := rfl
  rw [hs, h8, he, packGroup, packPositions, packPositions_eq _ _ _ _ _ _ (by omega) (by omega)]
  rfl

theorem packGroups_eq (P : Params) (l : Latched) (n g : Nat) (st : PackLoop) :
    packGroups P l n g st = packFrom P l (8 * n) (8 * g) st := by
  induction n generalizing g st with
  | zero => rfl
  | succ n ih =>
    rw [packGroups, packGroup_eq, ih, show 8 * (n + 1) = 8 + 8 * n by omega, packFrom_add]
    congr 1

/-- PACK's loop is one loop over the indices 0 .. 8G - 1 (R132). -/
theorem packAll_eq (P : Params) (l : Latched) (m : Memory) :
    packAll P l m
      = packFrom P l (8 * groupCount l) 0 { mem := m, acc := 0x00#8, nonbin := false } := by
  rw [packAll, packGroups_eq]

/-- The byte writes of a stretch of elements, in order, each to the slots of that stretch. -/
theorem packFrom_writes (P : Params) (l : Latched) (n idx : Nat) (st : PackLoop) :
    ∃ cs : List Host.Cell, (∀ c ∈ cs, slotAddr l idx ≤ c.1 ∧ c.1 < slotAddr l (idx + n)) ∧
      (packFrom P l n idx st).mem = writeCells st.mem cs := by
  induction n generalizing idx st with
  | zero => exact ⟨[], by simp, rfl⟩
  | succ n ih =>
    obtain ⟨cs, -, hcs, hm⟩ :=
      packElem_writes P l idx (BitVec.ofNat 3 (idx % 8)) (enterElem idx st)
    obtain ⟨ds, hds, hm'⟩ :=
      ih (idx + 1) (packElem P l idx (BitVec.ofNat 3 (idx % 8)) (enterElem idx st))
    refine ⟨cs ++ ds, fun c hc => ?_, ?_⟩
    · unfold slotAddr at *
      rcases List.mem_append.mp hc with h | h
      · have := hcs c h
        omega
      · have := hds c h
        omega
    · rw [packFrom, hm', hm, writeCells_append]
      rfl

/-- PACK writes bytes of D .. D + 8G - 1 only (R61). -/
theorem packAll_writes (P : Params) (l : Latched) (m : Memory) :
    ∃ cs : List Host.Cell,
      (∀ c ∈ cs, l.pkDst.toNat ≤ c.1 ∧ c.1 < l.pkDst.toNat + 8 * groupCount l) ∧
      (packAll P l m).mem = writeCells m cs := by
  obtain ⟨cs, hcs, hm⟩ := packFrom_writes P l (8 * groupCount l) 0
    { mem := m, acc := 0x00#8, nonbin := false }
  refine ⟨cs, fun c hc => ?_, by rw [packAll_eq, hm]⟩
  have := hcs c hc
  simp only [slotAddr] at this
  omega

theorem groupCount_le (l : Latched) : 8 * groupCount l ≤ l.pkLen.toNat := by
  unfold groupCount
  omega

end Sys2Proof.Machine
end

