-- ==== Sys2Proof/Laws/Engine.lean ====
section
/-! SUPPORT. What one turn of the engine can change, once and for all its states. -/

namespace Sys2Proof.Machine

/-- The fields no turn of the engine writes: the parameters, the operand registers, the host's
waiting actions and the last answer. -/
structure SameFrame (s t : State) : Prop where
  params : t.params = s.params
  pkSrc  : t.pkSrc = s.pkSrc
  pkDst  : t.pkDst = s.pkDst
  pkLen  : t.pkLen = s.pkLen
  enSrc  : t.enSrc = s.enSrc
  enDst  : t.enDst = s.enDst
  enLen  : t.enLen = s.enLen
  events : t.events = s.events
  reply  : t.reply = s.reply

theorem SameFrame.rfl' (s : State) : SameFrame s s := by constructor <;> rfl

theorem SameFrame.trans {s t u : State} (h : SameFrame s t) (k : SameFrame t u) : SameFrame s u := by
  constructor
  · exact k.params.trans h.params
  · exact k.pkSrc.trans h.pkSrc
  · exact k.pkDst.trans h.pkDst
  · exact k.pkLen.trans h.pkLen
  · exact k.enSrc.trans h.enSrc
  · exact k.enDst.trans h.enDst
  · exact k.enLen.trans h.enLen
  · exact k.events.trans h.events
  · exact k.reply.trans h.reply

/-- A `Run` writes memory, STATUS and result registers only. -/
theorem finish_runOf_frame (i : Instr) (l : Latched) (s : State) :
    SameFrame s (finish s (runOf i l s)) := by
  have bit : ∀ op byte pos, SameFrame s (finish s (runBitOp op byte pos s)) := fun op byte pos => by
    rcases runBitOp_cases op byte pos s with ⟨-, h⟩ | ⟨-, h⟩ <;> rw [h] <;> constructor <;> rfl
  cases i with
  | nop => constructor <;> rfl
  | getBit byte pos => exact bit _ _ _
  | setBit byte pos => exact bit _ _ _
  | clearBit byte pos => exact bit _ _ _
  | pack =>
    rcases runPack_cases l s with ⟨-, h⟩ | ⟨-, h⟩ <;> rw [runOf, h] <;> constructor <;> rfl
  | encode =>
    rcases runEncode_cases l s with ⟨-, h⟩ | ⟨-, h⟩ <;> rw [runOf, h] <;> constructor <;> rfl

/-- A turn of the engine keeps the frame. -/
theorem engineTurn_frame (s : State) : SameFrame s (engineTurn s) := by
  unfold engineTurn
  split
  · exact SameFrame.rfl' s
  · rename_i c l _
    cases c with
    | none => constructor <;> rfl
    | some i =>
      cases i with
      | pack => constructor <;> rfl
      | encode => constructor <;> rfl
      | nop => exact finish_runOf_frame .nop l s
      | getBit byte pos => exact finish_runOf_frame (.getBit byte pos) l s
      | setBit byte pos => exact finish_runOf_frame (.setBit byte pos) l s
      | clearBit byte pos => exact finish_runOf_frame (.clearBit byte pos) l s
  · unfold turnPkCheck
    split
    · split <;> constructor <;> rfl
    · constructor <;> rfl
  · unfold turnPkElem
    dsimp only
    split
    · split <;> constructor <;> rfl
    · constructor <;> rfl
  · constructor <;> rfl
  · constructor <;> rfl
  · unfold turnEnCheck
    split <;> constructor <;> rfl
  · constructor <;> rfl
  · unfold turnEnScan
    split <;> constructor <;> rfl
  · unfold turnEnFinish
    split <;> constructor <;> rfl
  · constructor <;> rfl

theorem engineTurns_frame (n : Nat) (s : State) : SameFrame s (engineTurns n s) := by
  induction n generalizing s with
  | zero => exact SameFrame.rfl' s
  | succ n ih => exact (engineTurn_frame s).trans (ih _)

theorem engineTurns_add (m n : Nat) (s : State) :
    engineTurns (m + n) s = engineTurns n (engineTurns m s) := by
  induction m generalizing s with
  | zero => simp [engineTurns]
  | succ m ih => rw [Nat.succ_add, engineTurns, ih, engineTurns]

/-- An idle engine does nothing. -/
theorem engineTurn_idle {s : State} (h : s.engine = .idle) : engineTurn s = s := by
  simp [engineTurn, h]

theorem engineTurns_idle {s : State} (h : s.engine = .idle) (n : Nat) : engineTurns n s = s := by
  induction n with
  | zero => rfl
  | succ n ih => rw [engineTurns, engineTurn_idle h, ih]

/-- A command and the turns of the engine keep the frame, whatever the word. -/
theorem exec_frame (i : Instr) (s : State) : ∃ t, exec i s = .next t ∧ SameFrame s t := by
  cases h : s.status.busy
  · refine ⟨_, exec_idle h i, ?_⟩
    exact SameFrame.trans (t := accept (some i) s) (by constructor <;> rfl)
      (finish_runOf_frame i _ _)
  · exact ⟨_, exec_busy h i, by constructor <;> rfl⟩

end Sys2Proof.Machine
end

