-- ==== Sys2Proof/Laws/PerInstr.lean ====
section
/-! SUPPORT. One lemma per command, about the command as syntax: the number its word is, and that the
written command is well formed (spec/30_encoding.md R72, R73, R80). -/

namespace Sys2Proof

/-- The word of a command as a number: OP in bits [31:28], POS in [11:8], BYTE in [7:0], zero
elsewhere (R71 to R74). -/
def wordNumber : Instr → Nat
  | .nop => 0x00000000
  | .getBit byte pos => 0x10000000 + 256 * pos.toNat + byte.toNat
  | .setBit byte pos => 0x20000000 + 256 * pos.toNat + byte.toNat
  | .clearBit byte pos => 0x30000000 + 256 * pos.toNat + byte.toNat
  | .pack => 0x40000000
  | .encode => 0x50000000

/-- A format B word as a number. -/
theorem encodeB_toNat (op : BitVec 4) (byte : Byte) (pos : BitVec 4) :
    (encodeB op byte pos).toNat = 2 ^ 28 * op.toNat + 256 * pos.toNat + byte.toNat := by
  have hb := byte.isLt
  have hp := pos.isLt
  rw [encodeB, BitVec.toNat_append, BitVec.toNat_append, BitVec.toNat_append,
    ← Nat.shiftLeft_add_eq_or_of_lt hb, ← Nat.shiftLeft_add_eq_or_of_lt hp]
  simp only [BitVec.toNat_zero, Nat.or_zero, Nat.shiftLeft_eq]
  omega

/-- A format B command with operands of the field widths is well formed (R80). -/
theorem operands_in_range (byte : Byte) (pos : BitVec 4) :
    (decide (byte.toNat < 256) && decide (pos.toNat < 16)) = true := by
  have hb := byte.isLt
  have hp := pos.isLt
  simp only [Bool.and_eq_true, decide_eq_true_eq]
  omega

namespace Laws

/-- The command's word is the number its operands give, and the command is well formed as written. -/
def EncodedWord.Statement (i : Instr) : Prop :=
  (Sys2Proof.encode i).toNat = wordNumber i ∧ i.raw.wellFormed = true

theorem EncodedWord.nop : EncodedWord.Statement .nop := ⟨rfl, rfl⟩

theorem EncodedWord.getBit (byte : Byte) (pos : BitVec 4) :
    EncodedWord.Statement (.getBit byte pos) :=
  ⟨encodeB_toNat 0x1#4 byte pos, operands_in_range byte pos⟩

theorem EncodedWord.setBit (byte : Byte) (pos : BitVec 4) :
    EncodedWord.Statement (.setBit byte pos) :=
  ⟨encodeB_toNat 0x2#4 byte pos, operands_in_range byte pos⟩

theorem EncodedWord.clearBit (byte : Byte) (pos : BitVec 4) :
    EncodedWord.Statement (.clearBit byte pos) :=
  ⟨encodeB_toNat 0x3#4 byte pos, operands_in_range byte pos⟩

theorem EncodedWord.pack : EncodedWord.Statement .pack := ⟨rfl, rfl⟩

theorem EncodedWord.encode : EncodedWord.Statement .encode := ⟨rfl, rfl⟩

end Laws

end Sys2Proof
end

