-- ==== Sys2Proof/Tests/Slice0.lean ====
section
/-! SUPPORT. Small tests with expected values from spec/95_test_vectors.md and the worked examples of
the rules, and for every obligation with hypotheses a witness that meets them. -/

namespace Sys2Proof.Tests

open Sys2Proof Sys2Proof.Machine

/-! ### Helpers -/

/-- The state of a `next` outcome. -/
def after : Host.Outcome State Fault Refusal → Option State
  | .next t => some t
  | _ => none

/-- The reason of a refused outcome. -/
def refusal : Host.Outcome State Fault Refusal → Option Refusal
  | .refused r => some r
  | _ => none

/-- Canonical memory holding some bytes from an address on. -/
def bytesAt : Nat → List Byte → Memory
  | _, [] => []
  | a, b :: bs => if b = unlisted a then bytesAt (a + 1) bs else (a, b) :: bytesAt (a + 1) bs

/-- The bytes read at `n` addresses from one on. -/
def readsAt (m : Memory) (a : Nat) : Nat → List Byte
  | 0 => []
  | n + 1 => readByte m a :: readsAt m (a + 1) n

/-- Reset with PACK's operands and a memory. -/
def packState (P : Config.Params) (m : Memory) (src dst len : Word) : State :=
  { State.powerOn P m with pkSrc := src, pkDst := dst, pkLen := len }

/-- Reset with ENCODE's operands and a memory. -/
def encState (P : Config.Params) (m : Memory) (src dst len : Word) : State :=
  { State.powerOn P m with enSrc := src, enDst := dst, enLen := len }

/-- Reset with a STATUS. -/
def withStatus (st : Status) : State := { State.reset with status := st }

/-- STATUS = 0x00000F36 of vectors 4.1 to 4.7. -/
def fullStatus : Status where
  busy := false
  done := true
  error := true
  errcode := some .indexOutOfBounds
  incompleteGroupDropped := true
  trailingRunDiscarded := true
  nonbinarySymbol := true
  runOverflow := true

/-- RESULT and STATUS after an outcome. -/
def resultStatus (o : Host.Outcome State Fault Refusal) : Option (Word × Word) :=
  (after o).map (fun t => (t.result, statusWord t.status))

/-! ### Decoding: words written out bit by bit from R72, R73 -/

theorem test_decode_nop : decode 0b00000000000000000000000000000000#32 = .ok .nop := by rfl

theorem test_decode_get_bit :
    decode 0b00010000000000000000001010100101#32 = .ok (.getBit 0xA5#8 2#4) := by rfl

theorem test_decode_set_bit :
    decode 0b00100000000000000000100000010000#32 = .ok (.setBit 0x10#8 8#4) := by rfl

theorem test_decode_clear_bit :
    decode 0b00110000000000000000011111111111#32 = .ok (.clearBit 0xFF#8 7#4) := by rfl

theorem test_decode_pack : decode 0b01000000000000000000000000000000#32 = .ok .pack := by rfl

theorem test_decode_encode : decode 0b01010000000000000000000000000000#32 = .ok .encode := by rfl

/-- Vectors 2.24, 3.4 to 3.6 and R83: reserved bits at both ends of each reserved field. -/
theorem test_decode_illegal :
    [0x2FF00100#32, 0x00000001#32, 0x40000001#32, 0x58000000#32, 0x10001000#32, 0x38000000#32].all
      (fun w => decide (verdict w = none)) = true := by decide

/-- Vectors 3.2, 3.3: the reserved opcodes at both ends. -/
theorem test_decode_reserved :
    decode 0x60000000#32 = .error .reservedOpcode ∧ decode 0xF0000000#32 = .error .reservedOpcode :=
  ⟨rfl, rfl⟩

/-! ### Well-formedness: an ill-formed command line for each check, refused -/

theorem test_wf_get_bit_byte : RawCommand.wellFormed ⟨.getBit, [256, 0]⟩ = false := by decide

theorem test_wf_get_bit_pos : RawCommand.wellFormed ⟨.getBit, [255, 16]⟩ = false := by decide

theorem test_wf_set_bit_byte : RawCommand.wellFormed ⟨.setBit, [256, 0]⟩ = false := by decide

theorem test_wf_set_bit_pos : RawCommand.wellFormed ⟨.setBit, [0, 16]⟩ = false := by decide

theorem test_wf_clear_bit_byte : RawCommand.wellFormed ⟨.clearBit, [1000, 7]⟩ = false := by decide

theorem test_wf_clear_bit_pos : RawCommand.wellFormed ⟨.clearBit, [0, 99]⟩ = false := by decide

/-- A missing or an extra operand is refused. -/
theorem test_wf_operand_count :
    [RawCommand.mk .nop [0], ⟨.getBit, [1]⟩, ⟨.setBit, [1, 2, 3]⟩, ⟨.clearBit, []⟩, ⟨.pack, [1]⟩,
      ⟨.encode, [0, 0]⟩].all (fun c => !c.wellFormed && decide (c.toInstr = none)) = true := by decide

/-- The largest operands R80 allows are well formed. -/
theorem test_wf_largest :
    RawCommand.toInstr ⟨.clearBit, [255, 15]⟩ = some (.clearBit 0xFF#8 15#4) := by decide

/-! ### The assembler -/

/-- R80's example, and R83's. -/
theorem test_assemble_get_bit : assemble "get_bit 0xA5, 2".toList = some 0x100002A5#32 := by decide

theorem test_assemble_clear_bit : assemble "clear_bit 255, 7".toList = some 0x300007FF#32 := by decide

theorem test_assemble_ill_formed : assemble "set_bit 256, 3".toList = none := by decide

/-- R82: the events of `pack S, D, N`. -/
theorem test_pack_statement :
    stmtEvents (.pack 0x100 0x200 10) = [.regWrite 0x0C 4 0x100, .regWrite 0x10 4 0x200,
      .regWrite 0x14 4 10, .regWrite 0x00 4 0x40000000, .poll] := by decide

/-- R82, and the bytes spec/95_test_vectors.md gives its `mws` programs: '1', '0', '2' are 31 30 32. -/
theorem test_mws_statement :
    stmtEvents (.mws 0x100 ['1', '0', '2'])
      = [.memWrite 0x100 0x31, .memWrite 0x101 0x30, .memWrite 0x102 0x32] := by decide

/-- P4 step 2, `cmd 0x60000000`, and R81 with R83's `get_bit 0xA5, 2`. -/
theorem test_cmd_statement :
    stmtEvents (.cmd (.word 0x60000000)) = [.regWrite 0x00 4 0x60000000] ∧
      stmtEvents (.cmd (.instr (.getBit 0xA5 2))) = [.regWrite 0x00 4 0x100002A5] := by decide

/-- R82: `bitop clear_bit 0xFF, 7`, with R83's word. -/
theorem test_bitop_statement :
    stmtEvents (.bitop .clr 0xFF 7) = [.regWrite 0x00 4 0x300007FF, .poll] := by decide

/-! ### One instruction, one step -/

/-- Vector 3.1. -/
theorem test_nop : resultStatus (step (State.reset.withFetchWord 32 0)) = some (0, 0x002) := by decide

/-- R100: NOP after an error leaves ERROR and ERRCODE. -/
theorem test_nop_after_error :
    resultStatus (exec .nop (withStatus fullStatus)) = some (0, 0xF36) := by decide

/-- Vector 2.3. -/
theorem test_get_bit :
    resultStatus (step (State.reset.withFetchWord 32 0x100002A5)) = some (1, 0x002) := by decide

/-- Vector 3.8. -/
theorem test_get_bit_after_error :
    resultStatus (exec (.getBit 0x80#8 7#4)
      (withStatus { Status.reset with done := true, error := true, errcode := some .indexOutOfBounds }))
      = some (1, 0x036) := by decide

/-- Vector 2.11. -/
theorem test_set_bit :
    resultStatus (step (State.reset.withFetchWord 32 0x200003A5)) = some (0xAD, 0x002) := by decide

/-- Vector 2.20. -/
theorem test_set_bit_out_of_range :
    resultStatus (exec (.setBit 0x10#8 8#4) { State.reset with result := 0x77 })
      = some (0x77, 0x026) := by decide

/-- Vector 2.16. -/
theorem test_clear_bit :
    resultStatus (step (State.reset.withFetchWord 32 0x300000A5)) = some (0xA4, 0x002) := by decide

/-- Vector 2.22. -/
theorem test_clear_bit_out_of_range :
    resultStatus (exec (.clearBit 0xFF#8 9#4) { State.reset with result := 0x77 })
      = some (0x77, 0x026) := by decide

/-- Vector 5.12: OPERAND with ACCUM, symbols "1020x011". -/
theorem test_pack_accum_operand :
    (after (exec .pack (packState { Config.defaults with packOperand := .accum, packOther := .operand }
        (bytesAt 0x100 [0x31, 0x30, 0x32, 0x30, 0x78, 0x30, 0x31, 0x31]) 0x100 0x200 8))).map
      (fun t => (readsAt t.mem 0x200 9, t.result, statusWord t.status))
      = some ([0x01, 0x01, 0x01, 0x01, 0x01, 0x01, 0x41, 0xC1, 0x00], 1, 0x402) := by decide

/-- Vector 5.8: SLOT over 0xEE, symbols "101100001", one more than a group. -/
theorem test_pack_slot :
    (after (exec .pack (packState { Config.defaults with packOperand := .slot }
        (bytesAt 0x100 [0x31, 0x30, 0x31, 0x31, 0x30, 0x30, 0x30, 0x30, 0x31]
          ++ bytesAt 0x200 [0xEE, 0xEE, 0xEE, 0xEE, 0xEE, 0xEE, 0xEE, 0xEE, 0xEE]) 0x100 0x200 9))).map
      (fun t => (readsAt t.mem 0x200 9, t.result, statusWord t.status))
      = some ([0xEF, 0xEC, 0xEE, 0xEE, 0xEE, 0xCE, 0xAE, 0x6E, 0xEE], 1, 0x102) := by decide

/-- Vector 6.12: [7, 7, 3, 3, 3, 7] under SEED_FIRST. -/
theorem test_encode_seed_first :
    (after (exec .encode (encState Config.defaults (bytesAt 0x100 [7, 7, 3, 3, 3, 7]) 0x100 0x800 6))).map
      (fun t => (readsAt t.mem 0x800 2, [t.result, t.enOutlen, t.enRun, t.enPrev, statusWord t.status]))
      = some ([2, 2], [1, 2, 0, 7, 0x202]) := by decide

/-- Vector 6.21: [0, 0, 1, 1, 1, 2] with 4-byte elements. -/
theorem test_encode_wide :
    (after (exec .encode (encState { Config.defaults with runElem := .four }
        (bytesAt 0x100 [0, 0, 1, 1, 1, 2]) 0x100 0x800 6))).map
      (fun t => (readsAt t.mem 0x800 12, [t.result, t.enOutlen, t.enRun, t.enPrev, statusWord t.status]))
      = some ([0, 0, 0, 0, 1, 0, 0, 0, 2, 0, 0, 0], [0, 3, 0, 2, 0x202]) := by decide

/-! ### The lifecycle, the ports and reset -/

/-- Vector 3.7: an Illegal word while ERROR = 1 keeps the first code. -/
theorem test_illegal_keeps_first_code :
    resultStatus (execIllegal (withStatus
      { Status.reset with done := true, error := true, errcode := some .indexOutOfBounds }))
      = some (0, 0x036) := by decide

/-- Vector 3.9: a CMD write while a PACK runs. -/
theorem test_cmd_while_busy :
    statusWord (writeReg 0x00000000 (writeReg 0x40000000 State.reset .cmd) .cmd).status = 0x045 := by
  decide

/-- Vectors 4.1, 4.4 to 4.7. -/
theorem test_status_write :
    [0x4#32, 0x70#32, 0x1#32, 0xFFFFF088#32, 0xF06#32].map
      (fun w => statusWord (writeReg w (withStatus fullStatus) .status).status)
      = [0xF02, 0xF36, 0xF36, 0xF36, 0x000] := by decide

/-- The element of two bytes, low byte first (vector 6.20's element 299). -/
theorem test_little_endian : readsAt (memWrite [] 0x800 2 299) 0x800 2 = [0x2B, 0x01] := by decide

/-- Writing what an unlisted address reads as removes the entry. -/
theorem test_write_removes_entry : writeByte (bytesAt 4 [7, 8, 9]) 5 0 = [(4, 7), (6, 9)] := by decide

/-- S4: a half-word register access and an offset above 0xFF are refused. -/
theorem test_register_access_refused :
    refusal (runEvent (.regRead 0x04 2) State.reset) = some .regAccessOutsidePort ∧
      refusal (runEvent (.regWrite 0x100 4 0) State.reset) = some .regAccessOutsidePort := by decide

/-- U3 and S3: a host memory access past the memory, and one while BUSY = 1, are refused. -/
theorem test_memory_access_refused :
    refusal (runEvent (.memRead 0x10000) State.reset) = some .hostAccessOutsideMemory ∧
      refusal (runEvent (.memWrite 0 1) (writeReg 0x50000000 State.reset .cmd))
        = some .hostAccessWhileBusy := by decide

/-- Vector 3.12: reset clears STATUS and the registers and leaves memory. -/
theorem test_reset :
    after (runEvent .reset { packState Config.defaults (bytesAt 9 [1]) 1 2 3 with status := fullStatus })
      = some (State.powerOn Config.defaults (bytesAt 9 [1])) := by decide

/-- The turn of an idle engine changes nothing, so from reset the core waits (R234). -/
theorem test_reset_waits : after (step State.reset) = some State.reset := by decide

/-! ### Witnesses: concrete values that meet the hypotheses of each obligation -/

/-- A state in the middle of an ENCODE with 2-byte elements, one byte of the marker still to write. -/
def midEncode : State :=
  engineTurns 4 (writeReg 0x50000000
    (encState { Config.defaults with runElem := .two } (bytesAt 0x100 [0, 0, 1]) 0x100 0x200 3) .cmd)

/-- A state in the middle of a PACK, two symbols done. -/
def midPack : State :=
  engineTurns 4 (writeReg 0x40000000 (packState Config.defaults
    (bytesAt 0x100 [0x31, 0x30, 0x31, 0x31, 0x30, 0x30, 0x30, 0x30]) 0x100 0x200 8) .cmd)

theorem test_witness_EncodeOfDecodeIsTheWord : decode 0x30000FFF#32 = .ok (.clearBit 0xFF#8 15#4) := by
  rfl

theorem test_witness_OpcodeMapSelectsTheDecodedRow :
    verdict 0x10000FFF#32 = some (.getBit 0xFF#8 15#4) ∧ verdict 0x10001000#32 = none := by decide

/-- Every OP of the table, with both verdicts of its format, and the reserved OPs at both ends. -/
theorem test_witness_DecoderIsTheCaseTable :
    [0x00000000#32, 0x00000001#32, 0x10000FFF#32, 0x10001000#32, 0x20000000#32, 0x28000000#32,
      0x30000700#32, 0x3FFFF000#32, 0x40000000#32, 0x48000000#32, 0x50000000#32, 0x5FFFFFFF#32,
      0x60000000#32, 0xFFFFFFFF#32].map (fun w => w.toNat / 2 ^ 28)
      = [0, 0, 1, 1, 2, 2, 3, 3, 4, 4, 5, 5, 6, 15] := by decide

theorem test_witness_StepRunsTheDecodedCommand :
    (State.reset.withFetchWord 32 0x40000000).events = .command 0x40000000#32 :: [] ∧
    decode 0x40000000#32 = .ok .pack ∧
    (State.reset.withFetchWord 32 0x60000000).events = .command 0x60000000#32 :: [] ∧
    decode 0x60000000#32 = .error .reservedOpcode ∧
    decodeTableWord 32 0x200003A5 = some (.setBit 0xA5#8 3#4) ∧
    decodeTableWord 32 0x10001000 = none :=
  ⟨rfl, rfl, rfl, rfl, rfl, rfl⟩

theorem test_witness_CommandWhileBusyIsRejected : midPack.status.busy = true := by decide

/-- Also the witness of NoHiddenStateCarriesOver, RecordedErrorBlocksNoCommand,
PackEngineRefinesPack, EncodeEngineRefinesEncode, AtomicCommandIsAcceptanceThenTurns and
AbortLeavesAPrefixOfTheWrites. -/
theorem test_witness_AcceptanceSetsBusyAndLatches :
    (withStatus fullStatus).status.busy = false ∧ State.reset.status.busy = false := by decide

/-- A reserved opcode, a format Z and a format B reserved field. -/
theorem test_witness_IllegalWordEndsInIllegalCommand :
    let s : State := { withStatus fullStatus with events := [.command 0x00000001#32, .poll] }
    s.status.busy = false ∧ s.events = .command 0x00000001#32 :: [.poll] ∧
      reservedWord 0x00000001#32 ∧ reservedWord 0x10001000#32 ∧ reservedWord 0x60000000#32 :=
  ⟨by decide, rfl, .inr (.inl (by decide)), .inr (.inr (by decide)), .inl (by decide)⟩

/-- Idle and busy states, and a word with OP = 0x0 that is not NOP. -/
theorem test_witness_NopCompletes :
    State.reset.status.busy = false ∧ midPack.status.busy = true ∧
      (0x00000001#32).toNat / 2 ^ 28 = 0 ∧ (0x00000001#32 : Word) ≠ 0x00000000#32 := by decide

theorem test_witness_RecordErrorKeepsTheFirstCode :
    State.reset.status.error = false ∧ (withStatus fullStatus).status.error = true := by decide

/-- For GetBitCompletes, SetBitCompletes and ClearBitCompletes: both ends of both ranges. -/
theorem test_witness_BitPositions :
    State.reset.status.busy = false ∧ (0#4).toNat ≤ 7 ∧ (7#4).toNat ≤ 7 ∧
      8 ≤ (8#4).toNat ∧ 8 ≤ (15#4).toNat := by decide

theorem test_witness_BitPositionOutOfRangeIsReported :
    let s : State := { withStatus fullStatus with events := [.command 0x20000810#32] }
    s.status.busy = false ∧ 8 ≤ (8#4).toNat ∧
      s.events = .command (encode (.setBit 0x10#8 8#4)) :: [] := by decide

theorem test_witness_BitPrimitiveLaws : (0#3 : BitVec 3) ≠ 7#3 ∧ getBit 0x80#8 7#3 = 1#8 := by decide

/-- Vectors 5.17 and 5.20: both ranges may end exactly at MEM_BYTES, and with N = 0 start there. -/
theorem test_witness_PackCompletes :
    (let s := packState Config.defaults [] 0xFFF0 0 16
     s.status.busy = false ∧ s.pkSrc.toNat + s.pkLen.toNat ≤ memBytes s.params ∧
      s.pkDst.toNat + s.pkLen.toNat ≤ memBytes s.params) ∧
    (let s := packState Config.defaults [] 0x10000 0x10000 0
     s.status.busy = false ∧ s.pkSrc.toNat + s.pkLen.toNat ≤ memBytes s.params ∧
      s.pkDst.toNat + s.pkLen.toNat ≤ memBytes s.params) := by decide

/-- Vectors 5.18, 5.19 and 5.21: each PACK range one too far, and a sum above 2^32; vectors 6.23, 6.25
and 6.27: each ENCODE clause at its boundary. -/
theorem test_witness_RangeErrorsAreReported :
    (let s := packState Config.defaults [] 0xFFF1 0 16
     s.status.busy = false ∧ memBytes s.params < s.pkSrc.toNat + s.pkLen.toNat) ∧
    (let s := packState Config.defaults [] 0 0xFFF8 9
     memBytes s.params < s.pkDst.toNat + s.pkLen.toNat) ∧
    (let s := packState Config.defaults [] 0xFFFFFFFF 0 1
     memBytes s.params < s.pkSrc.toNat + s.pkLen.toNat) ∧
    (encState Config.defaults [] 0x100 0x800 0).enLen.toNat = 0 ∧
    (let s := encState Config.defaults [] 0xFFFF 0x800 2
     memBytes s.params < s.enSrc.toNat + s.enLen.toNat) ∧
    (let s := encState { Config.defaults with runElem := .two } [] 0x100 0xFFF0 9
     s.status.busy = false ∧
      memBytes s.params < s.enDst.toNat + elemBytes s.params * s.enLen.toNat) := by decide

/-- N = 0 and N = 7. -/
theorem test_witness_PackOfNoCompleteGroup :
    (let s := packState Config.defaults [] 0x10000 0 0
     s.status.busy = false ∧ s.pkLen.toNat < 8 ∧ s.pkSrc.toNat + s.pkLen.toNat ≤ memBytes s.params ∧
      s.pkDst.toNat + s.pkLen.toNat ≤ memBytes s.params) ∧
    (let s := packState Config.defaults [] 0xFFF9 0 7
     s.status.busy = false ∧ s.pkLen.toNat < 8 ∧ s.pkSrc.toNat + s.pkLen.toNat ≤ memBytes s.params ∧
      s.pkDst.toNat + s.pkLen.toNat ≤ memBytes s.params) := by decide

/-- Each of the three layouts, at its boundary: in place, slots right after the symbols, symbols right
after the slots; each with both ranges in memory. -/
theorem test_witness_PackSlotsForEveryParameter :
    let inMemory (s : State) := s.status.busy = false ∧
      s.pkSrc.toNat + s.pkLen.toNat ≤ memBytes s.params ∧
      s.pkDst.toNat + s.pkLen.toNat ≤ memBytes s.params
    let inPlace := packState Config.defaults [] 0x100 0x100 17
    let after := packState Config.defaults [] 0x100 0x110 17
    let before := packState Config.defaults [] 0x110 0x100 17
    (inMemory inPlace ∧ packSeparateOrInPlace (latch inPlace)) ∧
      (inMemory after ∧ packSeparateOrInPlace (latch after)) ∧
      (inMemory before ∧ packSeparateOrInPlace (latch before)) :=
  ⟨⟨⟨by decide, by decide, by decide⟩, .inl (by decide)⟩,
    ⟨⟨by decide, by decide, by decide⟩, .inr (.inl (by decide))⟩,
    ⟨⟨by decide, by decide, by decide⟩, .inr (.inr (by decide))⟩⟩

/-- For PackClosedFormUnderTheDefaults and PackKeepsTheGroupsInformation (group 0 all binary). -/
theorem test_witness_PackSeparate :
    let s := packState Config.defaults
      (bytesAt 0x100 [0x31, 0x30, 0x31, 0x31, 0x30, 0x30, 0x30, 0x30, 0x78]) 0x100 0x108 9
    s.status.busy = false ∧ s.pkSrc.toNat + s.pkLen.toNat ≤ memBytes s.params ∧
      s.pkDst.toNat + s.pkLen.toNat ≤ memBytes s.params ∧
      s.params.packOperand = .zero ∧ s.params.packOther = .copy ∧ packSeparate (latch s) ∧
      0 < s.pkLen.toNat / 8 ∧
      ∀ i < 8, ¬ nonBinary (readByte s.mem (s.pkSrc.toNat + (8 * 0 + i))) :=
  ⟨by decide, by decide, by decide, by decide, by decide, .inl (by decide), by decide,
    by unfold nonBinary; decide⟩

/-- A first run, the state it answers, and a second start whose memory is that of the first run. -/
theorem test_witness_PackIsRepeatable :
    let s := packState Config.defaults (bytesAt 0x100 [0x30, 0x31]) 0x100 0x108 8
    let t := packState Config.defaults (bytesAt 0x100 [0x30, 0x31] ++ [(0x109, 0x02)]) 0x100 0x108 8
    let t' : State := { t with result := 1, status := { Status.reset with
      done := true, nonbinarySymbol := true } }
    exec .pack s = .next t' ∧ t'.status.busy = false ∧ t'.params = s.params ∧
      t'.pkSrc = s.pkSrc ∧ t'.pkDst = s.pkDst ∧ t'.pkLen = s.pkLen ∧
      s.pkSrc.toNat + s.pkLen.toNat ≤ memBytes s.params ∧
      s.pkDst.toNat + s.pkLen.toNat ≤ memBytes s.params ∧ packSeparate (latch s) ∧
      (∀ idx < 8, readByte t'.mem (s.pkSrc.toNat + idx) = readByte s.mem (s.pkSrc.toNat + idx)) ∧
      s.params.packOperand ≠ .slot ∧ s.params.packOther ≠ .nowrite :=
  ⟨by rfl, by decide, by decide, by decide, by decide, by decide, by decide, by decide,
    .inl (by decide), by decide, by decide, by decide⟩

/-- The binary symbol's clause at position 7, and the OPERAND clause. -/
theorem test_witness_PackClosedFormUnderAccum :
    (let s := packState { Config.defaults with packOperand := .accum }
       (bytesAt 0x107 [0x31]) 0x100 0x200 8
     s.status.busy = false ∧ s.pkSrc.toNat + s.pkLen.toNat ≤ memBytes s.params ∧
      s.pkDst.toNat + s.pkLen.toNat ≤ memBytes s.params ∧ s.params.packOperand = .accum ∧
      packSeparate (latch s) ∧ ¬ nonBinary (readByte s.mem (s.pkSrc.toNat + (8 * 0 + 7)))) ∧
    ({ Config.defaults with packOperand := .accum, packOther := .operand } : Config.Params).packOther
      = .operand :=
  ⟨⟨by decide, by decide, by decide, by decide, .inl (by decide), by unfold nonBinary; decide⟩,
    by decide⟩

/-- Vectors 6.24 and 6.26: both ranges exactly at the end of memory. -/
theorem test_witness_EncodeCompletes :
    (let s := encState Config.defaults [] 0xFFFF 0x800 1
     s.status.busy = false ∧ s.enLen.toNat ≠ 0 ∧
      s.enSrc.toNat + s.enLen.toNat ≤ memBytes s.params ∧
      s.enDst.toNat + elemBytes s.params * s.enLen.toNat ≤ memBytes s.params) ∧
    (let s := encState { Config.defaults with runElem := .two } [] 0x100 0xFFF0 8
     s.status.busy = false ∧ s.enLen.toNat ≠ 0 ∧
      s.enSrc.toNat + s.enLen.toNat ≤ memBytes s.params ∧
      s.enDst.toNat + elemBytes s.params * s.enLen.toNat ≤ memBytes s.params) := by decide

/-- Separate with 4-byte elements right after the source and right before it, and in place with
one-byte elements (vector 6.28). -/
theorem test_witness_EncodeElementsAreTheRuns :
    (let s := encState { Config.defaults with runElem := .four } [] 0x100 0x106 6
     s.status.busy = false ∧ s.enLen.toNat ≠ 0 ∧
      s.enSrc.toNat + s.enLen.toNat ≤ memBytes s.params ∧
      s.enDst.toNat + elemBytes s.params * s.enLen.toNat ≤ memBytes s.params ∧
      encSeparate s.params (latch s)) ∧
    (let s := encState { Config.defaults with runElem := .four } [] 0x118 0x100 6
     encSeparate s.params (latch s)) ∧
    (let s := encState Config.defaults (bytesAt 0x100 [0, 0, 0, 1, 1, 0]) 0x100 0x100 6
     encInPlace s.params (latch s)) :=
  ⟨⟨by decide, by decide, by decide, by decide, .inl (by decide)⟩, .inr (by decide), by
    unfold encInPlace; decide⟩

theorem test_witness_EncodeInPlaceEqualsSeparate :
    let s := encState Config.defaults (bytesAt 0x100 [0, 0, 0, 1, 1, 0]) 0x100 0x100 6
    s.status.busy = false ∧ s.enLen.toNat ≠ 0 ∧
      s.enSrc.toNat + s.enLen.toNat ≤ memBytes s.params ∧
      (0x106#32).toNat + s.enLen.toNat ≤ memBytes s.params ∧ elemBytes s.params = 1 ∧
      s.enDst = s.enSrc ∧ s.enSrc.toNat + s.enLen.toNat ≤ (0x106#32).toNat ∧
      (0xFA#32).toNat + s.enLen.toNat ≤ s.enSrc.toNat := by decide

/-- A PACK under way meets the invariant: for EngineAlwaysCompletes and EveryStepKeepsTheInvariant. -/
theorem test_witness_InvMidPack : Inv midPack where
  memWf := by decide
  memWithin := by decide
  idleIff := by decide
  errIff := by decide
  prevByte := by decide
  engine := by
    show packInRange _ _ = true ∧ _ < groupCount _
    decide

/-- An ENCODE under way, with a byte of an element waiting, meets it too. -/
theorem test_witness_InvMidEncode : Inv midEncode where
  memWf := by decide
  memWithin := by decide
  idleIff := by decide
  errIff := by decide
  prevByte := by decide
  engine := by
    show encInRange _ _ = true ∧ _ < _ ∧ _ ≤ _ ∧ ∀ c ∈ _, _ < _
    decide

/-- The waiting byte is there. -/
theorem test_mid_encode_waits :
    (match midEncode.engine with
      | .enScan _ r => r.pend
      | _ => []) = [(0x201, 0)] := by decide

/-- A step of a running core answers a next state, for EveryStepKeepsTheInvariant,
ParametersNeverChange, OnlyTheHostClearsStatus and OnlyPackEncodeAndTheHostWriteMemory. -/
theorem test_witness_StepAnswersNext :
    (after (step midPack)).isSome = true ∧
    (after (step { withStatus fullStatus with events := [.regRead 0x04 4] })).isSome = true ∧
    engineUsesMemory (withStatus fullStatus).engine = false ∧
    eventUsesMemory (.regRead 0x04 4) = false ∧ clearsStatus (.regRead 0x04 4) = false := by decide

/-- For OutputsHiddenWhileBusy, OperandWritesMissTheRunningCommand and
StatusWritesMissTheRunningCommand. -/
theorem test_witness_OutputsHiddenWhileBusy :
    midEncode.status.busy = true ∧ (engineTurn midEncode).status.busy = true ∧
      State.reset.status.busy = false ∧ .pkLen ∈ operandRegs ∧ .enDst ∈ operandRegs ∧
      { fullStatus with busy := true }.busy = midEncode.status.busy := by decide

theorem test_witness_InvReset : Inv State.reset where
  memWf := by decide
  memWithin := by decide
  idleIff := by decide
  errIff := by decide
  prevByte := by decide
  engine := trivial

/-- The host issues an ENCODE and polls; other actions may follow. -/
theorem test_witness_CommandAndPollRunTheCommand :
    let s : State := { withStatus fullStatus with events := [.regWrite 0x00 4 0x50000000, .poll, .reset] }
    s.status.busy = false ∧ s.events = .regWrite 0x00 4 0x50000000 :: .poll :: [.reset] := by decide

theorem test_witness_CanonicalMemoryIsUnique :
    Memory.wf (bytesAt 4 [7, 0, 9]) ∧ Memory.wf (writeByte (bytesAt 4 [7, 8, 9]) 5 0) ∧
      writeByte (bytesAt 4 [7, 8, 9]) 5 0 = bytesAt 4 [7, 0, 9] := by decide

theorem test_witness_StatusWriteClearsWhereOne :
    { midPack with events := [.regWrite 0x04 4 0xF06] }.events = [.regWrite 0x04 4 0xF06] := by decide

/-- The first and the last operand register, by offset and by name. -/
theorem test_witness_OperandRegistersReadBack :
    .pkSrc ∈ operandRegs ∧ .enLen ∈ operandRegs ∧
      { midPack with events := [.regWrite 0x0C 4 5] }.events = .regWrite (regOffset .pkSrc) 4 5 :: [] ∧
      { midPack with events := [.regWrite 0x20 4 5] }.events = .regWrite (regOffset .enLen) 4 5 :: [] := by
  decide

/-- Writes to the first and the last R register; reads of CMD, RESULT and EN_PREV. -/
theorem test_witness_ReadOnlyRegistersAndReads :
    { midPack with events := [.regWrite 0x08 4 5] }.events = .regWrite 0x08 4 5 :: [] ∧
      { midPack with events := [.regWrite 0x2C 4 5] }.events = .regWrite 0x2C 4 5 :: [] ∧
      { midPack with events := [.regRead 0x00 4] }.events = .regRead 0x00 4 :: [] ∧
      { midPack with events := [.regRead 0x08 4] }.events = .regRead 0x08 4 :: [] ∧
      { midPack with events := [.regRead 0x2C 4] }.events = .regRead 0x2C 4 :: [] := by decide

/-- The reserved offsets at both ends, and one access for each way of leaving the port. -/
theorem test_witness_ReservedOffsetsAndRefusedAccesses :
    0x30 % 4 = 0 ∧ 0xFC % 4 = 0 ∧ (2 : Nat) ≠ 4 ∧ 0x06 % 4 ≠ 0 ∧ 0xFF < 0x100 ∧
      { midPack with events := [.regWrite 0xFC 4 5] }.events = .regWrite 0xFC 4 5 :: [] ∧
      { midPack with events := [.regRead 0x30 4] }.events = .regRead 0x30 4 :: [] ∧
      { State.reset with events := [.regRead 0x100 4] }.events = .regRead 0x100 4 :: [] ∧
      { State.reset with events := [.regWrite 0x06 4 0] }.events = .regWrite 0x06 4 0 :: [] := by decide

/-- BUSY = 1, the first address past the memory, and the last address. -/
theorem test_witness_HostMemoryAccess :
    midPack.status.busy = true ∧ State.reset.status.busy = false ∧
      memBytes State.reset.params ≤ 0x10000 ∧ 0xFFFF < memBytes State.reset.params ∧
      { State.reset with events := [.memRead 0xFFFF] }.events = .memRead 0xFFFF :: [] ∧
      { midPack with events := [.memWrite 0x10000 1] }.events = .memWrite 0x10000 1 :: [] := by decide

theorem test_witness_ResetSetsEveryRegisterToZero :
    { midPack with events := [.reset] }.events = .reset :: [] := by decide

/-- No event and an idle engine, no event and a running one, `poll` in both. -/
theorem test_witness_IdleCoreWaitsAndPollReturns :
    State.reset.events = [] ∧ State.reset.engine = .idle ∧ midPack.events = [] ∧
      { State.reset with events := [.poll] }.events = .poll :: [] ∧ State.reset.status.busy = false ∧
      { midPack with events := [.poll] }.events = .poll :: [] ∧ midPack.status.busy = true := by decide

end Sys2Proof.Tests
end

section
/-! PROOFS. What a step that answers a next state came from, and the parameters along a step. -/

namespace Sys2Proof.Machine

/-! ### The next state, event by event -/

/-- A step is a turn of the engine, or the first waiting event. -/
theorem step_next_cases {s t : State} (h : step s = .next t) :
    (s.events = [] ∧ t = engineTurn s) ∨
    (∃ e rest, s.events = e :: rest ∧ runEvent e { s with events := rest } = .next t) := by
  unfold step runNext at h
  split at h
  case h_1 hnil =>
    cases h
    exact .inl ⟨hnil, rfl⟩
  case h_2 e rest hcons => exact .inr ⟨e, rest, hcons, h⟩

theorem runEvent_regRead_next {offset bytes : Nat} {s t : State}
    (h : runEvent (.regRead offset bytes) s = .next t) :
    portAccess offset bytes = true ∧ t = { s with reply := .word (readOffset s offset) } := by
  simp only [runEvent] at h
  split at h
  case isTrue hport => cases h; exact ⟨hport, rfl⟩
  case isFalse => cases h

theorem runEvent_regWrite_next {offset bytes : Nat} {v : Word} {s t : State}
    (h : runEvent (.regWrite offset bytes v) s = .next t) :
    portAccess offset bytes = true ∧ t = writeOffset v offset s := by
  simp only [runEvent] at h
  split at h
  case isTrue hport => cases h; exact ⟨hport, rfl⟩
  case isFalse => cases h

theorem runEvent_memRead_next {a : Nat} {s t : State} (h : runEvent (.memRead a) s = .next t) :
    memPortRefusal s a = none ∧ t = { s with reply := .byte (readByte s.mem a) } := by
  simp only [runEvent] at h
  split at h
  case h_1 => cases h
  case h_2 hport => cases h; exact ⟨hport, rfl⟩

theorem runEvent_memWrite_next {a : Nat} {v : Byte} {s t : State}
    (h : runEvent (.memWrite a v) s = .next t) :
    memPortRefusal s a = none ∧ t = { s with mem := writeByte s.mem a v } := by
  simp only [runEvent] at h
  split at h
  case h_1 => cases h
  case h_2 hport => cases h; exact ⟨hport, rfl⟩

/-- While BUSY = 1 a poll stays first and the engine has a turn; then it answers STATUS. -/
theorem runEvent_poll_next {s t : State} (h : runEvent .poll s = .next t) :
    (s.status.busy = true ∧ t = engineTurn { s with events := .poll :: s.events }) ∨
    (s.status.busy = false ∧ t = { s with reply := .word (statusWord s.status) }) := by
  simp only [runEvent] at h
  split at h
  case isTrue hbusy => cases h; exact .inl ⟨hbusy, rfl⟩
  case isFalse hbusy => cases h; exact .inr ⟨by simpa using hbusy, rfl⟩

theorem execIllegal_busy {s : State} (h : s.status.busy = true) :
    execIllegal s = .next (recordError .cmdWhileBusy s) :=
  congrArg _ (onCommand_busy h none runIllegal)

theorem execIllegal_idle {s : State} (h : s.status.busy = false) :
    execIllegal s = .next (complete (some .illegalCommand) (accept none s)) :=
  congrArg _ (onCommand_idle h none runIllegal)

/-- An Illegal word answers a next state and keeps the frame, as a command does (`exec_frame`). -/
theorem execIllegal_frame (s : State) : ∃ t, execIllegal s = .next t ∧ SameFrame s t := by
  cases h : s.status.busy
  · exact ⟨_, execIllegal_idle h, by constructor <;> rfl⟩
  · exact ⟨_, execIllegal_busy h, by constructor <;> rfl⟩

/-- Every word written to CMD, a command's or Illegal, answers a next state and keeps the frame. -/
theorem runCommandWord_frame (w : Word) (s : State) :
    ∃ t, runCommandWord w s = .next t ∧ SameFrame s t := by
  unfold runCommandWord
  split
  case h_1 i _ => exact exec_frame i s
  case h_2 => exact execIllegal_frame s

/-! ### The parameters (R39) -/

@[simp] theorem issue_params (w : Word) (s : State) : (issue w s).params = s.params := by
  unfold issue
  split
  case isTrue => exact recordError_params _ s
  case isFalse => exact accept_params _ s

@[simp] theorem writeReg_params (w : Word) (s : State) (r : RegName) :
    (writeReg w s r).params = s.params := by
  cases r
  case cmd => exact issue_params w s
  all_goals rfl

@[simp] theorem writeOffset_params (w : Word) (offset : Nat) (s : State) :
    (writeOffset w offset s).params = s.params := by
  unfold writeOffset
  split
  case h_1 r _ => exact writeReg_params w s r
  case h_2 => rfl

theorem runEvent_params {e : Event} {s t : State} (h : runEvent e s = .next t) :
    t.params = s.params := by
  cases e with
  | command w =>
    obtain ⟨u, hu, frame⟩ := runCommandWord_frame w s
    cases hu.symm.trans h
    exact frame.params
  | regRead offset bytes =>
    obtain ⟨-, rfl⟩ := runEvent_regRead_next h
    rfl
  | regWrite offset bytes v =>
    obtain ⟨-, rfl⟩ := runEvent_regWrite_next h
    exact writeOffset_params v offset s
  | memRead a =>
    obtain ⟨-, rfl⟩ := runEvent_memRead_next h
    rfl
  | memWrite a v =>
    obtain ⟨-, rfl⟩ := runEvent_memWrite_next h
    rfl
  | poll =>
    obtain ⟨-, rfl⟩ | ⟨-, rfl⟩ := runEvent_poll_next h
    · exact (engineTurn_frame _).params
    · rfl
  | reset =>
    cases h
    exact resetCore_params s
  | engineTurn =>
    cases h
    exact (engineTurn_frame s).params

/-- Settles O51: a turn of the engine keeps the frame, and each event keeps the parameters. -/
theorem parametersNeverChange : Obligations.ParametersNeverChange := by
  intro s t h
  obtain ⟨-, rfl⟩ | ⟨e, rest, -, hevent⟩ := step_next_cases h
  · exact (engineTurn_frame s).params
  · exact runEvent_params (s := { s with events := rest }) hevent

end Sys2Proof.Machine
end

section
/-! PROOFS. How STATUS changes: the ways a turn or a command writes it, what is kept by all of them
(spec/10_state.md R27 to R29), and that nothing else depends on its fields but BUSY (R98). -/

namespace Sys2Proof.Machine

/-- The ways a turn of the engine, or the end of a command, writes STATUS: not at all, by completing
with or without an error, or by PACK's or ENCODE's flags and completing. -/
inductive StatusUpdate : (Status → Status) → Prop where
  | keep : StatusUpdate id
  | complete (o : Option ErrorKind) : StatusUpdate (Status.complete o)
  | packed (n : Nat) (nonbin : Bool) : StatusUpdate (fun st => (packFlags n nonbin st).complete none)
  | encoded (ovf : Bool) : StatusUpdate (fun st => (encFlags ovf st).complete none)

theorem StatusUpdate.busy_congr {f : Status → Status} (hf : StatusUpdate f) {st st' : Status}
    (h : st.busy = st'.busy) : (f st).busy = (f st').busy := by
  cases hf with
  | keep => exact h
  | complete o => simp
  | packed n nonbin => simp
  | encoded ovf => simp

/-- From `s`, the action writes STATUS in one of the ways above, and whatever STATUS holds, nothing
else of its effect depends on it. -/
def UpdatesStatus (act : State → State) (s : State) : Prop :=
  ∃ f, StatusUpdate f ∧ ∀ st, act { s with status := st } = { act s with status := f st }

theorem UpdatesStatus.status {act : State → State} {s : State} (h : UpdatesStatus act s) :
    ∃ f, StatusUpdate f ∧ (act s).status = f s.status := by
  obtain ⟨f, hf, hact⟩ := h
  exact ⟨f, hf, congrArg State.status (hact s.status)⟩

/-! ### Commands -/

theorem finish_error_updatesStatus (e : ErrorKind) (s : State) :
    UpdatesStatus (fun u => finish u (.error e)) s :=
  ⟨_, .complete (some e), fun _ => rfl⟩

theorem finish_runBitOp_updatesStatus (op : BitOp) (byte : Byte) (pos : BitVec 4) (s : State) :
    UpdatesStatus (fun u => finish u (runBitOp op byte pos u)) s := by
  unfold runBitOp
  split
  case h_1 => exact finish_error_updatesStatus _ s
  case h_2 => exact ⟨_, .complete none, fun _ => rfl⟩

theorem finish_runPack_updatesStatus (l : Latched) (s : State) :
    UpdatesStatus (fun u => finish u (runPack l u)) s := by
  by_cases h : packInRange s.params l = true
  · exact ⟨_, .packed l.pkLen.toNat (packAll s.params l s.mem).nonbin,
      fun _ => by simp only [runPack, h, if_true]; rfl⟩
  · exact ⟨_, .complete (some .indexOutOfBounds), fun _ => by simp only [runPack, h]; rfl⟩

theorem finish_runEncode_updatesStatus (l : Latched) (s : State) :
    UpdatesStatus (fun u => finish u (runEncode l u)) s := by
  by_cases h : encInRange s.params l = true
  · exact ⟨_, .encoded (encAll s.params l s.mem).ovf,
      fun _ => by simp only [runEncode, h, if_true]; rfl⟩
  · exact ⟨_, .complete (some .indexOutOfBounds),
      fun _ => by simp only [runEncode, h]; rfl⟩

theorem finish_runOf_updatesStatus (i : Instr) (l : Latched) (s : State) :
    UpdatesStatus (fun u => finish u (runOf i l u)) s := by
  cases i with
  | nop => exact ⟨_, .complete none, fun _ => rfl⟩
  | getBit byte pos => exact finish_runBitOp_updatesStatus .get byte pos s
  | setBit byte pos => exact finish_runBitOp_updatesStatus .set byte pos s
  | clearBit byte pos => exact finish_runBitOp_updatesStatus .clr byte pos s
  | pack => exact finish_runPack_updatesStatus l s
  | encode => exact finish_runEncode_updatesStatus l s

/-! ### Turns of the engine -/

theorem turnAccepted_updatesStatus (c : Option Instr) (l : Latched) (s : State) :
    UpdatesStatus (turnAccepted c l) s := by
  cases c with
  | none => exact finish_error_updatesStatus .illegalCommand s
  | some i =>
    cases i with
    | pack => exact ⟨_, .keep, fun _ => rfl⟩
    | encode => exact ⟨_, .keep, fun _ => rfl⟩
    | nop => exact finish_runOf_updatesStatus .nop l s
    | getBit byte pos => exact finish_runOf_updatesStatus (.getBit byte pos) l s
    | setBit byte pos => exact finish_runOf_updatesStatus (.setBit byte pos) l s
    | clearBit byte pos => exact finish_runOf_updatesStatus (.clearBit byte pos) l s

theorem turnPkCheck_updatesStatus (l : Latched) (s : State) :
    UpdatesStatus (turnPkCheck l) s := by
  refine ⟨_, .keep, fun st => ?_⟩
  unfold turnPkCheck
  dsimp only
  split
  · split <;> rfl
  · rfl

theorem turnPkElem_updatesStatus (l : Latched) (r : PackRegs) (s : State) :
    UpdatesStatus (turnPkElem l r) s := by
  refine ⟨_, .keep, fun st => ?_⟩
  unfold turnPkElem
  dsimp only
  split
  · split <;> rfl
  · rfl

theorem turnEnCheck_updatesStatus (l : Latched) (s : State) :
    UpdatesStatus (turnEnCheck l) s := by
  refine ⟨_, .keep, fun st => ?_⟩
  unfold turnEnCheck
  dsimp only
  split <;> rfl

theorem turnEnScan_updatesStatus (l : Latched) (r : EncRegs) (s : State) :
    UpdatesStatus (turnEnScan l r) s := by
  refine ⟨_, .keep, fun st => ?_⟩
  unfold turnEnScan
  split <;> rfl

theorem turnEnFinish_updatesStatus (l : Latched) (r : EncRegs) (s : State) :
    UpdatesStatus (turnEnFinish l r) s := by
  unfold turnEnFinish
  split
  case h_1 => exact ⟨_, .keep, fun _ => rfl⟩
  case h_2 => exact ⟨_, .encoded r.ovf, fun _ => rfl⟩

theorem engineTurn_updatesStatus (s : State) : UpdatesStatus engineTurn s := by
  have turn : ∀ act : State → State, (∀ st, engineTurn { s with status := st }
      = act { s with status := st }) → UpdatesStatus act s → UpdatesStatus engineTurn s := by
    rintro act hact ⟨f, hf, h⟩
    exact ⟨f, hf, fun st => by rw [hact, h, ← hact s.status]⟩
  cases he : s.engine with
  | idle => exact turn id (fun _ => by simp [engineTurn, he]) ⟨_, .keep, fun _ => rfl⟩
  | accepted c l =>
    exact turn (turnAccepted c l) (fun _ => by simp [engineTurn, he])
      (turnAccepted_updatesStatus c l s)
  | pkCheck l =>
    exact turn (turnPkCheck l) (fun _ => by simp [engineTurn, he]) (turnPkCheck_updatesStatus l s)
  | pkElem l r =>
    exact turn (turnPkElem l r) (fun _ => by simp [engineTurn, he]) (turnPkElem_updatesStatus l r s)
  | pkFinish l r =>
    exact turn (turnPkFinish l r) (fun _ => by simp [engineTurn, he])
      ⟨_, .packed l.pkLen.toNat r.nonbin, fun _ => rfl⟩
  | pkEnd e =>
    exact turn (complete (some e)) (fun _ => by simp [engineTurn, he])
      ⟨_, .complete (some e), fun _ => rfl⟩
  | enCheck l =>
    exact turn (turnEnCheck l) (fun _ => by simp [engineTurn, he]) (turnEnCheck_updatesStatus l s)
  | enPre l =>
    exact turn (turnEnPre l) (fun _ => by simp [engineTurn, he]) ⟨_, .keep, fun _ => rfl⟩
  | enScan l r =>
    exact turn (turnEnScan l r) (fun _ => by simp [engineTurn, he]) (turnEnScan_updatesStatus l r s)
  | enFinish l r =>
    exact turn (turnEnFinish l r) (fun _ => by simp [engineTurn, he])
      (turnEnFinish_updatesStatus l r s)
  | enEnd e =>
    exact turn (complete (some e)) (fun _ => by simp [engineTurn, he])
      ⟨_, .complete (some e), fun _ => rfl⟩

/-- With another STATUS of the same BUSY, any number of turns ends in the same state but for STATUS,
and there with the same BUSY (R98). -/
theorem engineTurns_withStatus (n : Nat) (s : State) {st : Status} (h : st.busy = s.status.busy) :
    ∃ st', engineTurns n { s with status := st } = { engineTurns n s with status := st' } ∧
      st'.busy = (engineTurns n s).status.busy := by
  induction n generalizing s st with
  | zero => exact ⟨st, rfl, h⟩
  | succ n ih =>
    obtain ⟨f, hf, hturn⟩ := engineTurn_updatesStatus s
    have hstatus : (engineTurn s).status = f s.status := congrArg State.status (hturn s.status)
    have hbusy : (f st).busy = (engineTurn s).status.busy := by rw [hstatus, hf.busy_congr h]
    obtain ⟨st', hturns, hbusy'⟩ := ih (engineTurn s) hbusy
    exact ⟨st', by rw [engineTurns, hturn, hturns, engineTurns], hbusy'⟩

/-- Settles O38: another STATUS of the same BUSY is all the turns leave different. -/
theorem statusWritesMissTheRunningCommand : Obligations.StatusWritesMissTheRunningCommand := by
  intro s st n h
  obtain ⟨st', hturns, hbusy⟩ := engineTurns_withStatus n s h
  simp only [hturns, hbusy, and_self]

/-! ### What no turn and no command clears (R27 to R29) -/

/-- DONE, ERROR and the sticky flags are 1 in `st'` where they were in `st`, and with ERROR the code
is the same. -/
structure Status.KeptIn (st st' : Status) : Prop where
  done       : st.done = true → st'.done = true
  error      : st.error = true → st'.error = true ∧ st'.errcode = st.errcode
  incomplete : st.incompleteGroupDropped = true → st'.incompleteGroupDropped = true
  trailing   : st.trailingRunDiscarded = true → st'.trailingRunDiscarded = true
  nonbinary  : st.nonbinarySymbol = true → st'.nonbinarySymbol = true
  overflow   : st.runOverflow = true → st'.runOverflow = true

theorem Status.keptIn_self (st : Status) : st.KeptIn st :=
  ⟨id, fun h => ⟨h, rfl⟩, id, id, id, id⟩

theorem recordStatus_keptIn (e : ErrorKind) (st : Status) : st.KeptIn (st.recordError e) :=
  ⟨id, fun h => ⟨rfl, if_pos h⟩, id, id, id, id⟩

theorem statusComplete_keptIn (o : Option ErrorKind) (st : Status) : st.KeptIn (st.complete o) := by
  cases o with
  | none => exact ⟨fun _ => rfl, fun h => ⟨h, rfl⟩, id, id, id, id⟩
  | some e => exact ⟨fun _ => rfl, fun h => ⟨rfl, if_pos h⟩, id, id, id, id⟩

theorem StatusUpdate.keptIn {f : Status → Status} (hf : StatusUpdate f) (st : Status) :
    st.KeptIn (f st) := by
  cases hf with
  | keep => exact st.keptIn_self
  | complete o => exact statusComplete_keptIn o st
  | packed n nonbin =>
    exact ⟨fun _ => rfl, fun h => ⟨h, rfl⟩, Bool.or_eq_true_iff.mpr ∘ .inl, id,
      Bool.or_eq_true_iff.mpr ∘ .inl, id⟩
  | encoded ovf =>
    exact ⟨fun _ => rfl, fun h => ⟨h, rfl⟩, id, fun _ => rfl, id, Bool.or_eq_true_iff.mpr ∘ .inl⟩

theorem engineTurn_keptIn (s : State) : s.status.KeptIn (engineTurn s).status := by
  obtain ⟨f, hf, hstatus⟩ := (engineTurn_updatesStatus s).status
  exact hstatus ▸ hf.keptIn s.status

/-- A CMD write is rejected, runs the decoded command to its end, or ends as Illegal (R90, R98). -/
theorem runCommandWord_cases (w : Word) (s : State) :
    (s.status.busy = true ∧ runCommandWord w s = .next (recordError .cmdWhileBusy s)) ∨
    (s.status.busy = false ∧ ∃ i, verdict w = some i ∧ runCommandWord w s
      = .next (finish (accept (some i) s) (runOf i (latch s) (accept (some i) s)))) ∨
    (s.status.busy = false ∧ verdict w = none ∧ runCommandWord w s
      = .next (complete (some .illegalCommand) (accept none s))) := by
  unfold runCommandWord
  cases hbusy : s.status.busy <;> cases hw : verdict w
  case false.none => exact .inr (.inr ⟨rfl, rfl, execIllegal_idle hbusy⟩)
  case false.some i => exact .inr (.inl ⟨rfl, i, rfl, exec_idle hbusy i⟩)
  case true.none => exact .inl ⟨rfl, execIllegal_busy hbusy⟩
  case true.some i => exact .inl ⟨rfl, exec_busy hbusy i⟩

theorem runCommandWord_keptIn {w : Word} {s t : State} (h : runCommandWord w s = .next t) :
    s.status.KeptIn t.status := by
  obtain ⟨-, hrun⟩ | ⟨-, i, -, hrun⟩ | ⟨-, -, hrun⟩ := runCommandWord_cases w s <;>
    cases hrun.symm.trans h
  · exact recordStatus_keptIn _ _
  · obtain ⟨f, hf, hstatus⟩ := (finish_runOf_updatesStatus i (latch s) (accept (some i) s)).status
    have hkept := hf.keptIn (accept (some i) s).status
    rw [← hstatus] at hkept
    exact ⟨hkept.done, hkept.error, hkept.incomplete, hkept.trailing, hkept.nonbinary, hkept.overflow⟩
  · exact statusComplete_keptIn (some .illegalCommand) s.status

end Sys2Proof.Machine
end

section
/-! PROOFS. The register port: which register an offset selects, what a read and a write of each
register do (spec/10_state.md R22 to R24, R35), and what no event but two clears (R27 to R29). -/

namespace Sys2Proof.Machine

/-! ### Offsets -/

theorem regOffset_le (r : RegName) : regOffset r ≤ 0x2C := by
  cases r <;> decide

@[simp] theorem regAt_regOffset (r : RegName) : regAt (regOffset r) = some r := by
  cases r <;> rfl

theorem regOffset_of_regAt {offset : Nat} {r : RegName} (h : regAt offset = some r) :
    regOffset r = offset := by
  simpa using List.find?_some h

theorem regAt_reserved {offset : Nat} (h : 0x30 ≤ offset) : regAt offset = none := by
  refine List.find?_eq_none.mpr fun r _ => ?_
  have := regOffset_le r
  simp only [beq_iff_eq]
  omega

theorem portAccess_iff {offset bytes : Nat} :
    portAccess offset bytes = true ↔ bytes = 4 ∧ offset % 4 = 0 ∧ offset ≤ 0xFF := by
  simp only [portAccess, Bool.and_eq_true, decide_eq_true_eq, and_assoc]

theorem portAccess_regOffset (r : RegName) : portAccess (regOffset r) 4 = true := by
  cases r <;> rfl

/-! ### Accesses as steps -/

theorem step_event {s : State} {e : Event} {rest : List Event} (h : s.events = e :: rest) :
    step s = runEvent e { s with events := rest } := by
  simp only [step, runNext, h]

theorem step_regRead {s : State} {offset bytes : Nat} {rest : List Event}
    (hport : portAccess offset bytes = true) (h : s.events = .regRead offset bytes :: rest) :
    step s = .next { s with events := rest, reply := .word (readOffset s offset) } := by
  rw [step_event h, runEvent, if_pos hport]
  rfl

theorem step_regWrite {s : State} {offset bytes : Nat} {v : Word} {rest : List Event}
    (hport : portAccess offset bytes = true) (h : s.events = .regWrite offset bytes v :: rest) :
    step s = .next (writeOffset v offset { s with events := rest }) := by
  rw [step_event h, runEvent, if_pos hport]

theorem step_regRead_refused {s : State} {offset bytes : Nat} {rest : List Event}
    (hport : ¬ portAccess offset bytes = true) (h : s.events = .regRead offset bytes :: rest) :
    step s = .refused .regAccessOutsidePort := by
  rw [step_event h, runEvent, if_neg hport]

theorem step_regWrite_refused {s : State} {offset bytes : Nat} {v : Word} {rest : List Event}
    (hport : ¬ portAccess offset bytes = true) (h : s.events = .regWrite offset bytes v :: rest) :
    step s = .refused .regAccessOutsidePort := by
  rw [step_event h, runEvent, if_neg hport]

/-- A read of a register answers its value and changes nothing else (R23). -/
theorem step_readReg {s : State} {rest : List Event} (r : RegName)
    (h : s.events = .regRead (regOffset r) 4 :: rest) :
    step s = .next { s with events := rest, reply := .word (readReg s r) } := by
  simp only [step_regRead (portAccess_regOffset r) h, readOffset, regAt_regOffset]

theorem step_writeReg {s : State} {v : Word} {rest : List Event} (r : RegName)
    (h : s.events = .regWrite (regOffset r) 4 v :: rest) :
    step s = .next (writeReg v { s with events := rest } r) := by
  simp only [step_regWrite (portAccess_regOffset r) h, writeOffset, regAt_regOffset]

/-! ### Operand registers -/

/-- Only the operand register written reads otherwise, and it reads what was written (R23). -/
theorem readReg_writeReg_operand {r : RegName} (hr : r ∈ operandRegs) (v : Word) (s : State)
    (q : RegName) : readReg (writeReg v s r) q = if q = r then v else readReg s q := by
  simp only [operandRegs, List.mem_cons, List.not_mem_nil, or_false] at hr
  rcases hr with rfl | rfl | rfl | rfl | rfl | rfl <;> cases q <;> rfl

/-- A write of an operand register leaves memory, STATUS, the engine and the model's own fields. -/
theorem writeReg_operand_frame {r : RegName} (hr : r ∈ operandRegs) (v : Word) (s : State) :
    (writeReg v s r).mem = s.mem ∧ (writeReg v s r).status = s.status ∧
      (writeReg v s r).engine = s.engine ∧ (writeReg v s r).params = s.params ∧
      (writeReg v s r).events = s.events ∧ (writeReg v s r).reply = s.reply := by
  simp only [operandRegs, List.mem_cons, List.not_mem_nil, or_false] at hr
  rcases hr with rfl | rfl | rfl | rfl | rfl | rfl <;> exact ⟨rfl, rfl, rfl, rfl, rfl, rfl⟩

@[simp] theorem readReg_withEvents (s : State) (es : List Event) (r : RegName) :
    readReg { s with events := es } r = readReg s r := by
  cases r <;> rfl

/-- Settles O42: each write is a step of `step_writeReg`, and an operand register written changes no
other register. -/
theorem operandRegistersReadBack : Obligations.OperandRegistersReadBack := by
  intro s v rest
  refine ⟨step_writeReg .pkSrc, step_writeReg .pkDst, step_writeReg .pkLen, step_writeReg .enSrc,
    step_writeReg .enDst, step_writeReg .enLen, fun r hr h => ⟨_, step_writeReg r h, ?_, ?_, ?_⟩⟩
  · rw [readReg_writeReg_operand hr, if_pos rfl]
  · intro q hq
    rw [readReg_writeReg_operand hr, if_neg hq, readReg_withEvents]
  · exact writeReg_operand_frame hr v { s with events := rest }

/-! ### Registers with access R, and reserved offsets -/

theorem writeReg_readOnly {r : RegName} (hr : r ∈ readOnlyRegs) (v : Word) (s : State) :
    writeReg v s r = s := by
  simp only [readOnlyRegs, List.mem_cons, List.not_mem_nil, or_false] at hr
  rcases hr with rfl | rfl | rfl | rfl <;> rfl

theorem step_writeReg_readOnly {s : State} {v : Word} {rest : List Event} {r : RegName}
    (hr : r ∈ readOnlyRegs) (h : s.events = .regWrite (regOffset r) 4 v :: rest) :
    step s = .next { s with events := rest } := by
  rw [step_writeReg r h, writeReg_readOnly hr]

/-- Settles O43: the offsets written are those of the registers with access R, and the table of reads
lists every register with its offset and value. -/
theorem readOnlyRegistersAndReads : Obligations.ReadOnlyRegistersAndReads := by
  intro s v rest
  refine ⟨?_, fun r o x hmem => ?_⟩
  · rintro o (rfl | rfl | rfl | rfl)
    · exact step_writeReg_readOnly (r := .result) (by decide)
    · exact step_writeReg_readOnly (r := .enOutlen) (by decide)
    · exact step_writeReg_readOnly (r := .enRun) (by decide)
    · exact step_writeReg_readOnly (r := .enPrev) (by decide)
  · change (r, o, x) ∈ allRegs.map (fun q => (q, regOffset q, readReg s q)) at hmem
    obtain ⟨q, -, hq⟩ := List.mem_map.mp hmem
    cases hq
    exact ⟨rfl, rfl, step_readReg r⟩

/-- Settles O44: no register stands at 0x30 or above, and the port takes whole aligned words up to
0xFF only. -/
theorem reservedOffsetsAndRefusedAccesses : Obligations.ReservedOffsetsAndRefusedAccesses := by
  intro s o b v rest
  refine ⟨fun hb halign hlow hhigh => ?_, fun houtside => ?_⟩
  · have hport : portAccess o b = true := portAccess_iff.mpr ⟨hb, halign, by omega⟩
    have hnone := regAt_reserved hlow
    exact ⟨fun h => by rw [step_regRead hport h, readOffset, hnone],
      fun h => by rw [step_regWrite hport h, writeOffset, hnone]⟩
  · have hport : ¬ portAccess o b = true := by
      rw [portAccess_iff]
      omega
    exact ⟨step_regRead_refused hport, step_regWrite_refused hport⟩

/-! ### What only a STATUS write or a reset clears -/

theorem issue_keptIn (w : Word) (s : State) : s.status.KeptIn (issue w s).status := by
  unfold issue
  split
  case isTrue => exact recordStatus_keptIn _ _
  case isFalse => exact ⟨id, fun h => ⟨h, rfl⟩, id, id, id, id⟩

theorem writeReg_keptIn {r : RegName} (hr : r ≠ .status) (w : Word) (s : State) :
    s.status.KeptIn (writeReg w s r).status := by
  cases r
  case cmd => exact issue_keptIn w s
  case status => exact absurd rfl hr
  all_goals exact s.status.keptIn_self

theorem writeOffset_keptIn {offset : Nat} (ho : offset ≠ 0x04) (w : Word) (s : State) :
    s.status.KeptIn (writeOffset w offset s).status := by
  unfold writeOffset
  split
  case h_1 r hreg =>
    refine writeReg_keptIn ?_ w s
    rintro rfl
    exact ho (regOffset_of_regAt hreg).symm
  case h_2 => exact s.status.keptIn_self

theorem runEvent_keptIn {e : Event} {s t : State} (he : clearsStatus e = false)
    (h : runEvent e s = .next t) : s.status.KeptIn t.status := by
  cases e with
  | command w => exact runCommandWord_keptIn h
  | regRead offset bytes =>
    obtain ⟨-, rfl⟩ := runEvent_regRead_next h
    exact s.status.keptIn_self
  | regWrite offset bytes v =>
    obtain ⟨hport, rfl⟩ := runEvent_regWrite_next h
    refine writeOffset_keptIn ?_ v s
    simpa [clearsStatus, hport] using he
  | memRead a =>
    obtain ⟨-, rfl⟩ := runEvent_memRead_next h
    exact s.status.keptIn_self
  | memWrite a v =>
    obtain ⟨-, rfl⟩ := runEvent_memWrite_next h
    exact s.status.keptIn_self
  | poll =>
    obtain ⟨-, rfl⟩ | ⟨-, rfl⟩ := runEvent_poll_next h
    · exact engineTurn_keptIn { s with events := .poll :: s.events }
    · exact s.status.keptIn_self
  | reset => exact absurd he (by decide)
  | engineTurn =>
    cases h
    exact engineTurn_keptIn s

/-- Settles O52: turns and events other than a STATUS write and a reset keep what STATUS reports. -/
theorem onlyTheHostClearsStatus : Obligations.OnlyTheHostClearsStatus := by
  intro s t h hevents
  have hkept : s.status.KeptIn t.status := by
    obtain ⟨-, rfl⟩ | ⟨e, rest, hcons, hevent⟩ := step_next_cases h
    · exact engineTurn_keptIn s
    · exact runEvent_keptIn (s := { s with events := rest }) (hevents e (by simp [hcons])) hevent
  exact ⟨hkept.done, hkept.error, hkept.incomplete, hkept.trailing, hkept.nonbinary, hkept.overflow⟩

end Sys2Proof.Machine
end

section
/-! PROOFS. STATUS as the register port reads and clears it (spec/10_state.md R25, R30), and
RecordError (spec/60_exceptions.md R208). -/

namespace Sys2Proof.Machine

theorem errField_getLsbD (c : Option ErrorKind) (k : Nat) :
    (errField c).getLsbD k = (codeNumber c).testBit k := by
  have hcode : (errField c).toNat = codeNumber c := by rcases c with _ | _ | _ | _ | _ <;> rfl
  rw [← hcode, BitVec.testBit_toNat]

/-- Every bit of STATUS as it is read (R25); the bits not listed are reserved. -/
theorem statusWord_getLsbD (st : Status) (j : Nat) :
    (statusWord st).getLsbD j =
      if j = 0 then st.busy else if j = 1 then st.done else if j = 2 then st.error
      else if j = 4 ∨ j = 5 ∨ j = 6 then (codeNumber st.errcode).testBit (j - 4)
      else if j = 8 then st.incompleteGroupDropped else if j = 9 then st.trailingRunDiscarded
      else if j = 10 then st.nonbinarySymbol else if j = 11 then st.runOverflow else false := by
  by_cases hj : j < 12
  · simp only [statusWord, BitVec.getLsbD_append, errField_getLsbD]
    interval_cases j <;> simp
  · simp only [statusWord, BitVec.getLsbD_append]
    simp (disch := omega) [if_neg]

/-- Settles O40. -/
theorem statusBitsAreTheFields : Obligations.StatusBitsAreTheFields :=
  fun s => statusWord_getLsbD s.status

theorem codeNumber_clearStatus (w : Word) (st : Status) :
    codeNumber (clearStatus w st).errcode = if w.getLsbD 2 then 0 else codeNumber st.errcode := by
  rw [clearStatus, apply_ite codeNumber]
  rfl

/-- A write of STATUS as the words read before and after (R30). -/
theorem statusWord_clearStatus_getLsbD (w : Word) (st : Status) (j : Nat) :
    (statusWord (clearStatus w st)).getLsbD j =
      ((statusWord st).getLsbD j &&
        !(if j = 1 ∨ j = 2 ∨ j = 8 ∨ j = 9 ∨ j = 10 ∨ j = 11 then w.getLsbD j
          else if j = 4 ∨ j = 5 ∨ j = 6 then w.getLsbD 2 else false)) := by
  have hcode : ∀ k, (codeNumber (clearStatus w st).errcode).testBit k
      = ((codeNumber st.errcode).testBit k && !w.getLsbD 2) := by
    intro k
    rw [codeNumber_clearStatus]
    cases w.getLsbD 2 <;> simp
  rw [statusWord_getLsbD, statusWord_getLsbD, hcode]
  by_cases hj : j < 12
  · interval_cases j <;> simp [clearStatus]
  · simp (disch := omega) [if_neg]

/-- Settles O41: the write is a step of `step_writeReg`, and clears STATUS bit by bit. -/
theorem statusWriteClearsWhereOne : Obligations.StatusWriteClearsWhereOne := by
  intro s w rest h
  exact ⟨clearStatus w s.status, step_writeReg .status h, statusWord_clearStatus_getLsbD w s.status⟩

theorem recordError_of_noError {s : State} (e : ErrorKind) (h : s.status.error = false) :
    recordError e s = { s with status := { s.status with error := true, errcode := some e } } := by
  simp only [recordError, Status.recordError, h, Bool.false_eq_true, if_false]

theorem recordError_of_error {s : State} (e : ErrorKind) (h : s.status.error = true) :
    recordError e s = s := by
  simp only [recordError, Status.recordError, h, if_true]
  rw [← h]

/-- Settles O10, by the two cases of ERROR. -/
theorem recordErrorKeepsTheFirstCode : Obligations.RecordErrorKeepsTheFirstCode :=
  fun _ e => ⟨recordError_of_noError e, recordError_of_error e⟩

end Sys2Proof.Machine
end

section
/-! PROOFS. What each command writes (spec/10_state.md R40), and that it neither reads nor keeps the
engine's hidden state (R36, R37). -/

namespace Sys2Proof.Machine

theorem exec_withEngine {s : State} (h : s.status.busy = false) (i : Instr) (e : Engine) :
    exec i { s with engine := e } = exec i s := by
  rw [exec_idle h, exec_idle (s := { s with engine := e }) h]
  rfl

/-- Settles O12: acceptance overwrites the engine state, and completion leaves IDLE. -/
theorem noHiddenStateCarriesOver : Obligations.NoHiddenStateCarriesOver :=
  fun _ i e h => ⟨exec_withEngine h i e, _, exec_idle h i, finish_engine _ _⟩

/-- Of memory, the result registers and the flags, `t` differs from `s` only in what the command may
write (R40). -/
structure OwnWrites (i : Instr) (s t : State) : Prop where
  encRegs   : i ≠ .encode → t.enOutlen = s.enOutlen ∧ t.enRun = s.enRun ∧ t.enPrev = s.enPrev
  encFlags  : i ≠ .encode → t.status.trailingRunDiscarded = s.status.trailingRunDiscarded ∧
    t.status.runOverflow = s.status.runOverflow
  packFlags : i ≠ .pack → t.status.incompleteGroupDropped = s.status.incompleteGroupDropped ∧
    t.status.nonbinarySymbol = s.status.nonbinarySymbol
  mem       : i ≠ .pack → i ≠ .encode → t.mem = s.mem
  result    : i = .nop → t.result = s.result

theorem ownWrites_complete (i : Instr) (o : Option ErrorKind) (s : State) :
    OwnWrites i s (complete o s) := by
  cases o <;> exact ⟨fun _ => ⟨rfl, rfl, rfl⟩, fun _ => ⟨rfl, rfl⟩, fun _ => ⟨rfl, rfl⟩,
    fun _ _ => rfl, fun _ => rfl⟩

theorem ownWrites_finish_runBitOp {i : Instr} (hi : i ≠ .nop) (op : BitOp) (byte : Byte)
    (pos : BitVec 4) (s : State) : OwnWrites i s (finish s (runBitOp op byte pos s)) := by
  obtain ⟨-, h⟩ | ⟨-, h⟩ := runBitOp_cases op byte pos s <;> rw [h]
  · exact ownWrites_complete i _ s
  · exact ⟨fun _ => ⟨rfl, rfl, rfl⟩, fun _ => ⟨rfl, rfl⟩, fun _ => ⟨rfl, rfl⟩, fun _ _ => rfl,
      fun h => absurd h hi⟩

theorem ownWrites_finish_runOf (i : Instr) (l : Latched) (s : State) :
    OwnWrites i s (finish s (runOf i l s)) := by
  cases i with
  | nop => exact ownWrites_complete .nop none s
  | getBit byte pos => exact ownWrites_finish_runBitOp (i := .getBit byte pos) nofun .get byte pos s
  | setBit byte pos => exact ownWrites_finish_runBitOp (i := .setBit byte pos) nofun .set byte pos s
  | clearBit byte pos =>
    exact ownWrites_finish_runBitOp (i := .clearBit byte pos) nofun .clr byte pos s
  | pack =>
    obtain ⟨-, h⟩ | ⟨-, h⟩ := runPack_cases l s <;> rw [runOf, h]
    · exact ownWrites_complete .pack _ s
    · exact ⟨fun _ => ⟨rfl, rfl, rfl⟩, fun _ => ⟨rfl, rfl⟩, fun h => absurd rfl h,
        fun h => absurd rfl h, nofun⟩
  | encode =>
    obtain ⟨-, h⟩ | ⟨-, h⟩ := runEncode_cases l s <;> rw [runOf, h]
    · exact ownWrites_complete .encode _ s
    · exact ⟨fun h => absurd rfl h, fun h => absurd rfl h, fun _ => ⟨rfl, rfl⟩,
        fun _ h => absurd rfl h, nofun⟩

theorem exec_ownWrites {i : Instr} {s t : State} (h : exec i s = .next t) : OwnWrites i s t := by
  cases hbusy : s.status.busy
  · cases (exec_idle hbusy i).symm.trans h
    obtain ⟨hregs, hencFlags, hpackFlags, hmem, hresult⟩ :=
      ownWrites_finish_runOf i (latch s) (accept (some i) s)
    exact ⟨hregs, hencFlags, hpackFlags, hmem, hresult⟩
  · cases (exec_busy hbusy i).symm.trans h
    exact ⟨fun _ => ⟨rfl, rfl, rfl⟩, fun _ => ⟨rfl, rfl⟩, fun _ => ⟨rfl, rfl⟩, fun _ _ => rfl,
      fun _ => rfl⟩

theorem SameFrame.readReg_operand {s t : State} (h : SameFrame s t) {r : RegName}
    (hr : r ∈ operandRegs) : readReg t r = readReg s r := by
  simp only [operandRegs, List.mem_cons, List.not_mem_nil, or_false] at hr
  rcases hr with rfl | rfl | rfl | rfl | rfl | rfl
  · exact h.pkSrc
  · exact h.pkDst
  · exact h.pkLen
  · exact h.enSrc
  · exact h.enDst
  · exact h.enLen

/-- Settles O54: the frame every command keeps, and what each writes of the rest. -/
theorem commandsWriteOnlyTheirState : Obligations.CommandsWriteOnlyTheirState := by
  intro s i
  obtain ⟨t, hexec, frame⟩ := exec_frame i s
  have own := exec_ownWrites hexec
  refine ⟨t, hexec, fun r => frame.readReg_operand, fun hi => ?_, own.packFlags, own.mem, own.result,
    frame.params, frame.events, frame.reply⟩
  obtain ⟨houtlen, hrun, hprev⟩ := own.encRegs hi
  exact ⟨houtlen, hrun, hprev, own.encFlags hi⟩

end Sys2Proof.Machine
end

section
/-! PROOFS. The invariant: it holds after reset, and every turn of the engine and every event keeps it
(spec/10_state.md R28, R34, R37, spec/20_memory.md R50, spec/43_rle_encoder.md R169). -/

namespace Sys2Proof.Machine

open Sys2Proof.Config

/-! ### The part of the invariant that does not speak of the engine -/

/-- The clauses of `Inv` on memory, ERRCODE and EN_PREV; they hold while a command completes, when
BUSY and the engine change. -/
structure DataInv (s : State) : Prop where
  memWf     : Memory.wf s.mem
  memWithin : Memory.within s.mem (memBytes s.params)
  errIff    : errConsistent s.status
  prevByte  : s.enPrev.toNat < 256

theorem Inv.data {s : State} (h : Inv s) : DataInv s := ⟨h.memWf, h.memWithin, h.errIff, h.prevByte⟩

/-- The engine is past IDLE only while BUSY = 1 (R37). -/
theorem Inv.busy {s : State} (h : Inv s) (he : s.engine ≠ .idle) : s.status.busy = true :=
  Bool.of_not_eq_false (he ∘ h.idleIff.mpr)

theorem DataInv.writeCells {s : State} (h : DataInv s) {cs : List Host.Cell}
    (hcs : ∀ c ∈ cs, c.1 < memBytes s.params) :
    DataInv { s with mem := Machine.writeCells s.mem cs } :=
  ⟨writeCells_wf cs h.memWf, writeCells_within hcs h.memWithin, h.errIff, h.prevByte⟩

theorem DataInv.writeByte {s : State} (h : DataInv s) {a : Nat} (v : Byte)
    (ha : a < memBytes s.params) : DataInv { s with mem := Machine.writeByte s.mem a v } :=
  ⟨writeByte_wf a v h.memWf, writeByte_within v ha h.memWithin, h.errIff, h.prevByte⟩

theorem DataInv.accept {s : State} (h : DataInv s) (c : Option Instr) :
    DataInv (Machine.accept c s) :=
  ⟨h.memWf, h.memWithin, h.errIff, h.prevByte⟩

theorem DataInv.packFinish {s : State} (h : DataInv s) (l : Latched) (nonbin : Bool) :
    DataInv (Machine.packFinish l nonbin s) :=
  ⟨h.memWf, h.memWithin, h.errIff, h.prevByte⟩

/-- EN_PREV receives a byte (R34). -/
theorem DataInv.encFinish {s : State} (h : DataInv s) (bcnt k run : Word) (prev : Byte)
    (ovf : Bool) : DataInv (Machine.encFinish bcnt k run prev ovf s) := by
  refine ⟨h.memWf, h.memWithin, h.errIff, ?_⟩
  have := prev.isLt
  simp only [encFinish_enPrev, BitVec.toNat_setWidth]
  omega

theorem DataInv.complete {s : State} (h : DataInv s) (o : Option ErrorKind) :
    Inv (Machine.complete o s) where
  memWf     := h.memWf
  memWithin := h.memWithin
  idleIff   := by simp
  errIff    := statusComplete_errConsistent o h.errIff
  prevByte  := h.prevByte
  engine    := trivial

theorem DataInv.withResult {s : State} (h : DataInv s) (x : Word) :
    DataInv { s with result := x } :=
  ⟨h.memWf, h.memWithin, h.errIff, h.prevByte⟩

/-- While BUSY = 1 the engine may be in any state but IDLE, inside its checked ranges. -/
theorem DataInv.enter {s : State} (h : DataInv s) (hbusy : s.status.busy = true) {e : Engine}
    (he : e ≠ .idle) (hok : engineOk s.params e) : Inv { s with engine := e } where
  memWf     := h.memWf
  memWithin := h.memWithin
  idleIff   := by simp [he, hbusy]
  errIff    := h.errIff
  prevByte  := h.prevByte
  engine    := hok

/-! ### Commands -/

theorem finish_error_inv {s : State} (h : DataInv s) (e : ErrorKind) : Inv (finish s (.error e)) :=
  h.complete (some e)

theorem finish_runBitOp_inv {s : State} (h : DataInv s) (op : BitOp) (byte : Byte)
    (pos : BitVec 4) : Inv (finish s (runBitOp op byte pos s)) := by
  obtain ⟨-, hrun⟩ | ⟨-, hrun⟩ := runBitOp_cases op byte pos s <;> rw [hrun]
  · exact finish_error_inv h _
  · exact (h.withResult _).complete none

theorem finish_runPack_inv {s : State} (h : DataInv s) (l : Latched) :
    Inv (finish s (runPack l s)) := by
  obtain ⟨-, hrun⟩ | ⟨hrange, hrun⟩ := runPack_cases l s <;> rw [hrun]
  · exact finish_error_inv h _
  · obtain ⟨cs, hcs, hmem⟩ := packAll_writes s.params l s.mem
    obtain ⟨-, hdst⟩ := packInRange_iff.mp hrange
    have hgroups := groupCount_le l
    rw [hmem]
    exact ((h.writeCells fun c hc => by have := hcs c hc; omega).packFinish l _).complete none

theorem finish_runEncode_inv {s : State} (h : DataInv s) (l : Latched) :
    Inv (finish s (runEncode l s)) := by
  obtain ⟨-, hrun⟩ | ⟨hrange, hrun⟩ := runEncode_cases l s <;> rw [hrun]
  · exact finish_error_inv h _
  · obtain ⟨hlen, -, hdst⟩ := encInRange_iff.mp hrange
    obtain ⟨hk, -, cs, hcs, hmem⟩ := encAll_bounds s.params l s.mem hlen
    have hend := elemAddr_mono s.params l hk
    unfold elemAddr at hend hcs
    rw [hmem]
    exact ((h.writeCells fun c hc => by have := hcs c hc; omega).encFinish _ _ _ _ _).complete none

theorem finish_runOf_inv {s : State} (h : DataInv s) (i : Instr) (l : Latched) :
    Inv (finish s (runOf i l s)) := by
  cases i with
  | nop => exact h.complete none
  | getBit byte pos => exact finish_runBitOp_inv h .get byte pos
  | setBit byte pos => exact finish_runBitOp_inv h .set byte pos
  | clearBit byte pos => exact finish_runBitOp_inv h .clr byte pos
  | pack => exact finish_runPack_inv h l
  | encode => exact finish_runEncode_inv h l

theorem recordError_inv {s : State} (h : Inv s) (e : ErrorKind) : Inv (recordError e s) :=
  ⟨h.memWf, h.memWithin, h.idleIff, recordStatus_errConsistent e h.errIff, h.prevByte, h.engine⟩

theorem runCommandWord_inv {w : Word} {s t : State} (h : Inv s)
    (hrun : runCommandWord w s = .next t) : Inv t := by
  obtain ⟨-, hw⟩ | ⟨-, i, -, hw⟩ | ⟨-, -, hw⟩ := runCommandWord_cases w s <;>
    cases hw.symm.trans hrun
  · exact recordError_inv h _
  · exact finish_runOf_inv (h.data.accept (some i)) i (latch s)
  · exact (h.data.accept none).complete _

/-! ### Turns of the packer -/

theorem turnAccepted_inv {s : State} (h : DataInv s) (hbusy : s.status.busy = true)
    (c : Option Instr) (l : Latched) : Inv (turnAccepted c l s) := by
  cases c with
  | none => exact finish_error_inv h .illegalCommand
  | some i =>
    cases i with
    | pack => exact h.enter hbusy nofun trivial
    | encode => exact h.enter hbusy nofun trivial
    | nop => exact finish_runOf_inv h .nop l
    | getBit byte pos => exact finish_runOf_inv h (.getBit byte pos) l
    | setBit byte pos => exact finish_runOf_inv h (.setBit byte pos) l
    | clearBit byte pos => exact finish_runOf_inv h (.clearBit byte pos) l

theorem turnPkCheck_inv {s : State} (h : DataInv s) (hbusy : s.status.busy = true) (l : Latched) :
    Inv (turnPkCheck l s) := by
  unfold turnPkCheck
  split
  case isTrue hrange =>
    split
    case isTrue => exact h.enter hbusy nofun trivial
    case isFalse hgroups => exact h.enter hbusy nofun ⟨hrange, Nat.pos_of_ne_zero hgroups⟩
  case isFalse => exact h.enter hbusy nofun trivial

/-- The slot of an element of a complete group lies in memory (R138). -/
theorem slotAddr_lt {P : Params} {l : Latched} {g : Nat} (hrange : packInRange P l = true)
    (hg : g < groupCount l) (i : BitVec 3) : slotAddr l (packIndex g i.toNat) < memBytes P := by
  obtain ⟨-, hdst⟩ := packInRange_iff.mp hrange
  have hgroups := groupCount_le l
  have hi := i.isLt
  unfold slotAddr packIndex
  omega

theorem DataInv.packElemAt {s : State} (h : DataInv s) {l : Latched} {r : PackRegs}
    (hrange : packInRange s.params l = true) (hg : r.g.toNat < groupCount l) :
    DataInv { s with mem := (Machine.packElemAt s.params l r s.mem).mem } := by
  obtain ⟨cs, -, hcs, hmem⟩ := packElem_writes s.params l (packIndex r.g.toNat r.i.toNat) r.i
    { mem := s.mem, acc := r.acc, nonbin := r.nonbin }
  rw [Machine.packElemAt, hmem]
  exact h.writeCells fun c hc => hcs c hc ▸ slotAddr_lt hrange hg r.i

theorem turnPkElem_inv {s : State} (h : DataInv s) (hbusy : s.status.busy = true) {l : Latched}
    {r : PackRegs} (hrange : packInRange s.params l = true) (hg : r.g.toNat < groupCount l) :
    Inv (turnPkElem l r s) := by
  have hdata := h.packElemAt hrange hg
  unfold turnPkElem
  dsimp only
  split
  case isTrue =>
    split
    case isTrue => exact hdata.enter hbusy nofun trivial
    case isFalse hlast =>
      refine hdata.enter hbusy nofun ⟨hrange, ?_⟩
      have hnext : (r.g + 1).toNat = r.g.toNat + 1 :=
        word_succ le_rfl (by have := l.pkLen.isLt; have := groupCount_le l; omega)
      dsimp only
      omega
  case isFalse => exact hdata.enter hbusy nofun ⟨hrange, hg⟩

/-! ### Turns of the encoder -/

/-- The element emitted below the length lies in memory (R169). -/
theorem emitPend_within {P : Params} {l : Latched} {r : EncRegs} (hrange : encInRange P l = true)
    (hk : r.k.toNat < l.enLen.toNat) (x : Word) :
    ∀ c ∈ (emitPend P l x r).pend, c.1 < memBytes P := by
  intro c hc
  obtain ⟨-, -, hdst⟩ := encInRange_iff.mp hrange
  have haddr := elemCells_addr hc
  have hend := elemAddr_mono P l (Nat.succ_le_of_lt hk)
  rw [Nat.succ_eq_add_one, elemAddr_succ] at hend
  unfold elemAddr at haddr hend
  omega

theorem scanOrFinish_ne_idle (l : Latched) (r : EncRegs) : scanOrFinish l r ≠ .idle := by
  unfold scanOrFinish
  split <;> nofun

theorem scanOrFinish_ok {P : Params} {l : Latched} {r : EncRegs} (hrange : encInRange P l = true)
    (hki : r.k.toNat ≤ r.i.toNat) (hi : r.i.toNat ≤ l.enLen.toNat)
    (hpend : ∀ c ∈ r.pend, c.1 < memBytes P) : engineOk P (scanOrFinish l r) := by
  unfold scanOrFinish
  split
  case isTrue hlt => exact ⟨hrange, hlt, hki, hpend⟩
  case isFalse => exact ⟨hrange, hki.trans hi, hpend⟩

theorem turnEnCheck_inv {s : State} (h : DataInv s) (hbusy : s.status.busy = true) (l : Latched) :
    Inv (turnEnCheck l s) := by
  unfold turnEnCheck
  split
  case isTrue hrange => exact h.enter hbusy nofun hrange
  case isFalse => exact h.enter hbusy nofun trivial

theorem startCursor_le_one (P : Params) (v0 : Byte) : (startCursor P v0).toNat ≤ 1 := by
  obtain ⟨-, h⟩ | ⟨-, -, h⟩ | ⟨-, -, h⟩ := startCursor_cases P v0 <;> rw [h] <;> decide

theorem turnEnPre_inv {s : State} (h : DataInv s) (hbusy : s.status.busy = true) {l : Latched}
    (hrange : encInRange s.params l = true) : Inv (turnEnPre l s) := by
  refine h.enter hbusy (scanOrFinish_ne_idle _ _) ?_
  have hcursor := startCursor_le_one s.params (readByte s.mem (packedAddr l 0))
  obtain ⟨hlen, -, -⟩ := encInRange_iff.mp hrange
  split
  case isTrue hzero =>
    refine scanOrFinish_ok hrange ?_ ?_ ?_
    · simp [emitPend, startCursor, hzero]
    · exact hcursor.trans (Nat.one_le_iff_ne_zero.mpr hlen)
    · refine emitPend_within hrange ?_ 0
      exact Nat.pos_of_ne_zero hlen
  case isFalse =>
    exact scanOrFinish_ok hrange (Nat.zero_le _) (hcursor.trans (Nat.one_le_iff_ne_zero.mpr hlen))
      nofun

/-- Scanning an index goes on to the next, emits at most one element, and emits it in memory. -/
theorem encIndexAt_bounds {P : Params} {l : Latched} {r : EncRegs} (hrange : encInRange P l = true)
    (hi : r.i.toNat < l.enLen.toNat) (hki : r.k.toNat ≤ r.i.toNat) (hpend : r.pend = [])
    (v : Byte) :
    (encIndexAt P l v r).i.toNat = r.i.toNat + 1 ∧
      (encIndexAt P l v r).k.toNat ≤ r.i.toNat + 1 ∧
      ∀ c ∈ (encIndexAt P l v r).pend, c.1 < memBytes P := by
  have hlen := l.enLen.isLt
  have hnext : (r.i + 1).toNat = r.i.toNat + 1 := word_succ le_rfl (by omega)
  have hk : (r.k + 1).toNat = r.k.toNat + 1 := word_succ le_rfl (by omega)
  unfold encIndexAt
  dsimp only
  split
  case isTrue => exact ⟨hnext, Nat.le_succ_of_le hki, by simp [hpend]⟩
  case isFalse =>
    refine ⟨hnext, ?_, emitPend_within hrange (hki.trans_lt hi) _⟩
    simp only [emitPend, hk]
    omega

theorem turnEnScan_inv {s : State} (h : DataInv s) (hbusy : s.status.busy = true) {l : Latched}
    {r : EncRegs} (hok : engineOk s.params (.enScan l r)) : Inv (turnEnScan l r s) := by
  obtain ⟨hrange, hi, hki, hpend⟩ := hok
  unfold turnEnScan
  split
  case h_1 c cs hcons =>
    rw [hcons] at hpend
    obtain ⟨hc, hcs⟩ := List.forall_mem_cons.mp hpend
    exact (h.writeByte c.2 hc).enter hbusy nofun ⟨hrange, hi, hki, hcs⟩
  case h_2 hnil =>
    obtain ⟨hi', hk', hpend'⟩ := encIndexAt_bounds hrange hi hki hnil
      (readByte s.mem (packedAddr l r.i.toNat))
    exact h.enter hbusy (scanOrFinish_ne_idle _ _)
      (scanOrFinish_ok hrange (by omega) (by omega) hpend')

theorem turnEnFinish_inv {s : State} (h : DataInv s) (hbusy : s.status.busy = true) {l : Latched}
    {r : EncRegs} (hok : engineOk s.params (.enFinish l r)) : Inv (turnEnFinish l r s) := by
  obtain ⟨hrange, hk, hpend⟩ := hok
  unfold turnEnFinish
  split
  case h_1 c cs hcons =>
    rw [hcons] at hpend
    obtain ⟨hc, hcs⟩ := List.forall_mem_cons.mp hpend
    exact (h.writeByte c.2 hc).enter hbusy nofun ⟨hrange, hk, hcs⟩
  case h_2 => exact (h.encFinish _ _ _ _ _).complete none

theorem engineTurn_inv {s : State} (h : Inv s) : Inv (engineTurn s) := by
  by_cases hidle : s.engine = .idle
  · rwa [engineTurn_idle hidle]
  have hbusy := h.busy hidle
  have hdata := h.data
  have hok := h.engine
  unfold engineTurn
  cases he : s.engine <;> rw [he] at hok <;> dsimp only
  case idle => exact h
  case accepted c l => exact turnAccepted_inv hdata hbusy c l
  case pkCheck l => exact turnPkCheck_inv hdata hbusy l
  case pkElem l r =>
    obtain ⟨hrange, hg⟩ := hok
    exact turnPkElem_inv hdata hbusy hrange hg
  case pkFinish l r => exact (hdata.packFinish l r.nonbin).complete none
  case pkEnd e => exact hdata.complete (some e)
  case enCheck l => exact turnEnCheck_inv hdata hbusy l
  case enPre l => exact turnEnPre_inv hdata hbusy hok
  case enScan l r => exact turnEnScan_inv hdata hbusy hok
  case enFinish l r => exact turnEnFinish_inv hdata hbusy hok
  case enEnd e => exact hdata.complete (some e)

/-! ### Events -/

theorem Inv.withEvents {s : State} (h : Inv s) (es : List Event) : Inv { s with events := es } :=
  ⟨h.memWf, h.memWithin, h.idleIff, h.errIff, h.prevByte, h.engine⟩

theorem Inv.withReply {s : State} (h : Inv s) (x : Reply) : Inv { s with reply := x } :=
  ⟨h.memWf, h.memWithin, h.idleIff, h.errIff, h.prevByte, h.engine⟩

theorem powerOn_inv {P : Params} {m : Memory} (hwf : Memory.wf m)
    (hwithin : Memory.within m (memBytes P)) : Inv (State.powerOn P m) where
  memWf     := hwf
  memWithin := hwithin
  idleIff   := ⟨fun _ => rfl, fun _ => rfl⟩
  errIff    := ⟨fun _ => rfl, fun _ => rfl⟩
  prevByte  := (by decide : (0 : Word).toNat < 256)
  engine    := trivial

theorem resetCore_inv {s : State} (h : Inv s) : Inv (resetCore s) :=
  ((powerOn_inv h.memWf h.memWithin).withEvents s.events).withReply s.reply

theorem issue_inv {s : State} (h : Inv s) (w : Word) : Inv (issue w s) := by
  unfold issue
  split
  case isTrue => exact recordError_inv h _
  case isFalse => exact DataInv.enter (s := accept none s) (h.data.accept none) rfl nofun trivial

theorem clearStatus_inv {s : State} (h : Inv s) (w : Word) :
    Inv { s with status := clearStatus w s.status } :=
  ⟨h.memWf, h.memWithin, h.idleIff, clearStatus_errConsistent w h.errIff, h.prevByte, h.engine⟩

theorem writeReg_inv {s : State} (h : Inv s) (w : Word) (r : RegName) : Inv (writeReg w s r) := by
  cases r
  case cmd => exact issue_inv h w
  case status => exact clearStatus_inv h w
  all_goals exact ⟨h.memWf, h.memWithin, h.idleIff, h.errIff, h.prevByte, h.engine⟩

theorem writeOffset_inv {s : State} (h : Inv s) (w : Word) (offset : Nat) :
    Inv (writeOffset w offset s) := by
  unfold writeOffset
  split
  case h_1 r _ => exact writeReg_inv h w r
  case h_2 => exact h

/-- The memory port serves an address of memory while BUSY = 0 (R53, R241). -/
theorem memPortRefusal_eq_none {s : State} {a : Nat} :
    memPortRefusal s a = none ↔ s.status.busy = false ∧ a < memBytes s.params := by
  unfold memPortRefusal
  cases s.status.busy <;> simp

theorem memWrite_inv {s : State} (h : Inv s) {a : Nat} (ha : a < memBytes s.params) (v : Byte) :
    Inv { s with mem := writeByte s.mem a v } :=
  ⟨writeByte_wf a v h.memWf, writeByte_within v ha h.memWithin, h.idleIff, h.errIff, h.prevByte,
    h.engine⟩

theorem runEvent_inv {e : Event} {s t : State} (hs : Inv s) (h : runEvent e s = .next t) :
    Inv t := by
  cases e with
  | command w => exact runCommandWord_inv hs h
  | regRead offset bytes =>
    obtain ⟨-, rfl⟩ := runEvent_regRead_next h
    exact hs.withReply _
  | regWrite offset bytes v =>
    obtain ⟨-, rfl⟩ := runEvent_regWrite_next h
    exact writeOffset_inv hs v offset
  | memRead a =>
    obtain ⟨-, rfl⟩ := runEvent_memRead_next h
    exact hs.withReply _
  | memWrite a v =>
    obtain ⟨hport, rfl⟩ := runEvent_memWrite_next h
    obtain ⟨-, ha⟩ := memPortRefusal_eq_none.mp hport
    exact memWrite_inv hs ha v
  | poll =>
    obtain ⟨-, rfl⟩ | ⟨-, rfl⟩ := runEvent_poll_next h
    · exact engineTurn_inv (hs.withEvents _)
    · exact hs.withReply _
  | reset =>
    cases h
    exact resetCore_inv hs
  | engineTurn =>
    cases h
    exact engineTurn_inv hs

/-- Settles O49: power-on with no byte of memory listed. -/
theorem resetMeetsTheInvariant : Obligations.ResetMeetsTheInvariant :=
  powerOn_inv reset_mem_wf nofun

/-- Settles O50: every turn of the engine and every event keeps the invariant. -/
theorem everyStepKeepsTheInvariant : Obligations.EveryStepKeepsTheInvariant := by
  intro s t hs h
  obtain ⟨-, rfl⟩ | ⟨e, rest, -, hevent⟩ := step_next_cases h
  · exact engineTurn_inv hs
  · exact runEvent_inv (hs.withEvents rest) hevent

end Sys2Proof.Machine
end

section
/-! PROOFS. Memory: the bytes of a wide access (spec/20_memory.md R55, R56), the canonical form, and
the host's port (R53, R241). -/

namespace Sys2Proof.Machine

/-! ### Wide accesses -/

/-- The least significant byte is written first, then the rest of the value above it (R55). -/
theorem memWrite_succ (m : Memory) (a n v : Nat) : memWrite m a (n + 1) v
    = memWrite (writeByte m a (BitVec.ofNat 8 (v % 256))) (a + 1) n (v / 256) := rfl

theorem memRead_succ (m : Memory) (a n : Nat) :
    memRead m a (n + 1) = (readByte m a).toNat + 256 * memRead m (a + 1) n := rfl

theorem readByte_memWrite_zero (m : Memory) (a n v : Nat) :
    (readByte (memWrite m a (n + 1) v) a).toNat = v % 256 := by
  rw [memWrite_succ, readByte_memWrite_other (.inl (Nat.lt_succ_self a)), readByte_writeByte_same]
  simp

theorem readByte_memWrite_inside (m : Memory) (a : Nat) {n : Nat} (v : Nat) {j : Nat} (hj : j < n) :
    (readByte (memWrite m a n v) (a + j)).toNat = v / 2 ^ (8 * j) % 256 := by
  induction n generalizing m a v j with
  | zero => omega
  | succ n ih =>
    cases j with
    | zero => simpa using readByte_memWrite_zero m a n v
    | succ j =>
      rw [memWrite_succ, show a + (j + 1) = a + 1 + j by omega, ih _ _ _ (by omega),
        Nat.div_div_eq_div_mul, Nat.mul_succ, Nat.add_comm (8 * j) 8, pow_add]
      rfl

theorem memRead_memWrite_same (m : Memory) (a n v : Nat) :
    memRead (memWrite m a n v) a n = v % 2 ^ (8 * n) := by
  induction n generalizing m a v with
  | zero => simp [memRead, Nat.mod_one]
  | succ n ih =>
    rw [memRead_succ, readByte_memWrite_zero, memWrite_succ, ih, Nat.mul_succ,
      Nat.add_comm (8 * n) 8, pow_add, Nat.mod_mul]
    rfl

theorem memRead_eq_sum (m : Memory) (a n : Nat) : memRead m a n
    = ((List.range n).map (fun j => (readByte m (a + j)).toNat * 2 ^ (8 * j))).sum := by
  induction n generalizing a with
  | zero => rfl
  | succ n ih =>
    have hshift : ∀ j, (readByte m (a + (j + 1))).toNat * 2 ^ (8 * (j + 1))
        = 256 * ((readByte m (a + 1 + j)).toNat * 2 ^ (8 * j)) := fun j => by
      rw [Nat.mul_succ, pow_add, show a + (j + 1) = a + 1 + j by omega]
      ring
    rw [memRead_succ, ih, List.range_succ_eq_map, List.map_cons, List.map_map, List.sum_cons,
      ← List.sum_map_mul_left]
    simp only [Function.comp_def, Nat.succ_eq_add_one, hshift, Nat.add_zero, Nat.mul_zero, pow_zero,
      Nat.mul_one]

/-- Settles O46: a byte of the written value, the bytes around it, and the value read, each by
induction on the width. -/
theorem wideAccessesAreLittleEndian : Obligations.WideAccessesAreLittleEndian :=
  fun m a n v => ⟨fun _ => readByte_memWrite_inside m a v, fun _ => readByte_memWrite_other,
    memRead_memWrite_same m a n v, memRead_eq_sum m a n⟩

/-! ### The canonical form -/

/-- An address below every listed one reads as unlisted. -/
theorem readByte_of_forall_lt {m : Memory} {a : Nat} (h : ∀ c ∈ m, a < c.1) :
    readByte m a = unlisted a := by
  induction m with
  | nil => rfl
  | cons c m ih =>
    obtain ⟨hc, hm⟩ := List.forall_mem_cons.mp h
    rw [readByte, if_neg hc.ne', ih hm]

theorem readByte_cons_same (c : Host.Cell) (m : Memory) : readByte (c :: m) c.1 = c.2 := if_pos rfl

theorem readByte_cons_other {c : Host.Cell} {a : Nat} (h : c.1 ≠ a) (m : Memory) :
    readByte (c :: m) a = readByte m a := if_neg h

theorem Memory.wf.tail {c : Host.Cell} {m : Memory} (h : Memory.wf (c :: m)) : Memory.wf m :=
  ⟨(List.pairwise_cons.mp h.1).2, (List.forall_mem_cons.mp h.2).2⟩

theorem Memory.wf.head_lt {c : Host.Cell} {m : Memory} (h : Memory.wf (c :: m)) :
    ∀ d ∈ m, c.1 < d.1 := (List.pairwise_cons.mp h.1).1

/-- The first listed address of a canonical memory does not read as unlisted, so no canonical memory
with the same bytes lists only addresses above it. -/
theorem Memory.wf.exists_le_head {c : Host.Cell} {m m' : Memory} (h : Memory.wf (c :: m))
    (hread : readByte (c :: m) c.1 = readByte m' c.1) : ∃ d ∈ m', d.1 ≤ c.1 := by
  by_contra! hlt
  rw [readByte_cons_same, readByte_of_forall_lt hlt] at hread
  exact h.2 c (by simp) hread

/-- The first addresses of two canonical memories with the same bytes are the same. -/
theorem Memory.wf.head_le_head {c d : Host.Cell} {m m' : Memory} (h : Memory.wf (c :: m))
    (h' : Memory.wf (d :: m')) (hread : readByte (c :: m) c.1 = readByte (d :: m') c.1) :
    d.1 ≤ c.1 := by
  obtain ⟨e, he, hle⟩ := h.exists_le_head hread
  obtain rfl | he := List.mem_cons.mp he
  · exact hle
  · exact (h'.head_lt e he).le.trans hle

/-- Settles O47: the first entries are the same, and the rest by induction. -/
theorem canonicalMemoryIsUnique : Obligations.CanonicalMemoryIsUnique := by
  intro m
  induction m with
  | nil =>
    rintro (_ | ⟨d, m'⟩) - h' hread
    · rfl
    · obtain ⟨e, he, -⟩ := h'.exists_le_head (hread d.1).symm
      cases he
  | cons c m ih =>
    rintro (_ | ⟨d, m'⟩) h h' hread
    · obtain ⟨e, he, -⟩ := h.exists_le_head (hread c.1)
      cases he
    · have haddr : c.1 = d.1 :=
        le_antisymm (h'.head_le_head h (hread d.1).symm) (h.head_le_head h' (hread c.1))
      have hbyte : c.2 = d.2 := by
        rw [← readByte_cons_same c m, hread, haddr, readByte_cons_same]
      refine congrArg₂ _ (Prod.ext haddr hbyte) (ih m' h.tail h'.tail fun a => ?_)
      by_cases ha : c.1 = a
      · subst ha
        rw [readByte_of_forall_lt h.head_lt, readByte_of_forall_lt (haddr ▸ h'.head_lt)]
      · rw [← readByte_cons_other ha, hread, readByte_cons_other (haddr ▸ ha)]

/-! ### The host's memory port -/

theorem memPortRefusal_busy {s : State} (h : s.status.busy = true) (a : Nat) :
    memPortRefusal s a = some .hostAccessWhileBusy := if_pos h

theorem memPortRefusal_outside {s : State} {a : Nat} (h : s.status.busy = false)
    (ha : memBytes s.params ≤ a) : memPortRefusal s a = some .hostAccessOutsideMemory := by
  simp [memPortRefusal, h, Nat.not_lt.mpr ha]

/-- What the port refuses is refused for a read and for a write alike. -/
theorem step_memPort_refused {s : State} {a : Nat} {v : Byte} {rest : List Event} {r : Refusal}
    (h : s.events = .memRead a :: rest ∨ s.events = .memWrite a v :: rest)
    (hport : memPortRefusal { s with events := rest } a = some r) : step s = .refused r := by
  obtain h | h := h <;> simp only [step_event h, runEvent, hport]

theorem step_memRead {s : State} {a : Nat} {rest : List Event} (h : s.events = .memRead a :: rest)
    (hport : memPortRefusal { s with events := rest } a = none) :
    step s = .next { s with events := rest, reply := .byte (readByte s.mem a) } := by
  simp only [step_event h, runEvent, hport]

theorem step_memWrite {s : State} {a : Nat} {v : Byte} {rest : List Event}
    (h : s.events = .memWrite a v :: rest)
    (hport : memPortRefusal { s with events := rest } a = none) :
    step s = .next { s with events := rest, mem := writeByte s.mem a v } := by
  simp only [step_event h, runEvent, hport]

/-- Settles O45: the port refuses by BUSY, then by the address, and else serves the byte. -/
theorem hostMemoryAccess : Obligations.HostMemoryAccess := by
  intro s a v rest
  refine ⟨fun h => ⟨fun hbusy => ?_, fun hidle ha => ?_⟩, fun hidle ha => ?_⟩
  · exact step_memPort_refused h (memPortRefusal_busy (s := { s with events := rest }) hbusy a)
  · exact step_memPort_refused h (memPortRefusal_outside (s := { s with events := rest }) hidle ha)
  · have hport : memPortRefusal { s with events := rest } a = none :=
      memPortRefusal_eq_none.mpr ⟨hidle, ha⟩
    exact ⟨fun h => step_memRead h hport, fun h => ⟨_, step_memWrite h hport,
      readByte_writeByte_same _ _ _, fun b hb => readByte_writeByte_other _ _ hb⟩⟩

end Sys2Proof.Machine
end

section
/-! PROOFS. Who writes memory (spec/20_memory.md R52): a turn of the engine only in PACK or ENCODE,
a command word only for PACK and ENCODE, and of the other events only the host's memory write. -/

namespace Sys2Proof.Machine

theorem turnAccepted_mem (c : Option Instr) (l : Latched) (s : State) :
    (turnAccepted c l s).mem = s.mem := by
  cases c with
  | none => rfl
  | some i =>
    cases i with
    | pack => rfl
    | encode => rfl
    | nop => rfl
    | getBit byte pos => exact (ownWrites_finish_runOf (.getBit byte pos) l s).mem nofun nofun
    | setBit byte pos => exact (ownWrites_finish_runOf (.setBit byte pos) l s).mem nofun nofun
    | clearBit byte pos => exact (ownWrites_finish_runOf (.clearBit byte pos) l s).mem nofun nofun

/-- A turn of an engine outside PACK and ENCODE leaves memory alone. -/
theorem engineTurn_mem {s : State} (h : engineUsesMemory s.engine = false) :
    (engineTurn s).mem = s.mem := by
  unfold engineTurn
  cases he : s.engine <;> rw [he] at h
  case accepted c l => exact turnAccepted_mem c l s
  case pkEnd e => rfl
  case enEnd e => rfl
  all_goals cases h

theorem runCommandWord_mem {w : Word} {s t : State} (hw : eventUsesMemory (.command w) = false)
    (h : runCommandWord w s = .next t) : t.mem = s.mem := by
  obtain ⟨-, hrun⟩ | ⟨-, i, hi, hrun⟩ | ⟨-, -, hrun⟩ := runCommandWord_cases w s <;>
    cases hrun.symm.trans h
  · rfl
  · simp only [eventUsesMemory, hi, Option.some.injEq, Bool.or_eq_false_iff,
      decide_eq_false_iff_not] at hw
    obtain ⟨hpack, hencode⟩ := hw
    exact (ownWrites_finish_runOf i (latch s) (accept (some i) s)).mem hpack hencode
  · rfl

@[simp] theorem issue_mem (w : Word) (s : State) : (issue w s).mem = s.mem := by
  unfold issue
  split <;> rfl

@[simp] theorem writeReg_mem (w : Word) (s : State) (r : RegName) :
    (writeReg w s r).mem = s.mem := by
  cases r
  case cmd => exact issue_mem w s
  all_goals rfl

@[simp] theorem writeOffset_mem (w : Word) (offset : Nat) (s : State) :
    (writeOffset w offset s).mem = s.mem := by
  unfold writeOffset
  split
  case h_1 r _ => exact writeReg_mem w s r
  case h_2 => rfl

theorem runEvent_mem {e : Event} {s t : State} (he : eventUsesMemory e = false)
    (hengine : engineUsesMemory s.engine = false) (h : runEvent e s = .next t) : t.mem = s.mem := by
  cases e with
  | command w => exact runCommandWord_mem he h
  | regRead offset bytes =>
    obtain ⟨-, rfl⟩ := runEvent_regRead_next h
    rfl
  | regWrite offset bytes v =>
    obtain ⟨-, rfl⟩ := runEvent_regWrite_next h
    exact writeOffset_mem v offset s
  | memRead a =>
    obtain ⟨-, rfl⟩ := runEvent_memRead_next h
    rfl
  | memWrite a v => cases he
  | poll =>
    obtain ⟨-, rfl⟩ | ⟨-, rfl⟩ := runEvent_poll_next h
    · exact engineTurn_mem (s := { s with events := .poll :: s.events }) hengine
    · rfl
  | reset =>
    cases h
    exact resetCore_mem s
  | engineTurn =>
    cases h
    exact engineTurn_mem hengine

/-- Settles O53: turns outside PACK and ENCODE and the other events leave memory alone. -/
theorem onlyPackEncodeAndTheHostWriteMemory : Obligations.OnlyPackEncodeAndTheHostWriteMemory := by
  intro s t h hengine hevents
  obtain ⟨-, rfl⟩ | ⟨e, rest, hcons, hevent⟩ := step_next_cases h
  · exact engineTurn_mem hengine
  · exact runEvent_mem (s := { s with events := rest }) (hevents e (by simp [hcons])) hengine hevent

end Sys2Proof.Machine
end

section
/-! PROOFS. What PACK leaves in each slot (spec/42_bit_packer.md R132 to R134): the loop reads every
symbol and slot as it was before the command, and the accumulator holds the group's ones so far. -/

namespace Sys2Proof.Machine

open Sys2Proof.Config

/-! ### One element -/

/-- The byte an element leaves in its slot, from the symbol, the slot's prior byte and the
accumulator. -/
def slotResult (P : Params) (sym slot acc : Byte) (pos : BitVec 3) : Byte :=
  let op := packOperandByte P acc slot
  if sym = symbolOne then setBit op pos
  else if sym = symbolZero then clearBit op pos
  else (packOtherByte P sym op).getD slot

/-- The accumulator after an element under ACCUM, from the symbol and the accumulator before. -/
def accResult (sym acc : Byte) (pos : BitVec 3) : Byte :=
  if sym = symbolOne then setBit acc pos
  else if sym = symbolZero then clearBit acc pos
  else acc

theorem packOther_slot (P : Params) (slot : Nat) (sym op : Byte) (st : PackLoop) :
    readByte (packOther P slot sym op st).mem slot
      = (packOtherByte P sym op).getD (readByte st.mem slot) := by
  unfold packOther
  split
  case h_1 b hb => rw [hb, readByte_writeByte_same, Option.getD_some]
  case h_2 hb => rw [hb, Option.getD_none]

@[simp] theorem packOther_acc (P : Params) (slot : Nat) (sym op : Byte) (st : PackLoop) :
    (packOther P slot sym op st).acc = st.acc := by
  unfold packOther
  split <;> rfl

theorem packElem_slot (P : Params) (l : Latched) (idx : Nat) (pos : BitVec 3) (st : PackLoop) :
    readByte (packElem P l idx pos st).mem (slotAddr l idx)
      = slotResult P (readByte st.mem (symbolAddr l idx)) (readByte st.mem (slotAddr l idx))
          st.acc pos := by
  unfold packElem slotResult
  dsimp only
  split
  case isTrue => exact readByte_writeByte_same _ _ _
  case isFalse =>
    split
    case isTrue => exact readByte_writeByte_same _ _ _
    case isFalse => exact packOther_slot _ _ _ _ _

theorem packElem_acc {P : Params} (hP : P.packOperand = .accum) (l : Latched) (idx : Nat)
    (pos : BitVec 3) (st : PackLoop) : (packElem P l idx pos st).acc
      = accResult (readByte st.mem (symbolAddr l idx)) st.acc pos := by
  have hop : ∀ slot, packOperandByte P st.acc slot = st.acc := fun slot => by
    simp only [packOperandByte, hP]
  unfold packElem accResult
  simp only [hop]
  split
  case isTrue => exact if_pos hP
  case isFalse =>
    split
    case isTrue => exact if_pos hP
    case isFalse => exact packOther_acc _ _ _ _ _

/-! ### The loop over the absolute index -/

@[simp] theorem enterElem_mem (n : Nat) (st : PackLoop) : (enterElem n st).mem = st.mem := rfl

theorem packAfter_succ (P : Params) (l : Latched) (m : Memory) (n : Nat) : packAfter P l m (n + 1)
    = packElem P l n (BitVec.ofNat 3 (n % 8)) (enterElem n (packAfter P l m n)) := rfl

theorem packAfter_eq_packFrom (P : Params) (l : Latched) (m : Memory) (n : Nat) : packAfter P l m n
    = packFrom P l n 0 { mem := m, acc := 0x00#8, nonbin := false } := by
  induction n with
  | zero => rfl
  | succ n ih =>
    rw [packFrom_add, ← ih, Nat.zero_add, packAfter_succ]
    rfl

theorem packAll_eq_packAfter (P : Params) (l : Latched) (m : Memory) :
    packAll P l m = packAfter P l m (8 * groupCount l) := by
  rw [packAll_eq, packAfter_eq_packFrom]

/-- The first `n` elements leave every byte but their slots' alone. -/
theorem packAfter_other (P : Params) (l : Latched) (m : Memory) {n a : Nat}
    (h : ∀ idx < n, a ≠ slotAddr l idx) :
    readByte (packAfter P l m n).mem a = readByte m a := by
  induction n with
  | zero => rfl
  | succ n ih =>
    rw [packAfter_succ, packElem_other _ _ _ _ _ (h n (Nat.lt_succ_self n)), enterElem_mem]
    exact ih fun idx hidx => h idx (Nat.lt_succ_of_lt hidx)

theorem slotAddr_injective {l : Latched} {i j : Nat} (h : slotAddr l i = slotAddr l j) : i = j :=
  Nat.add_left_cancel h

/-- An element finds its slot as it was before the command. -/
theorem packAfter_slot_before (P : Params) (l : Latched) (m : Memory) (n : Nat) :
    readByte (packAfter P l m n).mem (slotAddr l n) = readByte m (slotAddr l n) :=
  packAfter_other P l m fun _ hidx h => hidx.ne' (slotAddr_injective h)

/-- An element finds its symbol as it was before the command, when source and slots are separate or
in place (R67). -/
theorem packAfter_symbol_before (P : Params) {l : Latched} (m : Memory)
    (hl : packSeparateOrInPlace l) {n : Nat} (hn : n < 8 * groupCount l) :
    readByte (packAfter P l m n).mem (symbolAddr l n) = readByte m (symbolAddr l n) := by
  refine packAfter_other P l m fun idx hidx => ?_
  unfold packSeparateOrInPlace at hl
  unfold symbolAddr slotAddr
  omega

/-- The elements that follow leave a slot as its own element did. -/
theorem packAfter_slot_kept (P : Params) (l : Latched) (m : Memory) {idx n : Nat} (h : idx < n) :
    readByte (packAfter P l m n).mem (slotAddr l idx)
      = readByte (packAfter P l m (idx + 1)).mem (slotAddr l idx) := by
  induction n, h using Nat.le_induction with
  | base => rfl
  | succ n hlt ih =>
    have hne : slotAddr l idx ≠ slotAddr l n := fun heq => by
      have := slotAddr_injective heq
      omega
    rw [packAfter_succ, packElem_other _ _ _ _ _ hne, enterElem_mem, ih]

/-! ### Bits as powers of two -/

theorem bitMask_eq_twoPow {k : Nat} (h : k < 8) :
    bitMask (BitVec.ofNat 3 k) = BitVec.ofNat 8 (2 ^ k) :=
  (by decide : ∀ k < 8, bitMask (BitVec.ofNat 3 k) = BitVec.ofNat 8 (2 ^ k)) k h

/-- Setting a bit above all bits of a number adds its power of two. -/
theorem setBit_ofNat {x k : Nat} (hk : k < 8) (hx : x < 2 ^ k) :
    setBit (BitVec.ofNat 8 x) (BitVec.ofNat 3 k) = BitVec.ofNat 8 (x + 2 ^ k) := by
  have hor := Nat.two_pow_add_eq_or_of_lt hx 1
  rw [Nat.mul_one] at hor
  rw [setBit, bitMask_eq_twoPow hk, ← BitVec.ofNat_or, Nat.or_comm, ← hor, Nat.add_comm]

/-- Clearing a bit above all bits of a number leaves it. -/
theorem clearBit_ofNat {x k : Nat} (hk : k < 8) (hx : x < 2 ^ k) :
    clearBit (BitVec.ofNat 8 x) (BitVec.ofNat 3 k) = BitVec.ofNat 8 x := by
  rw [clearBit, bitMask_eq_twoPow hk]
  refine BitVec.eq_of_getLsbD_eq fun j hj => ?_
  simp only [BitVec.getLsbD_and, BitVec.getLsbD_not, BitVec.getLsbD_ofNat, Nat.testBit_two_pow, hj,
    decide_true, Bool.true_and]
  by_cases hjk : k = j
  · rw [← hjk, Nat.testBit_lt_two_pow hx, Bool.false_and]
  · rw [decide_eq_false hjk, Bool.not_false, Bool.and_true]

/-! ### The accumulator -/

theorem onesBelow_lt (sym : Nat → Byte) (idx n : Nat) : onesBelow sym idx n < 2 ^ n := by
  induction n with
  | zero => simp [onesBelow]
  | succ n ih =>
    rw [onesBelow, pow_succ]
    split <;> omega

/-- One more symbol of the group: a '1' adds its bit, everything else adds nothing. -/
theorem accResult_ones (sym : Nat → Byte) (n : Nat) :
    accResult (sym n) (BitVec.ofNat 8 (onesBelow sym n (n % 8))) (BitVec.ofNat 3 (n % 8))
      = BitVec.ofNat 8 (onesBelow sym n (n % 8 + 1)) := by
  have hk : n % 8 < 8 := Nat.mod_lt _ (by decide)
  have hx := onesBelow_lt sym n (n % 8)
  rw [onesBelow, Nat.div_add_mod, accResult, symbolOne, setBit_ofNat hk hx, clearBit_ofNat hk hx]
  split
  case isTrue => rfl
  case isFalse => rw [ite_self, Nat.add_zero]

/-- Two indices of one group count the ones of the same symbols. -/
theorem onesBelow_congr (sym : Nat → Byte) {i j : Nat} (h : i / 8 = j / 8) (n : Nat) :
    onesBelow sym i n = onesBelow sym j n := by
  induction n with
  | zero => rfl
  | succ n ih => rw [onesBelow, onesBelow, ih, h]

/-- Entering element `n` under ACCUM, the accumulator holds the ones below position n mod 8 (R133,
R142). -/
theorem packAfter_acc {P : Params} (hP : P.packOperand = .accum) {l : Latched} (m : Memory)
    (hl : packSeparateOrInPlace l) {n : Nat} (hn : n ≤ 8 * groupCount l) :
    (enterElem n (packAfter P l m n)).acc
      = BitVec.ofNat 8 (onesBelow (fun j => readByte m (symbolAddr l j)) n (n % 8)) := by
  induction n with
  | zero => rfl
  | succ n ih =>
    by_cases hgroup : (n + 1) % 8 = 0
    · rw [hgroup]
      exact if_pos hgroup
    · have hpos : (n + 1) % 8 = n % 8 + 1 := by omega
      rw [hpos, onesBelow_congr _ (j := n) (by omega)]
      calc (enterElem (n + 1) (packAfter P l m (n + 1))).acc
        _ = (packAfter P l m (n + 1)).acc := if_neg hgroup
        _ = _ := by
          rw [packAfter_succ, packElem_acc hP, enterElem_mem,
            packAfter_symbol_before P m hl (by omega), ih (by omega)]
          exact accResult_ones (fun j => readByte m (symbolAddr l j)) n

/-! ### The slots -/

/-- The operand byte of R133 is its value in terms of the symbols and the slots' prior contents. -/
theorem packOperandByte_eq {P : Params} {sym slot : Nat → Byte} {idx : Nat} {acc : Byte}
    (hacc : P.packOperand = .accum → acc = BitVec.ofNat 8 (onesBelow sym idx (idx % 8))) :
    packOperandByte P acc (slot idx) = BitVec.ofNat 8 (operandValue P sym slot idx) := by
  unfold packOperandByte operandValue
  cases hP : P.packOperand
  case zero => rfl
  case accum => exact hacc hP
  case slot => simp

theorem slotResult_eq_packedByte {P : Params} {sym slot : Nat → Byte} {idx : Nat} {acc : Byte}
    (hacc : P.packOperand = .accum → acc = BitVec.ofNat 8 (onesBelow sym idx (idx % 8))) :
    slotResult P (sym idx) (slot idx) acc (BitVec.ofNat 3 (idx % 8))
      = packedByte P sym slot idx := by
  unfold slotResult packedByte setBit clearBit packOtherByte
  rw [packOperandByte_eq hacc, bitMask_eq_twoPow (Nat.mod_lt _ (by decide))]
  cases P.packOther <;> rfl

/-- PACK's loop leaves the closed form in every slot of a complete group. -/
theorem packAll_slot (P : Params) {l : Latched} (m : Memory) (hl : packSeparateOrInPlace l)
    {idx : Nat} (hidx : idx < 8 * groupCount l) :
    readByte (packAll P l m).mem (slotAddr l idx)
      = packedByte P (fun j => readByte m (symbolAddr l j)) (fun j => readByte m (slotAddr l j))
          idx := by
  rw [packAll_eq_packAfter, packAfter_slot_kept P l m hidx, packAfter_succ, packElem_slot,
    enterElem_mem, packAfter_symbol_before P m hl hidx, packAfter_slot_before]
  exact slotResult_eq_packedByte (sym := fun j => readByte m (symbolAddr l j))
    (slot := fun j => readByte m (slotAddr l j)) fun hP => packAfter_acc hP m hl hidx.le

/-- PACK with both ranges in memory completes with the memory its loop leaves. -/
theorem exec_pack_in_range {s : State} (hbusy : s.status.busy = false)
    (hsrc : s.pkSrc.toNat + s.pkLen.toNat ≤ memBytes s.params)
    (hdst : s.pkDst.toNat + s.pkLen.toNat ≤ memBytes s.params) :
    exec .pack s = .next (complete none (packFinish (latch s)
      (packAll s.params (latch s) s.mem).nonbin
      { accept (some .pack) s with mem := (packAll s.params (latch s) s.mem).mem })) := by
  rw [exec_idle hbusy]
  obtain ⟨hrange, -⟩ | ⟨-, hrun⟩ := runPack_cases (latch s) (accept (some .pack) s)
  · cases hrange.symm.trans (packInRange_iff.mpr ⟨hsrc, hdst⟩)
  · rw [runOf, hrun]
    rfl

/-- Settles O22: every slot holds what its element left, in terms of memory before the command. -/
theorem packSlotsForEveryParameter : Obligations.PackSlotsForEveryParameter :=
  fun s hbusy hsrc hdst hl => ⟨_, exec_pack_in_range hbusy hsrc hdst,
    fun _ hidx => packAll_slot s.params s.mem hl hidx⟩

end Sys2Proof.Machine
end

section
/-! PROOFS. ENCODE as runs of values (spec/43_rle_encoder.md R173): the scan as a recursion over the
values still to be read, that recursion in terms of the maximal runs, and in place against a
separate buffer (R68). -/

namespace Sys2Proof.Machine

open Sys2Proof.Config

/-! ### The scan over values, and the maximal runs -/

/-- The runs the scan emits over the values to come, from the previous value and the run counter
(R164). -/
def emittedRuns : Byte → Nat → List Byte → List Nat
  | _, _, [] => []
  | p, r, v :: vs => if v = p then emittedRuns p (r + 1) vs else r :: emittedRuns v 0 vs

/-- The run counter after the scan of the values to come. -/
def openRun : Byte → Nat → List Byte → Nat
  | _, r, [] => r
  | p, r, v :: vs => if v = p then openRun p (r + 1) vs else openRun v 0 vs

theorem runLengths_cons_cons {w : Byte} {vs : List Byte} {n : Nat} {ns : List Nat}
    (h : runLengths (w :: vs) = n :: ns) (v : Byte) :
    runLengths (v :: w :: vs) = if v = w then (n + 1) :: ns else 1 :: n :: ns := by
  rw [runLengths, h]

/-- From a previous value `p` and a run counter `r`, the scan emits the lengths less 1 of the runs
of `p :: vs`, the first of them on top of `r`, but for the last, which it leaves in the counter. -/
theorem emittedRuns_eq_runLengths (p : Byte) (r : Nat) (vs : List Byte) :
    ∃ n ns, runLengths (p :: vs) = (n + 1) :: ns ∧
      emittedRuns p r vs = ((r + n) :: ns.map (· - 1)).dropLast ∧
      openRun p r vs = ((r + n) :: ns.map (· - 1)).getLastD 0 := by
  induction vs generalizing p r with
  | nil => exact ⟨0, [], rfl, rfl, rfl⟩
  | cons v vs ih =>
    by_cases hv : v = p
    · subst hv
      obtain ⟨n, ns, hruns, hemitted, hopen⟩ := ih v (r + 1)
      have hadd : r + 1 + n = r + (n + 1) := by omega
      refine ⟨n + 1, ns, by rw [runLengths_cons_cons hruns, if_pos rfl], ?_, ?_⟩
      · rw [emittedRuns, if_pos rfl, hemitted, hadd]
      · rw [openRun, if_pos rfl, hopen, hadd]
    · obtain ⟨n, ns, hruns, hemitted, hopen⟩ := ih v 0
      refine ⟨0, (n + 1) :: ns, by rw [runLengths_cons_cons hruns, if_neg (Ne.symm hv)], ?_, ?_⟩
      · rw [emittedRuns, if_neg hv, hemitted]
        simp
      · rw [openRun, if_neg hv, hopen]
        simp

theorem leadingZero_cons (v : Byte) (vs : List Byte) :
    leadingZero (v :: vs) = decide (v = 0x00#8) := rfl

theorem getLastD_map_pred (ls : List Nat) : (ls.map (· - 1)).getLastD 0 = ls.getLastD 0 - 1 :=
  List.getLastD_map (f := (· - 1)) (a := 0)

/-- Where the cursor starts at 1, the expected elements after any marker and the expected counter
are those of the scan from a counter of 0. -/
theorem expected_of_cursor_one {P : Params} {v : Byte}
    (h : v = 0x00#8 ∨ P.nzStart = .prescan) (vs : List Byte) :
    expectedElements P (v :: vs)
      = (if v = 0x00#8 then 0 :: emittedRuns v 0 vs else emittedRuns v 0 vs) ∧
    expectedRun P (v :: vs) = openRun v 0 vs := by
  obtain ⟨n, ns, hruns, hemitted, hopen⟩ := emittedRuns_eq_runLengths v 0 vs
  have hmap : (0 + n) :: ns.map (· - 1) = ((n + 1) :: ns).map (· - 1) := by simp
  rw [hmap, ← List.map_dropLast] at hemitted
  rw [hmap, getLastD_map_pred] at hopen
  rw [hemitted, hopen]
  unfold expectedElements expectedRun
  simp only [hruns, leadingZero_cons]
  obtain hv | hP := h
  · simp [hv]
  · simp [hP]

/-- Where the cursor starts at 0, they are those of the scan that reads the first value again. -/
theorem expected_of_cursor_zero {P : Params} {v : Byte} (hv : v ≠ 0x00#8)
    (hP : P.nzStart = .seedFirst) (vs : List Byte) :
    expectedElements P (v :: vs) = emittedRuns v 0 (v :: vs) ∧
    expectedRun P (v :: vs) = openRun v 0 (v :: vs) := by
  obtain ⟨n, ns, hruns, hemitted, hopen⟩ := emittedRuns_eq_runLengths v 1 vs
  rw [emittedRuns, openRun, if_pos rfl, if_pos rfl, Nat.zero_add, hemitted, hopen]
  unfold expectedElements expectedRun
  simp only [hruns, leadingZero_cons, hP, decide_eq_false hv, Nat.add_comm 1 n]
  cases ns with
  | nil => exact ⟨rfl, rfl⟩
  | cons k ks =>
    refine ⟨by simp [List.map_dropLast], ?_⟩
    rw [if_neg (by simp)]
    exact (getLastD_map_pred (k :: ks)).symm

/-! ### Values and elements in memory -/

theorem valuesAt_congr {m m' : Memory} {a n : Nat}
    (h : ∀ b, a ≤ b → b < a + n → readByte m b = readByte m' b) :
    valuesAt m a n = valuesAt m' a n := by
  induction n generalizing a with
  | zero => rfl
  | succ n ih =>
    rw [valuesAt, valuesAt, h a le_rfl (by omega), ih fun b hb hb' => h b (by omega) (by omega)]

theorem memRead_congr {m m' : Memory} {a n : Nat}
    (h : ∀ b, a ≤ b → b < a + n → readByte m b = readByte m' b) :
    memRead m a n = memRead m' a n := by
  induction n generalizing a with
  | zero => rfl
  | succ n ih =>
    rw [memRead_succ, memRead_succ, h a le_rfl (by omega),
      ih fun b hb hb' => h b (by omega) (by omega)]

/-- Element k is written over no packed value with an index above k: what is still to be read is as
it was before the command. -/
def sourceKept (P : Params) (l : Latched) : Prop :=
  ∀ k i, k < i → i < l.enLen.toNat →
    packedAddr l i < elemAddr P l k ∨ elemAddr P l (k + 1) ≤ packedAddr l i

theorem sourceKept_of_separate_or_inPlace {P : Params} {l : Latched}
    (h : encSeparate P l ∨ encInPlace P l) : sourceKept P l := by
  intro k i hki hi
  have hfirst := elemAddr_mono P l (Nat.zero_le k)
  have hlast := elemAddr_mono P l (show k + 1 ≤ l.enLen.toNat by omega)
  unfold elemAddr packedAddr at *
  obtain (hbelow | habove) | ⟨hdst, helem⟩ := h
  · omega
  · omega
  · rw [hdst, helem]
    omega

/-- A state of the loop in which the elements `es` have been emitted since the count was `k` and the
overflow mark was `ovf` (R166, R167), with the open run and the previous value. -/
structure LoopHas (P : Params) (l : Latched) (k : Nat) (ovf : Bool) (es : List Nat) (run : Nat)
    (prev : Byte) (st : EncLoop) : Prop where
  count : st.k.toNat = k + es.length
  overflow : st.ovf = (ovf || es.any (fun x => decide (2 ^ (8 * elemBytes P) ≤ x)))
  elems : ∀ j < es.length, memRead st.mem (elemAddr P l (k + j)) (elemBytes P)
    = es.getD j 0 % 2 ^ (8 * elemBytes P)
  run : st.run.toNat = run
  prev : st.prev = prev

/-- An element emitted first, and left alone by those that follow it. -/
theorem LoopHas.cons {P : Params} {l : Latched} {k run : Nat} {ovf : Bool} {x : Word}
    {es : List Nat} {prev : Byte} {st : EncLoop} (m : Memory)
    (h : LoopHas P l (k + 1) (ovf || overflows P x) es run prev st)
    (hkept : ∀ a < elemAddr P l (k + 1), readByte st.mem a = readByte (memWrite m (elemAddr P l k)
      (elemBytes P) (x.toNat % 2 ^ (8 * elemBytes P))) a) :
    LoopHas P l k ovf (x.toNat :: es) run prev st where
  count := by rw [h.count, List.length_cons]; omega
  overflow := by rw [h.overflow, List.any_cons, Bool.or_assoc, overflows]
  elems := by
    rintro (_ | j) hj
    · rw [Nat.add_zero, memRead_congr fun b _ hb => hkept b (by rw [elemAddr_succ]; exact hb),
        memRead_memWrite_same, Nat.mod_mod, List.getD_cons_zero]
    · rw [show k + (j + 1) = k + 1 + j by omega, List.getD_cons_succ]
      exact h.elems j (Nat.lt_of_succ_lt_succ hj)
  run := h.run
  prev := h.prev

/-! ### The scan -/

/-- The scan leaves the elements emitted before it alone. -/
theorem encScan_kept (P : Params) (l : Latched) {n i : Nat} {st : EncLoop} (hi : i + n < 2 ^ 32)
    (hk : st.k.toNat ≤ i) (hr : st.run.toNat ≤ i) {a : Nat} (ha : a < elemAddr P l st.k.toNat) :
    readByte (encScan P l n i st).mem a = readByte st.mem a := by
  obtain ⟨cs, hcs, hmem⟩ := encScan_writes P l hi hk hr
  rw [hmem, readByte_writeCells_other fun c hc => by have := hcs c hc; omega]

/-- An emission leaves the values still to be read alone. -/
theorem valuesAt_after_emission {P : Params} {l : Latched} (hl : sourceKept P l) (m : Memory)
    {k i n : Nat} (hki : k < i) (hn : i + n ≤ l.enLen.toNat) (v : Nat) :
    valuesAt (memWrite m (elemAddr P l k) (elemBytes P) v) (packedAddr l i) n
      = valuesAt m (packedAddr l i) n := by
  refine valuesAt_congr fun b hb hb' => readByte_memWrite_other ?_
  have hkept := hl k (b - l.enSrc.toNat)
  unfold packedAddr at *
  rw [elemAddr_succ, show l.enSrc.toNat + (b - l.enSrc.toNat) = b by omega] at hkept
  exact hkept (by omega) (by omega)

/-- What the scan of `n` indices from index `i` on leaves: the runs of the values it finds there,
emitted, then the open run and the last value. -/
def ScanLeavesRuns (P : Params) (l : Latched) (n i : Nat) (st : EncLoop) : Prop :=
  let vs := valuesAt st.mem (packedAddr l i) n
  LoopHas P l st.k.toNat st.ovf (emittedRuns st.prev st.run.toNat vs)
    (openRun st.prev st.run.toNat vs) (vs.getLastD st.prev) (encScan P l n i st)

/-- The loop right after the emission of `x`, with a boundary counter and a previous value. -/
def afterEmission (P : Params) (l : Latched) (x bcnt : Word) (prev : Byte) (st : EncLoop) :
    EncLoop :=
  { emit P l x st with run := 0, bcnt := bcnt, prev := prev }

/-- The scan after an emission leaves the element emitted and then what it emits itself. -/
theorem loopHas_scan_after_emission {P : Params} {l : Latched} (hl : sourceKept P l) {n i : Nat}
    {st : EncLoop} {x bcnt : Word} {prev : Byte} (hn : i + 1 + n = l.enLen.toNat)
    (hk : st.k.toNat ≤ i) (h : ScanLeavesRuns P l n (i + 1) (afterEmission P l x bcnt prev st)) :
    LoopHas P l st.k.toNat st.ovf
      (x.toNat :: emittedRuns prev 0 (valuesAt st.mem (packedAddr l (i + 1)) n))
      (openRun prev 0 (valuesAt st.mem (packedAddr l (i + 1)) n))
      ((valuesAt st.mem (packedAddr l (i + 1)) n).getLastD prev)
      (encScan P l n (i + 1) (afterEmission P l x bcnt prev st)) := by
  have hlen := l.enLen.isLt
  have hcount : (afterEmission P l x bcnt prev st).k.toNat = st.k.toNat + 1 :=
    word_succ hk (by omega)
  have hvalues := valuesAt_after_emission hl st.mem (Nat.lt_succ_of_le hk) hn.le
    (x.toNat % 2 ^ (8 * elemBytes P))
  have hkept := fun a => encScan_kept P l (n := n) (i := i + 1)
    (st := afterEmission P l x bcnt prev st) (by omega) (by omega) (Nat.zero_le _) (a := a)
  unfold ScanLeavesRuns at h
  rw [hcount] at h hkept
  rw [← hvalues]
  exact h.cons st.mem hkept

/-- Index by index: the run grows, or the emission's scan follows. -/
theorem encScan_leavesRuns {P : Params} {l : Latched} (hl : sourceKept P l) {n i : Nat}
    {st : EncLoop} (hn : i + n = l.enLen.toNat) (hk : st.k.toNat ≤ i) (hr : st.run.toNat ≤ i) :
    ScanLeavesRuns P l n i st := by
  have hlen := l.enLen.isLt
  induction n generalizing i st with
  | zero => exact ⟨rfl, (Bool.or_false _).symm, nofun, rfl, rfl⟩
  | succ n ih =>
    obtain ⟨hk', hr', -⟩ := encIndex_bounds P l (i := i) (by omega) hk hr
    have hrest := ih (i := i + 1) (by omega) hk' hr'
    simp only [ScanLeavesRuns]
    rw [valuesAt, emittedRuns, openRun, List.getLastD_cons, encScan]
    obtain ⟨hv, hindex⟩ | ⟨hv, hindex⟩ := encIndex_cases P l i st <;> rw [hindex] at hrest ⊢
    · unfold ScanLeavesRuns at hrest
      rw [if_pos hv, if_pos hv, hv]
      rwa [word_succ hr (by omega)] at hrest
    · rw [if_neg hv, if_neg hv]
      exact loopHas_scan_after_emission hl (by omega) hk hrest

/-! ### The whole command -/

/-- The loop before the pre-step: nothing emitted, the previous value seeded (R163). -/
def seededLoop (m : Memory) (v0 : Byte) : EncLoop :=
  { mem := m, k := 0, run := 0, bcnt := 0, prev := v0, ovf := false }

theorem encAll_of_zero {P : Params} {l : Latched} {m : Memory}
    (h : readByte m (packedAddr l 0) = 0x00#8) : encAll P l m
      = encScan P l (l.enLen.toNat - 1) 1 (afterEmission P l 0 0 0x00#8 (seededLoop m 0x00#8)) := by
  simp [encAll, startCursor, encPre, h, afterEmission, seededLoop, emit]

theorem encAll_of_ne_zero {P : Params} {l : Latched} {m : Memory}
    (h : readByte m (packedAddr l 0) ≠ 0x00#8) : encAll P l m
      = encScan P l (l.enLen.toNat - (startCursor P (readByte m (packedAddr l 0))).toNat)
          (startCursor P (readByte m (packedAddr l 0))).toNat
          (seededLoop m (readByte m (packedAddr l 0))) := by
  simp [encAll, encPre, h, seededLoop]

/-- ENCODE's loops leave the elements, the counter and the value that the maximal runs of the packed
values call for (R173). -/
theorem encAll_hasRuns {P : Params} {l : Latched} (hl : sourceKept P l) (m : Memory)
    (hn : l.enLen.toNat ≠ 0) :
    LoopHas P l 0 false (expectedElements P (valuesAt m l.enSrc.toNat l.enLen.toNat))
      (expectedRun P (valuesAt m l.enSrc.toNat l.enLen.toNat))
      ((valuesAt m l.enSrc.toNat l.enLen.toNat).getLastD 0) (encAll P l m) := by
  obtain ⟨n, hsucc⟩ := Nat.exists_eq_succ_of_ne_zero hn
  have hvalues : valuesAt m l.enSrc.toNat l.enLen.toNat
      = readByte m (packedAddr l 0) :: valuesAt m (packedAddr l 1) n := by rw [hsucc]; rfl
  have hseeded := fun (i n : Nat) (hi : i + n = l.enLen.toNat) =>
    encScan_leavesRuns hl (st := seededLoop m (readByte m (packedAddr l 0))) hi (Nat.zero_le _)
      (Nat.zero_le _)
  rw [hvalues, List.getLastD_cons]
  obtain ⟨hzero, -⟩ | ⟨hne, hseed, hcursor⟩ | ⟨hne, hprescan, hcursor⟩ :=
    startCursor_cases P (readByte m (packedAddr l 0))
  · obtain ⟨helems, hrun⟩ := expected_of_cursor_one (P := P) (.inl hzero)
      (valuesAt m (packedAddr l 1) n)
    rw [helems, hrun, if_pos hzero, encAll_of_zero hzero, hsucc, hzero]
    exact loopHas_scan_after_emission (i := 0) (x := 0) (bcnt := 0) (prev := 0x00#8)
      (st := seededLoop m 0x00#8) hl (by omega) le_rfl
      (encScan_leavesRuns hl (n := n) (by omega) le_rfl (Nat.zero_le _))
  · obtain ⟨helems, hrun⟩ := expected_of_cursor_zero hne hseed (valuesAt m (packedAddr l 1) n)
    rw [helems, hrun, encAll_of_ne_zero hne, hcursor, ← List.getLastD_cons, ← hvalues]
    exact hseeded 0 l.enLen.toNat (Nat.zero_add _)
  · obtain ⟨helems, hrun⟩ := expected_of_cursor_one (.inr hprescan)
      (valuesAt m (packedAddr l 1) n) (v := readByte m (packedAddr l 0))
    rw [helems, hrun, if_neg hne, encAll_of_ne_zero hne, hcursor, hsucc]
    exact hseeded 1 n (by omega)

/-- ENCODE with a nonzero length and both ranges in memory completes with what its loops leave. -/
theorem exec_encode_in_range {s : State} (hbusy : s.status.busy = false)
    (hlen : s.enLen.toNat ≠ 0) (hsrc : s.enSrc.toNat + s.enLen.toNat ≤ memBytes s.params)
    (hdst : s.enDst.toNat + elemBytes s.params * s.enLen.toNat ≤ memBytes s.params) :
    exec .encode s = .next (complete none (encFinish
      (encAll s.params (latch s) s.mem).bcnt (encAll s.params (latch s) s.mem).k
      (encAll s.params (latch s) s.mem).run (encAll s.params (latch s) s.mem).prev
      (encAll s.params (latch s) s.mem).ovf
      { accept (some .encode) s with mem := (encAll s.params (latch s) s.mem).mem })) := by
  rw [exec_idle hbusy]
  obtain ⟨hrange, -⟩ | ⟨-, hrun⟩ := runEncode_cases (latch s) (accept (some .encode) s)
  · cases hrange.symm.trans (encInRange_iff.mpr ⟨hlen, hsrc, hdst⟩)
  · rw [runOf, hrun]
    rfl

/-- Settles O28: the registers and the elements are those the loops leave. -/
theorem encodeElementsAreTheRuns : Obligations.EncodeElementsAreTheRuns := by
  intro s hbusy hlen hsrc hdst hl vs es
  obtain ⟨hcount, hoverflow, helems, hrun, hprev⟩ :=
    encAll_hasRuns (sourceKept_of_separate_or_inPlace hl) s.mem hlen
  refine ⟨_, exec_encode_in_range hbusy hlen hsrc hdst, ?_, hrun, ?_, fun k hk => ?_, ?_⟩
  · exact hcount.trans (Nat.zero_add _)
  · exact congrArg (BitVec.setWidth 32) hprev
  · have := helems k hk
    rwa [Nat.zero_add] at this
  · exact congrArg (s.status.runOverflow || ·) (hoverflow.trans (Bool.false_or _))

/-! ### In place and separate (R68) -/

/-- The boundary counter depends on the indices alone (R164). -/
theorem encScan_bcnt (P : Params) (l : Latched) (n i : Nat) (st : EncLoop) :
    (encScan P l n i st).bcnt
      = (List.range' i n).foldl (fun bcnt j => countBoundary j bcnt) st.bcnt := by
  induction n generalizing i st with
  | zero => rfl
  | succ n ih =>
    have hindex : (encIndex P l i st).bcnt = countBoundary i st.bcnt := by
      obtain ⟨-, h⟩ | ⟨-, h⟩ := encIndex_cases P l i st <;> rw [h]
    rw [encScan, ih, hindex, List.range'_succ, List.foldl_cons]

theorem encPre_bcnt (P : Params) (l : Latched) (m : Memory) : (encPre P l m).bcnt = 0 := by
  obtain ⟨-, h⟩ | ⟨-, h⟩ := encPre_cases P l m <;> rw [h]

/-- Where ENCODE writes its elements has no part in its boundary count. -/
theorem encAll_bcnt_congr (P : Params) {l l' : Latched} (m : Memory) (hsrc : l.enSrc = l'.enSrc)
    (hlen : l.enLen = l'.enLen) : (encAll P l m).bcnt = (encAll P l' m).bcnt := by
  unfold encAll
  dsimp only
  rw [encScan_bcnt, encScan_bcnt, encPre_bcnt, encPre_bcnt]
  simp only [packedAddr, hsrc, hlen]

theorem memRead_one (m : Memory) (a : Nat) : memRead m a 1 = (readByte m a).toNat := rfl

/-- With one-byte elements, element `j` is the byte at `D + j`. -/
theorem LoopHas.byte {P : Params} {l : Latched} {ovf : Bool} {es : List Nat} {run : Nat}
    {prev : Byte} {st : EncLoop} (h : LoopHas P l 0 ovf es run prev st) (hP : elemBytes P = 1)
    {j : Nat} (hj : j < es.length) :
    (readByte st.mem (l.enDst.toNat + j)).toNat = es.getD j 0 % 2 ^ 8 := by
  have := h.elems j hj
  rwa [elemAddr, hP, memRead_one, Nat.one_mul, Nat.zero_add] at this

/-- Settles O29: in place and into a separate buffer the loops leave the same runs of the same
values. -/
theorem encodeInPlaceEqualsSeparate : Obligations.EncodeInPlaceEqualsSeparate := by
  intro s d hbusy hlen hsrc hd hP hdst hsep
  have hl : sourceKept s.params (latch s) :=
    sourceKept_of_separate_or_inPlace (.inr ⟨congrArg BitVec.toNat hdst, hP⟩)
  have hl' : sourceKept s.params (latch { s with enDst := d }) :=
    sourceKept_of_separate_or_inPlace
      (.inl (by rw [encSeparate, hP, Nat.one_mul]; exact hsep))
  have hruns := encAll_hasRuns hl s.mem hlen
  have hruns' := encAll_hasRuns hl' s.mem hlen
  have hk := BitVec.eq_of_toNat_eq (hruns.count.trans hruns'.count.symm)
  have hrun := BitVec.eq_of_toNat_eq (hruns.run.trans hruns'.run.symm)
  have hprev := hruns.prev.trans hruns'.prev.symm
  have hovf := hruns.overflow.trans hruns'.overflow.symm
  refine ⟨_, _, exec_encode_in_range hbusy hlen hsrc (by rw [hP, hdst, Nat.one_mul]; exact hsrc),
    exec_encode_in_range (s := { s with enDst := d }) hbusy hlen hsrc
      (by rw [hP, Nat.one_mul]; exact hd),
    encAll_bcnt_congr s.params s.mem rfl rfl, hk, hrun, congrArg (BitVec.setWidth 32) hprev, ?_,
    fun j hj => ?_⟩
  · exact congrArg (fun ovf => (encFlags ovf (accept (some .encode) s).status).complete none) hovf
  · have hj' := hj.trans_eq (hruns.count.trans (Nat.zero_add _))
    have hbyte := hruns.byte hP hj'
    refine BitVec.eq_of_toNat_eq (Eq.trans ?_ (hbyte.trans (hruns'.byte hP hj').symm))
    rw [← hdst]
    rfl

end Sys2Proof.Machine
end

section
/-! PROOFS. From acceptance the engine's own turns reach the state of the atomic command, BUSY = 1
before each of them (spec/40_command_control.md R97, R98): the packer's state machine follows R132
(spec/42_bit_packer.md R139) and the encoder's R162 (spec/43_rle_encoder.md R170). -/

namespace Sys2Proof.Machine

open Sys2Proof.Config

/-! ### Turns while BUSY = 1 -/

/-- In at most `b` turns of the engine, each from a state with BUSY = 1, `s` becomes `t`. -/
def RunsWithin (b : Nat) (s t : State) : Prop :=
  ∃ n ≤ b, engineTurns n s = t ∧ ∀ j < n, (engineTurns j s).status.busy = true

theorem runsWithin_self (s : State) : RunsWithin 0 s s := ⟨0, le_rfl, rfl, nofun⟩

theorem runsWithin_turn {s : State} (h : s.status.busy = true) : RunsWithin 1 s (engineTurn s) :=
  ⟨1, le_rfl, rfl, fun j hj => by rwa [Nat.lt_one_iff.mp hj]⟩

theorem RunsWithin.mono {b c : Nat} {s t : State} (h : RunsWithin b s t) (hbc : b ≤ c) :
    RunsWithin c s t := by
  obtain ⟨n, hn, hrun⟩ := h
  exact ⟨n, hn.trans hbc, hrun⟩

theorem RunsWithin.trans {b c : Nat} {s t u : State} (h : RunsWithin b s t)
    (k : RunsWithin c t u) : RunsWithin (b + c) s u := by
  obtain ⟨n, hn, rfl, hbusy⟩ := h
  obtain ⟨p, hp, rfl, hbusy'⟩ := k
  refine ⟨n + p, Nat.add_le_add hn hp, engineTurns_add n p s, fun j hj => ?_⟩
  by_cases hjn : j < n
  · exact hbusy j hjn
  · rw [← Nat.add_sub_cancel' (not_lt.mp hjn), engineTurns_add]
    exact hbusy' (j - n) (by omega)

theorem runsWithin_of_engineTurn {s t : State} (ht : engineTurn s = t)
    (h : s.status.busy = true) : RunsWithin 1 s t :=
  ht ▸ runsWithin_turn h

/-! ### The packer -/

/-- The packer's registers before element `idx`, in terms of the loop over the absolute index. -/
def packRegsAt (idx : Nat) (st : PackLoop) : PackRegs where
  g      := BitVec.ofNat 32 (idx / 8)
  i      := BitVec.ofNat 3 (idx % 8)
  acc    := (enterElem idx st).acc
  nonbin := st.nonbin

/-- The packer before element `idx`, or in PK_FINISH when no element is left. -/
def packStateAt (s : State) (l : Latched) (idx : Nat) (st : PackLoop) : State :=
  { s with
    mem := st.mem
    engine := if idx = 8 * groupCount l then .pkFinish l (packRegsAt idx st)
      else .pkElem l (packRegsAt idx st) }

theorem packElemAt_packRegsAt (P : Params) {l : Latched} {idx : Nat}
    (h : idx < 8 * groupCount l) (st : PackLoop) : packElemAt P l (packRegsAt idx st) st.mem
      = packElem P l idx (BitVec.ofNat 3 (idx % 8)) (enterElem idx st) := by
  have hlen := l.pkLen.isLt
  have hgroups := groupCount_le l
  have hindex : packIndex (BitVec.ofNat 32 (idx / 8)).toNat (BitVec.ofNat 3 (idx % 8)).toNat
      = idx := by
    simp only [packIndex, BitVec.toNat_ofNat]
    omega
  simp only [packElemAt, packRegsAt, hindex]
  rfl

theorem packRegsAt_pos_eq_seven {idx : Nat} {st : PackLoop} :
    (packRegsAt idx st).i = 7 ↔ idx % 8 = 7 := by
  rw [← BitVec.toNat_inj]
  simp only [packRegsAt, BitVec.ofNat_eq_ofNat, BitVec.toNat_ofNat]
  omega

/-- After position 7 the next group follows, with the accumulator at 0x00. -/
theorem packRegsAt_next_group {idx : Nat} (h : idx % 8 = 7) (st st' : PackLoop) :
    packRegsAt (idx + 1) st'
      = { g := (packRegsAt idx st).g + 1, i := 0, acc := 0x00#8, nonbin := st'.nonbin } := by
  have hdiv : (idx + 1) / 8 = idx / 8 + 1 := by omega
  have hmod : (idx + 1) % 8 = 0 := by omega
  simp only [packRegsAt, enterElem, hdiv, hmod, BitVec.ofNat_add]
  rfl

theorem packRegsAt_next_position {idx : Nat} (h : idx % 8 ≠ 7) (st st' : PackLoop) :
    packRegsAt (idx + 1) st'
      = { g := (packRegsAt idx st).g, i := (packRegsAt idx st).i + 1, acc := st'.acc
          nonbin := st'.nonbin } := by
  have hdiv : (idx + 1) / 8 = idx / 8 := by omega
  have hmod : (idx + 1) % 8 = idx % 8 + 1 := by omega
  simp only [packRegsAt, enterElem, hdiv, hmod, BitVec.ofNat_add, Nat.succ_ne_zero, if_false]
  rfl

/-- The turn of an element is the loop body of R132 at its index. -/
theorem engineTurn_packStateAt (s : State) {l : Latched} {idx : Nat}
    (h : idx < 8 * groupCount l) (st : PackLoop) :
    engineTurn (packStateAt s l idx st) = packStateAt s l (idx + 1)
      (packElem s.params l idx (BitVec.ofNat 3 (idx % 8)) (enterElem idx st)) := by
  have hlen := l.pkLen.isLt
  have hgroups := groupCount_le l
  unfold packStateAt
  rw [if_neg h.ne]
  simp only [engineTurn, turnPkElem, packElemAt_packRegsAt s.params h st, packRegsAt_pos_eq_seven]
  generalize packElem s.params l idx (BitVec.ofNat 3 (idx % 8)) (enterElem idx st) = st'
  by_cases hpos : idx % 8 = 7
  · have hlast : ((packRegsAt idx st).g + 1).toNat = groupCount l ↔ idx + 1 = 8 * groupCount l := by
      rw [word_succ (n := idx / 8) (by simp only [packRegsAt, BitVec.toNat_ofNat]; omega)
        (by omega)]
      simp only [packRegsAt, BitVec.toNat_ofNat]
      omega
    simp only [if_pos hpos, hlast, packRegsAt_next_group hpos st st']
    split <;> rfl
  · have hnext : idx + 1 ≠ 8 * groupCount l := by omega
    rw [if_neg hpos, if_neg hnext, packRegsAt_next_position hpos st st']

theorem packFrom_runsWithin {s : State} (hbusy : s.status.busy = true) (l : Latched) (n idx : Nat)
    (st : PackLoop) (h : idx + n = 8 * groupCount l) : RunsWithin n (packStateAt s l idx st)
      (packStateAt s l (8 * groupCount l) (packFrom s.params l n idx st)) := by
  induction n generalizing idx st with
  | zero =>
    rw [← h]
    exact runsWithin_self _
  | succ n ih =>
    have hturn := runsWithin_of_engineTurn
      (engineTurn_packStateAt s (l := l) (idx := idx) (by omega) st) hbusy
    exact (hturn.trans (ih (idx + 1) _ (by omega))).mono (by omega)

/-- PK_CHECK within the range checks enters the loop over no elements yet. -/
theorem turnPkCheck_in_range {s : State} {l : Latched} (h : packInRange s.params l = true) :
    turnPkCheck l s = packStateAt s l 0 { mem := s.mem, acc := 0x00#8, nonbin := false } := by
  have hzero : 0 = 8 * groupCount l ↔ groupCount l = 0 := by omega
  unfold turnPkCheck packStateAt
  simp only [if_pos h, hzero]
  split <;> rfl

/-- PACK's turns from PK_CHECK end in the completion of `Run(PACK, L)` (R139). -/
theorem pkCheck_runsWithin {s : State} (hbusy : s.status.busy = true) (l : Latched) :
    RunsWithin (8 * groupCount l + 2) { s with engine := .pkCheck l } (finish s (runPack l s)) := by
  have hcheck := runsWithin_turn (s := { s with engine := .pkCheck l }) hbusy
  obtain ⟨hrange, hrun⟩ | ⟨hrange, hrun⟩ := runPack_cases l s <;> rw [hrun]
  · have hnext : engineTurn { s with engine := .pkCheck l }
        = { s with engine := .pkEnd .indexOutOfBounds } := by
      simp [engineTurn, turnPkCheck, hrange]
    rw [hnext] at hcheck
    exact (hcheck.trans (runsWithin_turn hbusy)).mono (by omega)
  · have hnext : engineTurn { s with engine := .pkCheck l }
        = packStateAt s l 0 { mem := s.mem, acc := 0x00#8, nonbin := false } :=
      turnPkCheck_in_range (s := { s with engine := .pkCheck l }) hrange
    have hloop := packFrom_runsWithin hbusy l (8 * groupCount l) 0
      { mem := s.mem, acc := 0x00#8, nonbin := false } (Nat.zero_add _)
    rw [← packAll_eq] at hloop
    have hfinish : engineTurn (packStateAt s l (8 * groupCount l) (packAll s.params l s.mem))
        = finish s (.ok (packFinish l (packAll s.params l s.mem).nonbin
            { s with mem := (packAll s.params l s.mem).mem })) := by
      rw [packStateAt, if_pos rfl]
      rfl
    rw [hnext] at hcheck
    exact ((hcheck.trans hloop).trans (runsWithin_of_engineTurn hfinish hbusy)).mono (by omega)

/-! ### The encoder -/

/-- The encoder's registers before index `i`, in terms of R162's loop, with bytes of the last
element still to be written. -/
def encRegsAt (i : Nat) (st : EncLoop) (pend : List Host.Cell) : EncRegs where
  i    := BitVec.ofNat 32 i
  k    := st.k
  run  := st.run
  bcnt := st.bcnt
  prev := st.prev
  ovf  := st.ovf
  pend := pend

/-- The encoder before index `i` with no byte waiting, or in EN_FINISH when no index is left. -/
def encStateAt (s : State) (l : Latched) (i : Nat) (st : EncLoop) : State :=
  { s with mem := st.mem, engine := scanOrFinish l (encRegsAt i st []) }

/-- A waiting byte takes a turn, before the next index or before EN_FINISH. -/
theorem engineTurn_pend (s : State) (l : Latched) (i : Nat) (st : EncLoop) (c : Host.Cell)
    (cs : List Host.Cell) :
    engineTurn { s with engine := scanOrFinish l (encRegsAt i st (c :: cs)) }
      = { s with
          mem := writeByte s.mem c.1 c.2
          engine := scanOrFinish l (encRegsAt i st cs) } := by
  by_cases h : (BitVec.ofNat 32 i).toNat < l.enLen.toNat
  · have hscan : ∀ pend, scanOrFinish l (encRegsAt i st pend) = .enScan l (encRegsAt i st pend) :=
      fun _ => if_pos h
    rw [hscan, hscan]
    rfl
  · have hfinish : ∀ pend, scanOrFinish l (encRegsAt i st pend)
        = .enFinish l (encRegsAt i st pend) := fun _ => if_neg h
    rw [hfinish, hfinish]
    rfl

/-- The waiting bytes are written one per turn. -/
theorem pend_runsWithin {s : State} (hbusy : s.status.busy = true) (l : Latched) (i : Nat)
    {st : EncLoop} {cs : List Host.Cell} (hmem : st.mem = writeCells s.mem cs) :
    RunsWithin cs.length { s with engine := scanOrFinish l (encRegsAt i st cs) }
      (encStateAt s l i st) := by
  induction cs generalizing s with
  | nil =>
    rw [encStateAt, hmem]
    exact runsWithin_self _
  | cons c cs ih =>
    have hrest := ih (s := { s with mem := writeByte s.mem c.1 c.2 }) hbusy hmem
    have hturn := runsWithin_of_engineTurn (engineTurn_pend s l i st c cs) hbusy
    exact (hturn.trans hrest).mono (Nat.add_comm 1 cs.length).le

/-- The scan of an index on the registers is R164's, with the bytes of its element waiting. -/
theorem encIndexAt_encRegsAt (P : Params) (l : Latched) {i : Nat} (hi : i < 2 ^ 32)
    (st : EncLoop) : ∃ cs : List Host.Cell, cs.length ≤ elemBytes P ∧
      (encIndex P l i st).mem = writeCells st.mem cs ∧
      encIndexAt P l (readByte st.mem (packedAddr l i)) (encRegsAt i st [])
        = encRegsAt (i + 1) (encIndex P l i st) cs := by
  have htoNat : (BitVec.ofNat 32 i).toNat = i := by rw [BitVec.toNat_ofNat]; omega
  obtain ⟨hv, h⟩ | ⟨hv, h⟩ := encIndex_cases P l i st <;> rw [h]
  · refine ⟨[], Nat.zero_le _, rfl, ?_⟩
    simp only [encIndexAt, encRegsAt, htoNat, hv, if_true, BitVec.ofNat_add]
    rfl
  · refine ⟨_, (elemCells_length _ _ _).le, rfl, ?_⟩
    simp only [encIndexAt, encRegsAt, htoNat, hv, if_false, BitVec.ofNat_add]
    rfl

theorem encIndex_runsWithin {s : State} (hbusy : s.status.busy = true) {l : Latched} {i : Nat}
    (hi : i < l.enLen.toNat) (st : EncLoop) : RunsWithin (1 + elemBytes s.params)
      (encStateAt s l i st) (encStateAt s l (i + 1) (encIndex s.params l i st)) := by
  have hlen := l.enLen.isLt
  have htoNat : (BitVec.ofNat 32 i).toNat = i := by rw [BitVec.toNat_ofNat]; omega
  obtain ⟨cs, hcs, hmem, hregs⟩ := encIndexAt_encRegsAt s.params l (i := i) (by omega) st
  have hscan : scanOrFinish l (encRegsAt i st []) = .enScan l (encRegsAt i st []) :=
    if_pos (by rw [encRegsAt, htoNat]; exact hi)
  have hturn : engineTurn (encStateAt s l i st) = { s with
      mem := st.mem
      engine := scanOrFinish l (encRegsAt (i + 1) (encIndex s.params l i st) cs) } := by
    rw [← hregs, encStateAt, hscan]
    simp only [engineTurn, turnEnScan, encRegsAt, htoNat]
  have hpend := pend_runsWithin (s := { s with mem := st.mem }) hbusy l (i + 1) hmem
  exact ((runsWithin_of_engineTurn hturn hbusy).trans hpend).mono (by omega)

theorem encScan_runsWithin {s : State} (hbusy : s.status.busy = true) (l : Latched) (n i : Nat)
    (st : EncLoop) (h : i + n = l.enLen.toNat) : RunsWithin (n * (1 + elemBytes s.params))
      (encStateAt s l i st) (encStateAt s l l.enLen.toNat (encScan s.params l n i st)) := by
  induction n generalizing i st with
  | zero =>
    rw [← h, Nat.zero_mul]
    exact runsWithin_self _
  | succ n ih =>
    have hindex := encIndex_runsWithin hbusy (l := l) (i := i) (by omega) st
    exact (hindex.trans (ih (i + 1) _ (by omega))).mono (by rw [Nat.succ_mul, Nat.add_comm])

/-- EN_PRE on the registers is R163's pre-step, with the bytes of the marker waiting; there is a
marker only where the cursor starts at 1. -/
theorem engineTurn_enPre (s : State) (l : Latched) : ∃ cs : List Host.Cell,
    cs.length ≤ elemBytes s.params
      * (startCursor s.params (readByte s.mem (packedAddr l 0))).toNat ∧
    (encPre s.params l s.mem).mem = writeCells s.mem cs ∧
    engineTurn { s with engine := .enPre l } = { s with
      engine := scanOrFinish l (encRegsAt
        (startCursor s.params (readByte s.mem (packedAddr l 0))).toNat
        (encPre s.params l s.mem) cs) } := by
  by_cases h : readByte s.mem (packedAddr l 0) = 0x00#8
  · refine ⟨elemCells (elemAddr s.params l 0) (elemBytes s.params)
      (0 % 2 ^ (8 * elemBytes s.params)), ?_, ?_, ?_⟩
    · simp [startCursor, h]
    · simp only [encPre, if_pos h]
      rfl
    · simp only [engineTurn, turnEnPre, encPre, if_pos h, encRegsAt, BitVec.ofNat_toNat,
        BitVec.setWidth_eq]
      rfl
  · refine ⟨[], Nat.zero_le _, ?_, ?_⟩
    · simp only [encPre, if_neg h]
      rfl
    · simp only [engineTurn, turnEnPre, encPre, if_neg h, encRegsAt, BitVec.ofNat_toNat,
        BitVec.setWidth_eq]

/-- ENCODE's turns from EN_PRE to EN_FINISH are R162's pre-step and scan. -/
theorem enPre_runsWithin {s : State} (hbusy : s.status.busy = true) {l : Latched}
    (hlen : l.enLen.toNat ≠ 0) :
    RunsWithin (l.enLen.toNat + elemBytes s.params * l.enLen.toNat + 1)
      { s with engine := .enPre l }
      (encStateAt s l l.enLen.toNat (encAll s.params l s.mem)) := by
  obtain ⟨cs, hcs, hmem, hturn⟩ := engineTurn_enPre s l
  have hcursor := startCursor_le_one s.params (readByte s.mem (packedAddr l 0))
  unfold encAll
  dsimp only
  generalize (startCursor s.params (readByte s.mem (packedAddr l 0))).toNat = cursor at *
  obtain ⟨n, hn⟩ := Nat.exists_eq_add_of_le (show cursor ≤ l.enLen.toNat by omega)
  have hscan := encScan_runsWithin hbusy l n cursor (encPre s.params l s.mem) hn.symm
  rw [hn, Nat.add_sub_cancel_left]
  rw [hn] at hscan
  refine (((runsWithin_of_engineTurn hturn hbusy).trans (pend_runsWithin hbusy l cursor hmem)).trans
    hscan).mono ?_
  calc 1 + cs.length + n * (1 + elemBytes s.params)
    _ ≤ 1 + elemBytes s.params * cursor + n * (1 + elemBytes s.params) := by omega
    _ = n + elemBytes s.params * (cursor + n) + 1 := by ring
    _ ≤ cursor + n + elemBytes s.params * (cursor + n) + 1 := by omega

/-- ENCODE's turns from EN_CHECK end in the completion of `Run(ENCODE, L)` (R170). -/
theorem enCheck_runsWithin {s : State} (hbusy : s.status.busy = true) (l : Latched) :
    RunsWithin (l.enLen.toNat + elemBytes s.params * l.enLen.toNat + 3)
      { s with engine := .enCheck l } (finish s (runEncode l s)) := by
  have hcheck := runsWithin_turn (s := { s with engine := .enCheck l }) hbusy
  obtain ⟨hrange, hrun⟩ | ⟨hrange, hrun⟩ := runEncode_cases l s <;> rw [hrun]
  · have hnext : engineTurn { s with engine := .enCheck l }
        = { s with engine := .enEnd .indexOutOfBounds } := by
      simp [engineTurn, turnEnCheck, hrange]
    rw [hnext] at hcheck
    exact (hcheck.trans (runsWithin_turn hbusy)).mono (by omega)
  · have hnext : engineTurn { s with engine := .enCheck l } = { s with engine := .enPre l } := by
      simp [engineTurn, turnEnCheck, hrange]
    obtain ⟨hlen, -, -⟩ := encInRange_iff.mp hrange
    have hdone : scanOrFinish l (encRegsAt l.enLen.toNat (encAll s.params l s.mem) [])
        = .enFinish l (encRegsAt l.enLen.toNat (encAll s.params l s.mem) []) :=
      if_neg (by simp [encRegsAt])
    have hfinish : engineTurn (encStateAt s l l.enLen.toNat (encAll s.params l s.mem))
        = finish s (.ok (encFinish (encAll s.params l s.mem).bcnt (encAll s.params l s.mem).k
            (encAll s.params l s.mem).run (encAll s.params l s.mem).prev
            (encAll s.params l s.mem).ovf { s with mem := (encAll s.params l s.mem).mem })) := by
      rw [encStateAt, hdone]
      rfl
    rw [hnext] at hcheck
    exact ((hcheck.trans (enPre_runsWithin hbusy hlen)).trans
      (runsWithin_of_engineTurn hfinish hbusy)).mono (by omega)

/-! ### Every command -/

/-- From acceptance of PACK, at most 8G + 3 turns reach the atomic command's state. -/
theorem accept_pack_runsWithin (s : State) : RunsWithin (8 * (s.pkLen.toNat / 8) + 3)
    (accept (some .pack) s)
    (finish (accept (some .pack) s) (runPack (latch s) (accept (some .pack) s))) := by
  have hturn := runsWithin_turn (s := accept (some .pack) s) rfl
  have hrun := pkCheck_runsWithin (s := accept (some .pack) s) rfl (latch s)
  exact (hturn.trans hrun).mono (by simp only [groupCount, latch]; omega)

/-- From acceptance of ENCODE, at most N + E*N + 4 turns reach the atomic command's state. -/
theorem accept_encode_runsWithin (s : State) :
    RunsWithin (s.enLen.toNat + elemBytes s.params * s.enLen.toNat + 4) (accept (some .encode) s)
      (finish (accept (some .encode) s) (runEncode (latch s) (accept (some .encode) s))) := by
  have hturn := runsWithin_turn (s := accept (some .encode) s) rfl
  have hrun := enCheck_runsWithin (s := accept (some .encode) s) rfl (latch s)
  refine (hturn.trans hrun).mono ?_
  simp only [latch, accept_params]
  omega

/-- From acceptance of any command, finitely many turns reach the atomic command's state. -/
theorem accept_runsWithin (i : Instr) (s : State) : ∃ b, RunsWithin b (accept (some i) s)
    (finish (accept (some i) s) (runOf i (latch s) (accept (some i) s))) := by
  cases i with
  | pack => exact ⟨_, accept_pack_runsWithin s⟩
  | encode => exact ⟨_, accept_encode_runsWithin s⟩
  | nop => exact ⟨1, runsWithin_turn (s := accept (some .nop) s) rfl⟩
  | getBit byte pos => exact ⟨1, runsWithin_turn (s := accept (some (.getBit byte pos)) s) rfl⟩
  | setBit byte pos => exact ⟨1, runsWithin_turn (s := accept (some (.setBit byte pos)) s) rfl⟩
  | clearBit byte pos => exact ⟨1, runsWithin_turn (s := accept (some (.clearBit byte pos)) s) rfl⟩

/-- From acceptance of any word, the turns reach the state of the atomic transition, at BUSY = 0. -/
theorem runCommandWord_runsWithin {s : State} (hbusy : s.status.busy = false) (w : Word) :
    ∃ b t, runCommandWord w s = .next t ∧ t.status.busy = false ∧ t.engine = .idle ∧
      RunsWithin b (accept (verdict w) s) t := by
  obtain ⟨hbusy', -⟩ | ⟨-, i, hw, hrun⟩ | ⟨-, hw, hrun⟩ := runCommandWord_cases w s
  · cases hbusy.symm.trans hbusy'
  · obtain ⟨b, hb⟩ := accept_runsWithin i s
    exact ⟨b, _, hrun, finish_busy _ _, finish_engine _ _, hw ▸ hb⟩
  · exact ⟨1, _, hrun, rfl, rfl, by rw [hw]; exact runsWithin_turn (s := accept none s) rfl⟩

end Sys2Proof.Machine
end

section
/-! PROOFS. A CMD write and a poll (spec/30_encoding.md R81, R82): the poll gives the engine its
turns while BUSY = 1 and then answers STATUS. -/

namespace Sys2Proof.Machine

/-! ### Several steps -/

theorem stepsTo_succ {s t : State} (h : step s = .next t) (n : Nat) :
    stepsTo (n + 1) s = stepsTo n t := by
  rw [stepsTo, h]

theorem stepsTo_trans {m n : Nat} {s t u : State} (h : stepsTo m s = some t)
    (k : stepsTo n t = some u) : stepsTo (m + n) s = some u := by
  induction m generalizing s with
  | zero =>
    cases h
    rwa [Nat.zero_add]
  | succ m ih =>
    rw [Nat.succ_add]
    unfold stepsTo at h ⊢
    split at h
    case h_1 s' hstep => exact ih h
    case h_2 => cases h

/-! ### The poll -/

theorem step_poll_busy {s : State} {rest : List Event} (h : s.events = .poll :: rest)
    (hbusy : s.status.busy = true) : step s = .next (engineTurn s) := by
  rw [step_event h, runEvent, if_pos hbusy, ← h]

theorem step_poll_idle {s : State} {rest : List Event} (h : s.events = .poll :: rest)
    (hbusy : s.status.busy = false) :
    step s = .next { s with events := rest, reply := .word (statusWord s.status) } := by
  rw [step_event h, runEvent, if_neg (by simp [hbusy])]

/-- With a poll first, the steps are turns of the engine as long as BUSY = 1. -/
theorem stepsTo_poll {n : Nat} {s : State} {rest : List Event} (h : s.events = .poll :: rest)
    (hbusy : ∀ j < n, (engineTurns j s).status.busy = true) :
    stepsTo n s = some (engineTurns n s) := by
  induction n generalizing s with
  | zero => rfl
  | succ n ih =>
    rw [stepsTo_succ (step_poll_busy h (hbusy 0 n.succ_pos)), engineTurns]
    exact ih ((engineTurn_frame s).events.trans h) fun j hj => hbusy (j + 1) (Nat.succ_lt_succ hj)

/-! ### Waiting events have no part in a command -/

theorem finish_runOf_withEvents (i : Instr) (l : Latched) (s : State) (es : List Event) :
    finish { s with events := es } (runOf i l { s with events := es })
      = { finish s (runOf i l s) with events := es } := by
  have bit : ∀ op byte pos, finish { s with events := es }
      (runBitOp op byte pos { s with events := es })
        = { finish s (runBitOp op byte pos s) with events := es } := fun op byte pos => by
    unfold runBitOp
    cases bitPosition pos <;> rfl
  cases i with
  | nop => rfl
  | getBit byte pos => exact bit .get byte pos
  | setBit byte pos => exact bit .set byte pos
  | clearBit byte pos => exact bit .clr byte pos
  | pack =>
    simp only [runOf, runPack]
    split <;> rfl
  | encode =>
    simp only [runOf, runEncode]
    split <;> rfl

theorem runCommandWord_withEvents {w : Word} {s t : State} (h : runCommandWord w s = .next t)
    (es : List Event) :
    runCommandWord w { s with events := es } = .next { t with events := es } := by
  obtain ⟨hbusy, hrun⟩ | ⟨hbusy, i, hw, hrun⟩ | ⟨hbusy, hw, hrun⟩ := runCommandWord_cases w s <;>
    cases hrun.symm.trans h
  · unfold runCommandWord
    split
    case h_1 i _ => exact exec_busy (s := { s with events := es }) hbusy i
    case h_2 => exact execIllegal_busy (s := { s with events := es }) hbusy
  · rw [runCommandWord, hw]
    refine (exec_idle (s := { s with events := es }) hbusy i).trans (congrArg _ ?_)
    exact finish_runOf_withEvents i (latch s) (accept (some i) s) es
  · rw [runCommandWord, hw]
    exact execIllegal_idle (s := { s with events := es }) hbusy

/-- A CMD write through the register port while BUSY = 0 is accepted (R92). -/
theorem step_cmdWrite_idle {s : State} {w : Word} {rest : List Event}
    (hbusy : s.status.busy = false) (h : s.events = .regWrite 0x00 4 w :: rest) :
    step s = .next (accept (verdict w) { s with events := rest }) := by
  rw [step_writeReg .cmd h, writeReg, issue, if_neg (by simp [hbusy])]

/-- Settles O35: the CMD write accepts, each poll that reads BUSY = 1 is a turn of the engine, and
the last one answers STATUS. -/
theorem commandAndPollRunTheCommand : Obligations.CommandAndPollRunTheCommand := by
  intro s w rest hbusy hevents
  obtain ⟨t, hrun, -⟩ := runCommandWord_frame w s
  obtain ⟨-, u, hrun', hdone, -, n, -, hturns, hrunning⟩ :=
    runCommandWord_runsWithin (s := { s with events := .poll :: rest }) hbusy w
  cases (runCommandWord_withEvents hrun (.poll :: rest)).symm.trans hrun'
  have hpolls := stepsTo_poll (s := accept (verdict w) { s with events := .poll :: rest }) rfl
    hrunning
  rw [hturns] at hpolls
  have hanswer : stepsTo 1 { t with events := .poll :: rest }
      = some { t with events := rest, reply := .word (statusWord t.status) } :=
    stepsTo_succ (step_poll_idle rfl hdone) 0
  exact ⟨n + 1 + 1, t, hrun,
    (stepsTo_succ (step_cmdWrite_idle hbusy hevents) _).trans (stepsTo_trans hpolls hanswer)⟩

end Sys2Proof.Machine
end

section
/-! PROOFS. Encoding and decoding: a word is its fields put together (spec/30_encoding.md R71 to
R73), and what the decoder of R79 answers on them. -/

namespace Sys2Proof

/-! ### A word and its fields -/

theorem append_inj_iff {m n : Nat} {a c : BitVec m} {b d : BitVec n} :
    a ++ b = c ++ d ↔ a = c ∧ b = d := by
  constructor
  · intro h
    have hleft := congrArg (BitVec.extractLsb' n m) h
    have hright := congrArg (BitVec.extractLsb' 0 n) h
    rw [BitVec.extractLsb'_append_eq_left, BitVec.extractLsb'_append_eq_left] at hleft
    rw [BitVec.extractLsb'_append_eq_right, BitVec.extractLsb'_append_eq_right] at hright
    exact ⟨hleft, hright⟩
  · rintro ⟨rfl, rfl⟩
    rfl

/-- Format Z: OP and the reserved field (R73). -/
theorem fieldsZ_append (w : Word) : opField w ++ reservedZ w = w :=
  BitVec.extractLsb'_append_extractLsb'

/-- Format B: OP, the reserved field, POS and BYTE (R72). -/
theorem fieldsB_append (w : Word) : opField w ++ reservedB w ++ posField w ++ byteField w = w := by
  have hhigh : opField w ++ reservedB w = w.extractLsb' 12 20 :=
    BitVec.extractLsb'_append_extractLsb'_eq_extractLsb' rfl
  have hpos : w.extractLsb' 12 20 ++ posField w = w.extractLsb' 8 24 :=
    BitVec.extractLsb'_append_extractLsb'_eq_extractLsb' rfl
  rw [hhigh, hpos]
  exact BitVec.extractLsb'_append_extractLsb'

theorem eq_encodeZ_iff {w : Word} {op : BitVec 4} :
    w = encodeZ op ↔ opField w = op ∧ reservedZ w = 0 := by
  conv_lhs => rw [← fieldsZ_append w, encodeZ]
  exact append_inj_iff

theorem eq_encodeB_iff {w : Word} {op : BitVec 4} {byte : Byte} {pos : BitVec 4} :
    w = encodeB op byte pos ↔
      opField w = op ∧ reservedB w = 0 ∧ byteField w = byte ∧ posField w = pos := by
  conv_lhs => rw [← fieldsB_append w, encodeB]
  rw [append_inj_iff, append_inj_iff, append_inj_iff]
  exact ⟨fun ⟨⟨⟨hop, hrsv⟩, hpos⟩, hbyte⟩ => ⟨hop, hrsv, hbyte, hpos⟩,
    fun ⟨hop, hrsv, hbyte, hpos⟩ => ⟨⟨⟨hop, hrsv⟩, hpos⟩, hbyte⟩⟩

@[simp] theorem opField_encodeZ (op : BitVec 4) : opField (encodeZ op) = op :=
  (eq_encodeZ_iff.mp rfl).1

@[simp] theorem opField_encodeB (op : BitVec 4) (byte : Byte) (pos : BitVec 4) :
    opField (encodeB op byte pos) = op :=
  (eq_encodeB_iff.mp rfl).1

/-! ### The decoder and the encoder -/

theorem decodeZ_eq_ok_iff {w : Word} {op : BitVec 4} (hop : opField w = op) {i j : Instr} :
    decodeZ w i = .ok j ↔ w = encodeZ op ∧ i = j := by
  rw [eq_encodeZ_iff, decodeZ]
  split
  case isTrue hrsv => simp only [hop, hrsv, true_and, Except.ok.injEq]
  case isFalse hrsv => simp only [hrsv, and_false, false_and, reduceCtorEq]

theorem decodeB_eq_ok_iff {w : Word} {op : BitVec 4} (hop : opField w = op)
    {f : Byte → BitVec 4 → Instr} {j : Instr} :
    decodeB w f = .ok j ↔ ∃ byte pos, w = encodeB op byte pos ∧ f byte pos = j := by
  simp only [eq_encodeB_iff, decodeB]
  split
  case isTrue hrsv =>
    constructor
    · intro h
      exact ⟨_, _, ⟨hop, hrsv, rfl, rfl⟩, Except.ok.inj h⟩
    · rintro ⟨_, _, ⟨-, -, rfl, rfl⟩, rfl⟩
      rfl
  case isFalse hrsv =>
    constructor
    · nofun
    · rintro ⟨_, _, ⟨-, hrsv', -⟩, -⟩
      exact absurd hrsv' hrsv

/-- Every command decodes from its own word. -/
theorem decode_encode (i : Instr) : decode (encode i) = .ok i := by
  have ofZ (op : BitVec 4) (j : Instr) : decodeZ (encodeZ op) j = .ok j :=
    (decodeZ_eq_ok_iff (opField_encodeZ op)).mpr ⟨rfl, rfl⟩
  have ofB (op : BitVec 4) (byte pos) (f : Byte → BitVec 4 → Instr) :
      decodeB (encodeB op byte pos) f = .ok (f byte pos) :=
    (decodeB_eq_ok_iff (opField_encodeB op byte pos)).mpr ⟨byte, pos, rfl, rfl⟩
  cases i <;> simp only [decode, encode, opField_encodeZ, opField_encodeB]
  case nop => exact ofZ ..
  case getBit byte pos => exact ofB ..
  case setBit byte pos => exact ofB ..
  case clearBit byte pos => exact ofB ..
  case pack => exact ofZ ..
  case encode => exact ofZ ..

/-- A word that decodes to a command is the word of that command. -/
theorem encode_of_decode {w : Word} {i : Instr} (h : decode w = .ok i) : encode i = w := by
  have ofZ {op : BitVec 4} {j : Instr} (hop : (opField w).toNat = op.toNat)
      (hdec : decodeZ w j = .ok i) : w = encodeZ op ∧ j = i :=
    (decodeZ_eq_ok_iff (BitVec.eq_of_toNat_eq hop)).mp hdec
  have ofB {op : BitVec 4} {f : Byte → BitVec 4 → Instr} (hop : (opField w).toNat = op.toNat)
      (hdec : decodeB w f = .ok i) : ∃ byte pos, w = encodeB op byte pos ∧ f byte pos = i :=
    (decodeB_eq_ok_iff (BitVec.eq_of_toNat_eq hop)).mp hdec
  unfold decode at h
  split at h
  case h_1 hop => obtain ⟨rfl, rfl⟩ := ofZ (op := 0x0#4) hop h; rfl
  case h_2 hop => obtain ⟨_, _, rfl, rfl⟩ := ofB (op := 0x1#4) hop h; rfl
  case h_3 hop => obtain ⟨_, _, rfl, rfl⟩ := ofB (op := 0x2#4) hop h; rfl
  case h_4 hop => obtain ⟨_, _, rfl, rfl⟩ := ofB (op := 0x3#4) hop h; rfl
  case h_5 hop => obtain ⟨rfl, rfl⟩ := ofZ (op := 0x4#4) hop h; rfl
  case h_6 hop => obtain ⟨rfl, rfl⟩ := ofZ (op := 0x5#4) hop h; rfl
  case h_7 => cases h

theorem verdict_eq_some_iff {w : Word} {i : Instr} : verdict w = some i ↔ w = encode i := by
  have hok : decode w = .ok i ↔ w = encode i :=
    ⟨fun h => (encode_of_decode h).symm, fun h => h ▸ decode_encode i⟩
  rw [← hok, verdict]
  split
  case h_1 j hj => rw [hj, Option.some.injEq, Except.ok.injEq]
  case h_2 x hx => rw [hx]; exact ⟨nofun, nofun⟩

/-! ### Written commands (R80) -/

theorem raw_wellFormed (i : Instr) : i.raw.wellFormed = true := by
  cases i with
  | nop => exact Laws.EncodedWord.nop.2
  | getBit byte pos => exact (Laws.EncodedWord.getBit byte pos).2
  | setBit byte pos => exact (Laws.EncodedWord.setBit byte pos).2
  | clearBit byte pos => exact (Laws.EncodedWord.clearBit byte pos).2
  | pack => exact Laws.EncodedWord.pack.2
  | encode => exact Laws.EncodedWord.encode.2

theorem raw_toInstr (i : Instr) : i.raw.toInstr = some i := by
  rw [RawCommand.toInstr, if_pos (raw_wellFormed i)]
  cases i <;> simp [Instr.raw, Instr.mnemonic, Instr.operands]

/-- Settles O1, by the fields of the two formats. -/
theorem decodeOfEncodeIsTheCommand : Obligations.DecodeOfEncodeIsTheCommand :=
  fun i => ⟨decode_encode i, raw_wellFormed i, raw_toInstr i⟩

/-- Settles O2, case by case of the decoder: OP is known, the reserved field is zero, and the
remaining fields are the operands. -/
theorem encodeOfDecodeIsTheWord : Obligations.EncodeOfDecodeIsTheWord :=
  fun _ _ h => encode_of_decode h

end Sys2Proof
end

section
/-! PROOFS. The opcode map (spec/30_encoding.md R75): a row selects the words of its command. -/

namespace Sys2Proof

theorem selects_maskZ {r : OpcodeRow} (hmask : r.mask = 0xFFFFFFFF#32) (w : Word) :
    r.selects w = true ↔ w = r.pattern := by
  rw [OpcodeRow.selects, hmask, beq_iff_eq]
  exact Eq.congr_left BitVec.and_allOnes

/-- The mask of format B keeps OP and the reserved field. -/
theorem and_maskB (w : Word) :
    w &&& 0xFFFFF000#32 = opField w ++ reservedB w ++ 0#4 ++ 0#8 := by
  calc w &&& 0xFFFFF000#32
    _ = (opField w ++ reservedB w ++ posField w ++ byteField w)
          &&& (BitVec.allOnes 4 ++ BitVec.allOnes 16 ++ 0#4 ++ 0#8) :=
      congrArg (· &&& 0xFFFFF000#32) (fieldsB_append w).symm
    _ = opField w ++ reservedB w ++ 0#4 ++ 0#8 := by
      simp only [BitVec.and_append, BitVec.and_allOnes, BitVec.and_zero]

theorem selects_maskB {r : OpcodeRow} {op : BitVec 4} (hmask : r.mask = 0xFFFFF000#32)
    (hpattern : r.pattern = encodeB op 0#8 0#4) (w : Word) :
    r.selects w = true ↔ ∃ byte pos, w = encodeB op byte pos := by
  have hfields : r.selects w = true ↔ opField w = op ∧ reservedB w = 0 := by
    rw [OpcodeRow.selects, hmask, hpattern, beq_iff_eq, and_maskB, encodeB,
      append_inj_iff, append_inj_iff, append_inj_iff]
    exact ⟨fun ⟨⟨h, _⟩, _⟩ => h, fun h => ⟨⟨h, rfl⟩, rfl⟩⟩
  simp only [hfields, eq_encodeB_iff, exists_and_left, exists_eq', and_true]

/-- A row of a command without operands. -/
theorem selectsZ_iff {r : OpcodeRow} {i : Instr} (hmask : r.mask = 0xFFFFFFFF#32)
    (hpattern : r.pattern = encode i) (hrow : ∀ j : Instr, j.mnemonic = r.mnemonic ↔ j = i)
    (w : Word) : r.selects w = true ↔ ∃ j, w = encode j ∧ j.mnemonic = r.mnemonic := by
  simp only [selects_maskZ hmask, hpattern, hrow, exists_eq_right]

/-- A row of a command with operands. -/
theorem selectsB_iff {r : OpcodeRow} {op : BitVec 4} {f : Byte → BitVec 4 → Instr}
    (hmask : r.mask = 0xFFFFF000#32) (hpattern : r.pattern = encodeB op 0#8 0#4)
    (hencode : ∀ byte pos, encode (f byte pos) = encodeB op byte pos)
    (hrow : ∀ j : Instr, j.mnemonic = r.mnemonic ↔ ∃ byte pos, j = f byte pos)
    (w : Word) : r.selects w = true ↔ ∃ j, w = encode j ∧ j.mnemonic = r.mnemonic := by
  rw [selects_maskB hmask hpattern]
  constructor
  · rintro ⟨byte, pos, rfl⟩
    exact ⟨f byte pos, (hencode byte pos).symm, (hrow _).mpr ⟨byte, pos, rfl⟩⟩
  · rintro ⟨j, rfl, hj⟩
    obtain ⟨byte, pos, rfl⟩ := (hrow j).mp hj
    exact ⟨byte, pos, hencode byte pos⟩

/-- R75: a row of the opcode map selects exactly the words of its command. -/
theorem selects_iff (w : Word) : ∀ r ∈ opcodeTable,
    (r.selects w = true ↔ ∃ j, w = encode j ∧ j.mnemonic = r.mnemonic) := by
  simp only [opcodeTable, List.forall_mem_cons]
  refine ⟨selectsZ_iff (i := .nop) rfl rfl ?_ w,
    selectsB_iff (f := .getBit) rfl rfl (fun _ _ => rfl) ?_ w,
    selectsB_iff (f := .setBit) rfl rfl (fun _ _ => rfl) ?_ w,
    selectsB_iff (f := .clearBit) rfl rfl (fun _ _ => rfl) ?_ w,
    selectsZ_iff (i := .pack) rfl rfl ?_ w,
    selectsZ_iff (i := .encode) rfl rfl ?_ w, List.forall_mem_nil _⟩ <;>
  exact fun j => by cases j <;> simp [Instr.mnemonic]

theorem selectedRows_eq (w : Word) : selectedRows w
    = opcodeTable.filter (fun r => decide ((verdict w).map Instr.mnemonic = some r.mnemonic)) := by
  refine List.filter_congr fun r hr => Bool.eq_iff_iff.mpr ?_
  simp only [selects_iff w r hr, decide_eq_true_eq, Option.map_eq_some_iff, verdict_eq_some_iff]

/-- Settles O3: a row is selected by its command's words only, so the rows left are
those with the mnemonic of the decoded command, and the table has one for each. -/
theorem opcodeMapSelectsTheDecodedRow : Obligations.OpcodeMapSelectsTheDecodedRow := by
  intro w
  rw [selectedRows_eq]
  constructor
  · intro i hw
    rw [hw]
    cases i <;> exact ⟨_, rfl, rfl⟩
  · intro hw
    rw [hw]
    rfl

end Sys2Proof
end

section
/-! PROOFS. The decoder in terms of the word's number (spec/30_encoding.md R79, R83). -/

namespace Sys2Proof

/-! ### The fields as numbers -/

theorem opField_toNat (w : Word) : (opField w).toNat = w.toNat / 2 ^ 28 := by
  have hw := w.isLt
  rw [opField, BitVec.extractLsb'_toNat, Nat.shiftRight_eq_div_pow]
  omega

theorem reservedZ_eq_zero_iff {w : Word} : reservedZ w = 0 ↔ w.toNat % 2 ^ 28 = 0 := by
  rw [← BitVec.toNat_inj]
  rfl

theorem reservedB_eq_zero_iff {w : Word} : reservedB w = 0 ↔ w.toNat / 2 ^ 12 % 2 ^ 16 = 0 := by
  rw [← BitVec.toNat_inj, reservedB, BitVec.extractLsb'_toNat, Nat.shiftRight_eq_div_pow]
  rfl

theorem byteField_eq_ofNat (w : Word) : byteField w = BitVec.ofNat 8 (w.toNat % 256) := by
  apply BitVec.eq_of_toNat_eq
  simp [byteField]

theorem posField_eq_ofNat (w : Word) : posField w = BitVec.ofNat 4 (w.toNat / 2 ^ 8 % 16) := by
  apply BitVec.eq_of_toNat_eq
  simp [posField, Nat.shiftRight_eq_div_pow]

/-! ### The verdict by opcode -/

theorem verdict_of_decodeZ {w : Word} {i : Instr} (h : decode w = decodeZ w i) :
    verdict w = if w.toNat % 2 ^ 28 = 0 then some i else none := by
  simp only [verdict, h, decodeZ, reservedZ_eq_zero_iff]
  by_cases hrsv : w.toNat % 2 ^ 28 = 0 <;> simp only [hrsv, if_true, if_false]

theorem verdict_of_decodeB {w : Word} {f : Byte → BitVec 4 → Instr} (h : decode w = decodeB w f) :
    verdict w = if w.toNat / 2 ^ 12 % 2 ^ 16 = 0 then
      some (f (BitVec.ofNat 8 (w.toNat % 256)) (BitVec.ofNat 4 (w.toNat / 2 ^ 8 % 16)))
    else none := by
  simp only [verdict, h, decodeB, reservedB_eq_zero_iff, byteField_eq_ofNat, posField_eq_ofNat]
  by_cases hrsv : w.toNat / 2 ^ 12 % 2 ^ 16 = 0 <;> simp only [hrsv, if_true, if_false]

theorem decode_reservedOpcode {w : Word} (h : 6 ≤ w.toNat / 2 ^ 28) :
    decode w = .error .reservedOpcode := by
  rw [← opField_toNat] at h
  unfold decode
  split
  case h_7 => rfl
  all_goals omega

/-- Settles O4: OP chooses the format, and the format's reserved field the verdict. -/
theorem decoderIsTheCaseTable : Obligations.DecoderIsTheCaseTable := by
  intro w
  refine ⟨fun h => verdict_of_decodeZ ?_, fun h => verdict_of_decodeB ?_,
    fun h => verdict_of_decodeB ?_, fun h => verdict_of_decodeB ?_,
    fun h => verdict_of_decodeZ ?_, fun h => verdict_of_decodeZ ?_,
    fun h => by rw [verdict, decode_reservedOpcode h]⟩ <;>
  simp only [decode, opField_toNat, h]

/-- Settles O5, by running the decoder on the ten words. -/
theorem writtenOutWordsDecode : Obligations.WrittenOutWordsDecode := by
  unfold Obligations.WrittenOutWordsDecode
  decide

end Sys2Proof
end

section
/-! PROOFS. The Illegal words (spec/30_encoding.md R76, R77) and the state an accepted one leaves
(spec/60_exceptions.md R201); an idle core and a poll (R81, spec/70_reset_and_hazards.md R234). -/

namespace Sys2Proof.Machine

/-- R76, R77: under each OP of the case table, the reserved field decides. -/
theorem reservedWord_iff_verdict_eq_none (w : Word) : reservedWord w ↔ verdict w = none := by
  obtain ⟨h0, h1, h2, h3, h4, h5, h6⟩ := decoderIsTheCaseTable w
  have formatZ (h : w.toNat / 2 ^ 28 = 0 ∨ w.toNat / 2 ^ 28 = 4 ∨ w.toNat / 2 ^ 28 = 5) :
      verdict w = none ↔ w.toNat % 2 ^ 28 ≠ 0 := by
    obtain h | h | h := h
    · simp [h0 h]
    · simp [h4 h]
    · simp [h5 h]
  have formatB (h : w.toNat / 2 ^ 28 = 1 ∨ w.toNat / 2 ^ 28 = 2 ∨ w.toNat / 2 ^ 28 = 3) :
      verdict w = none ↔ w.toNat / 2 ^ 12 % 2 ^ 16 ≠ 0 := by
    obtain h | h | h := h
    · simp [h1 h]
    · simp [h2 h]
    · simp [h3 h]
  have hop : 6 ≤ w.toNat / 2 ^ 28 ∨
      (w.toNat / 2 ^ 28 = 0 ∨ w.toNat / 2 ^ 28 = 4 ∨ w.toNat / 2 ^ 28 = 5) ∨
      (w.toNat / 2 ^ 28 = 1 ∨ w.toNat / 2 ^ 28 = 2 ∨ w.toNat / 2 ^ 28 = 3) := by
    omega
  unfold reservedWord
  obtain h | h | h := hop
  · exact iff_of_true (.inl h) (h6 h)
  · rw [formatZ h]
    omega
  · rw [formatB h]
    omega

/-- A command that is accepted and ends in error (R94, R207). -/
theorem complete_accept_eq_endedInError {s : State} (hbusy : s.status.busy = false)
    (c : Option Instr) (e : ErrorKind) : complete (some e) (accept c s) = endedInError e s := by
  unfold complete accept endedInError Status.complete Status.recordError
  rw [← hbusy]

/-- Settles O9: by the case table the reserved words are the Illegal ones, and running the verdict
Illegal is acceptance and completion with the error. -/
theorem illegalWordEndsInIllegalCommand : Obligations.IllegalWordEndsInIllegalCommand := by
  refine ⟨rfl, fun w => ⟨reservedWord_iff_verdict_eq_none w, fun s rest hbusy hw hevents => ?_⟩⟩
  have hverdict := (reservedWord_iff_verdict_eq_none w).mp hw
  rw [step_event hevents, runEvent, runCommandWord, hverdict]
  exact (execIllegal_idle (s := { s with events := rest }) hbusy).trans
    (congrArg _ (complete_accept_eq_endedInError (s := { s with events := rest }) hbusy none _))

theorem step_no_event {s : State} (h : s.events = []) : step s = .next (engineTurn s) := by
  rw [step, runNext, h]

/-- Settles O55: an engine turn of an idle core changes nothing. -/
theorem idleCoreWaitsAndPollReturns : Obligations.IdleCoreWaitsAndPollReturns := fun _ =>
  ⟨fun hevents hidle => (step_no_event hevents).trans (congrArg _ (engineTurn_idle hidle)),
    step_no_event, fun _ => step_poll_idle, fun _ => step_poll_busy⟩

end Sys2Proof.Machine
end

section
/-! PROOFS. A CMD write by the word it holds and by BUSY (spec/40_command_control.md R90 to R92,
R95): the decoded command's transition, acceptance through the register port, and NOP (R100). -/

namespace Sys2Proof.Machine

/-! ### The transition of a word -/

theorem verdict_of_decode_ok {w : Word} {i : Instr} (h : decode w = .ok i) : verdict w = some i := by
  rw [verdict, h]

theorem verdict_of_decode_error {w : Word} {x : IllegalWord} (h : decode w = .error x) :
    verdict w = none := by
  rw [verdict, h]

theorem runCommandWord_of_some {w : Word} {i : Instr} (h : verdict w = some i) (s : State) :
    runCommandWord w s = exec i s := by
  rw [runCommandWord, h]

theorem runCommandWord_of_none {w : Word} (h : verdict w = none) (s : State) :
    runCommandWord w s = execIllegal s := by
  rw [runCommandWord, h]

theorem step_withFetchWord (s : State) (n v : Nat) :
    step (s.withFetchWord n v) = runCommandWord (tableWord n v) s :=
  step_event (s := s.withFetchWord n v) rfl

/-- Settles O6: a step on a CMD write is the transition of its word, which the verdict chooses. -/
theorem stepRunsTheDecodedCommand : Obligations.StepRunsTheDecodedCommand := by
  intro s
  refine ⟨fun w rest hevents => ?_, fun n v => ?_⟩
  · rw [step_event hevents]
    exact ⟨fun i hw => runCommandWord_of_some (verdict_of_decode_ok hw) _,
      fun x hw => runCommandWord_of_none (verdict_of_decode_error hw) _⟩
  · rw [step_withFetchWord]
    exact ⟨fun i hw => runCommandWord_of_some hw s, fun hw => runCommandWord_of_none hw s⟩

/-! ### The register port -/

theorem writeReg_cmd_busy {s : State} (h : s.status.busy = true) (w : Word) :
    writeReg w s .cmd = recordError .cmdWhileBusy s :=
  if_pos h

theorem writeReg_cmd_idle {s : State} (h : s.status.busy = false) (w : Word) :
    writeReg w s .cmd = accept (verdict w) s :=
  if_neg (by simp [h])

/-- Settles O8: at BUSY = 0 the port accepts the word's verdict. -/
theorem acceptanceSetsBusyAndLatches : Obligations.AcceptanceSetsBusyAndLatches :=
  fun _ w hbusy => writeReg_cmd_idle hbusy w

/-! ### NOP -/

/-- Acceptance and completion without a write leave DONE set and the engine IDLE. -/
theorem complete_none_accept {s : State} (hbusy : s.status.busy = false) (c : Option Instr) :
    complete none (accept c s)
      = { s with status := { s.status with done := true }, engine := .idle } := by
  unfold complete accept Status.complete
  rw [← hbusy]

/-- Settles O13: `Run(NOP, L)` writes nothing, and every other word with its OP has a nonzero
reserved field. -/
theorem nopCompletes : Obligations.NopCompletes := by
  refine ⟨rfl, fun w hop hw => ?_, fun s => ⟨fun hbusy => ?_, fun hbusy => exec_busy hbusy .nop⟩⟩
  · have hne : w.toNat ≠ 0 := fun h => hw (BitVec.eq_of_toNat_eq h)
    have hreserved : w.toNat % 2 ^ 28 ≠ 0 := by omega
    exact (reservedWord_iff_verdict_eq_none w).mp (.inr (.inl ⟨.inl hop, hreserved⟩))
  · exact (exec_idle hbusy .nop).trans (congrArg _ (complete_none_accept hbusy _))

end Sys2Proof.Machine
end

section
/-! PROOFS. ERROR and ERRCODE have no part in what a command computes (spec/60_exceptions.md R210),
so a rejected CMD write leaves the running command alone (spec/40_command_control.md R91). -/

namespace Sys2Proof.Machine

/-- The two STATUS values agree but for ERROR and ERRCODE. -/
def Status.SameButError (st st' : Status) : Prop :=
  { st with error := st'.error, errcode := st'.errcode } = st'

theorem Status.SameButError.withBusy {st st' : Status} (h : st.SameButError st') (b : Bool) :
    { st with busy := b }.SameButError { st' with busy := b } := by
  rw [← h]
  rfl

/-- No way of writing STATUS reads ERROR or ERRCODE to write another field. -/
theorem StatusUpdate.sameButError {f : Status → Status} (hf : StatusUpdate f) {st st' : Status}
    (h : st.SameButError st') : (f st).SameButError (f st') := by
  cases hf with
  | keep => exact h
  | complete o =>
    rw [← h]
    cases o <;> rfl
  | packed n nonbin =>
    rw [← h]
    rfl
  | encoded ovf =>
    rw [← h]
    rfl

/-- With another ERROR and ERRCODE, any number of turns ends in the same state but for those two. -/
theorem engineTurns_sameButError (n : Nat) (s : State) {st : Status}
    (h : st.SameButError s.status) :
    ∃ st', engineTurns n { s with status := st } = { engineTurns n s with status := st' } ∧
      st'.SameButError (engineTurns n s).status := by
  induction n generalizing s st with
  | zero => exact ⟨st, rfl, h⟩
  | succ n ih =>
    obtain ⟨f, hf, hturn⟩ := engineTurn_updatesStatus s
    have hstatus : (engineTurn s).status = f s.status := congrArg State.status (hturn s.status)
    have hnext : (f st).SameButError (engineTurn s).status := hstatus ▸ hf.sameButError h
    obtain ⟨st', hturns, hsame⟩ := ih (engineTurn s) hnext
    exact ⟨st', by rw [engineTurns, hturn, hturns, engineTurns], hsame⟩

/-- Settles O7: every CMD write only records the error, and the turns do not read it. -/
theorem commandWhileBusyIsRejected : Obligations.CommandWhileBusyIsRejected := by
  intro s hbusy
  refine ⟨exec_busy hbusy, execIllegal_busy hbusy, writeReg_cmd_busy hbusy, fun n => ?_⟩
  obtain ⟨st, hturns, hsame⟩ := engineTurns_sameButError n s
    (st := s.status.recordError .cmdWhileBusy) rfl
  exact hturns ▸ ⟨rfl, rfl, rfl, rfl, rfl, rfl, hsame⟩

/-- With another ERROR and ERRCODE, a command answers the same state but for those two. -/
theorem exec_sameButError (i : Instr) {s : State} {st : Status} (hbusy : s.status.busy = false)
    (h : st.SameButError s.status) :
    ∃ t st', exec i s = .next t ∧ exec i { s with status := st } = .next { t with status := st' } ∧
      st'.SameButError t.status := by
  obtain ⟨f, hf, hrun⟩ := finish_runOf_updatesStatus i (latch s) (accept (some i) s)
  have hbusy' : st.busy = false := (congrArg Status.busy h).trans hbusy
  have hstatus := congrArg State.status (hrun (accept (some i) s).status)
  exact ⟨_, f { st with busy := true }, exec_idle hbusy i,
    (exec_idle (s := { s with status := st }) hbusy' i).trans (congrArg _ (hrun _)),
    hstatus ▸ hf.sameButError (h.withBusy true)⟩

/-- Settles O11: a command's way of writing STATUS reads neither ERROR nor ERRCODE. -/
theorem recordedErrorBlocksNoCommand : Obligations.RecordedErrorBlocksNoCommand := by
  intro s i err code hbusy
  obtain ⟨t, st, ht, hu, hsame⟩ := exec_sameButError i
    (st := { s.status with error := err, errcode := code }) hbusy rfl
  exact ⟨t, _, ht, hu, congrArg (fun st => { t with status := st }) hsame⟩

end Sys2Proof.Machine
end

section
/-! PROOFS. The engine reads the latched operands only, so a write of an operand register commutes
with its turns (spec/40_command_control.md R93). -/

namespace Sys2Proof.Machine

/-- The state with the six operand registers holding the given values. -/
def State.withOperands (s : State) (o : Latched) : State :=
  { s with
    pkSrc := o.pkSrc, pkDst := o.pkDst, pkLen := o.pkLen
    enSrc := o.enSrc, enDst := o.enDst, enLen := o.enLen }

theorem finish_runBitOp_withOperands (op : BitOp) (byte : Byte) (pos : BitVec 4) (o : Latched)
    (s : State) : finish (s.withOperands o) (runBitOp op byte pos (s.withOperands o))
      = (finish s (runBitOp op byte pos s)).withOperands o := by
  unfold runBitOp
  cases bitPosition pos <;> rfl

theorem turnAccepted_withOperands (c : Option Instr) (l o : Latched) (s : State) :
    turnAccepted c l (s.withOperands o) = (turnAccepted c l s).withOperands o := by
  cases c with
  | none => rfl
  | some i =>
    cases i with
    | pack => rfl
    | encode => rfl
    | nop => rfl
    | getBit byte pos => exact finish_runBitOp_withOperands .get byte pos o s
    | setBit byte pos => exact finish_runBitOp_withOperands .set byte pos o s
    | clearBit byte pos => exact finish_runBitOp_withOperands .clr byte pos o s

theorem engineTurn_withOperands (s : State) (o : Latched) :
    engineTurn (s.withOperands o) = (engineTurn s).withOperands o := by
  have hengine : (s.withOperands o).engine = s.engine := rfl
  unfold engineTurn
  rw [hengine]
  cases s.engine with
  | idle => rfl
  | accepted c l => exact turnAccepted_withOperands c l o s
  | pkCheck l =>
    dsimp only [turnPkCheck, State.withOperands]
    split
    · split <;> rfl
    · rfl
  | pkElem l r =>
    dsimp only [turnPkElem, State.withOperands]
    split
    · split <;> rfl
    · rfl
  | pkFinish l r => rfl
  | pkEnd e => rfl
  | enCheck l =>
    dsimp only [turnEnCheck, State.withOperands]
    split <;> rfl
  | enPre l => rfl
  | enScan l r =>
    dsimp only [turnEnScan]
    split <;> rfl
  | enFinish l r =>
    dsimp only [turnEnFinish]
    split <;> rfl
  | enEnd e => rfl

theorem engineTurns_withOperands (n : Nat) (s : State) (o : Latched) :
    engineTurns n (s.withOperands o) = (engineTurns n s).withOperands o := by
  induction n generalizing s with
  | zero => rfl
  | succ n ih => rw [engineTurns, engineTurn_withOperands, ih, engineTurns]

/-- A write of an operand register sets what the next acceptance latches, and nothing else. -/
theorem writeReg_operand_eq {r : RegName} (hr : r ∈ operandRegs) (v : Word) (s : State) :
    writeReg v s r = s.withOperands (latch (writeReg v s r)) := by
  simp only [operandRegs, List.mem_cons, List.not_mem_nil, or_false] at hr
  rcases hr with rfl | rfl | rfl | rfl | rfl | rfl <;> rfl

/-- What is latched after the write depends on the operand registers before it only. -/
theorem SameFrame.latch_writeReg {s t : State} (h : SameFrame s t) {r : RegName}
    (hr : r ∈ operandRegs) (v : Word) : latch (writeReg v t r) = latch (writeReg v s r) := by
  obtain ⟨-, hpkSrc, hpkDst, hpkLen, henSrc, henDst, henLen, -, -⟩ := h
  simp only [operandRegs, List.mem_cons, List.not_mem_nil, or_false] at hr
  rcases hr with rfl | rfl | rfl | rfl | rfl | rfl <;>
    simp only [writeReg, latch, hpkSrc, hpkDst, hpkLen, henSrc, henDst, henLen]

/-- Settles O37: acceptance latches the registers, and the write, which changes no more than they
hold, commutes with the turns, which do not read them. -/
theorem operandWritesMissTheRunningCommand : Obligations.OperandWritesMissTheRunningCommand := by
  refine ⟨fun s w hbusy => congrArg State.engine (writeReg_cmd_idle hbusy w),
    fun s r v n hr => ⟨?_, ?_⟩⟩
  · rw [readReg_writeReg_operand hr, if_pos rfl]
  · rw [writeReg_operand_eq hr, engineTurns_withOperands, writeReg_operand_eq hr v (engineTurns n s),
      (engineTurns_frame n s).latch_writeReg hr]

end Sys2Proof.Machine
end

section
/-! PROOFS. The engine's turns from acceptance end where the atomic command does, and stay there
(spec/40_command_control.md R94, R98; `RunsWithin`). -/

namespace Sys2Proof.Machine

/-- Settles O31, by the packer's simulation `accept_pack_runsWithin`. -/
theorem packEngineRefinesPack : Obligations.PackEngineRefinesPack := by
  intro s hbusy
  obtain ⟨n, hn, hturns, hrunning⟩ := accept_pack_runsWithin s
  exact ⟨n, _, exec_idle hbusy .pack, hturns, hn, hrunning⟩

/-- Settles O32, by the encoder's simulation `accept_encode_runsWithin`. -/
theorem encodeEngineRefinesEncode : Obligations.EncodeEngineRefinesEncode := by
  intro s hbusy
  obtain ⟨n, hn, hturns, hrunning⟩ := accept_encode_runsWithin s
  exact ⟨n, _, exec_idle hbusy .encode, hturns, hn, hrunning⟩

/-- Settles O33: after the completing turn the engine is IDLE, and its turns change nothing. -/
theorem atomicCommandIsAcceptanceThenTurns : Obligations.AtomicCommandIsAcceptanceThenTurns := by
  intro s w hbusy
  obtain ⟨-, t, hrun, hdone, hidle, n, -, hturns, -⟩ := runCommandWord_runsWithin hbusy w
  refine ⟨n, t, hrun, hdone, fun j hj => ?_⟩
  obtain ⟨k, rfl⟩ := Nat.exists_eq_add_of_le hj
  rw [writeReg_cmd_idle hbusy, engineTurns_add, hturns, engineTurns_idle hidle]

end Sys2Proof.Machine
end

section
/-! PROOFS. Every command completes (spec/40_command_control.md R97): from every state of the
invariant, each turn of a running engine lowers a bound on the turns it has left. -/

namespace Sys2Proof.Machine

open Sys2Proof.Config

/-- A bound on the engine's turns up to the one that completes: a turn per element of PACK; for ENCODE
a turn per index and per byte of an element, with the bytes that wait. -/
def turnsLeft (P : Params) : Engine → Nat
  | .idle => 0
  | .accepted _ l => 8 * groupCount l + l.enLen.toNat * (1 + elemBytes P) + elemBytes P + 4
  | .pkCheck l => 8 * groupCount l + 2
  | .pkElem l r => 8 * groupCount l - packIndex r.g.toNat r.i.toNat + 1
  | .pkFinish _ _ => 1
  | .pkEnd _ => 1
  | .enCheck l => l.enLen.toNat * (1 + elemBytes P) + elemBytes P + 3
  | .enPre l => l.enLen.toNat * (1 + elemBytes P) + elemBytes P + 2
  | .enScan l r => r.pend.length + (l.enLen.toNat - r.i.toNat) * (1 + elemBytes P) + 1
  | .enFinish _ r => r.pend.length + 1
  | .enEnd _ => 1

/-! ### One turn of each engine state -/

theorem turnAccepted_turnsLeft (P : Params) (c : Option Instr) (l : Latched) (s : State) :
    turnsLeft P (turnAccepted c l s).engine < turnsLeft P (.accepted c l) := by
  have completes : ∀ r, turnsLeft P (finish s r).engine < turnsLeft P (.accepted c l) := fun r => by
    rw [finish_engine]
    exact Nat.succ_pos _
  cases c with
  | none => exact completes _
  | some i =>
    cases i with
    | pack =>
      simp only [turnAccepted, turnsLeft]
      omega
    | encode =>
      simp only [turnAccepted, turnsLeft]
      omega
    | nop => exact completes _
    | getBit byte pos => exact completes _
    | setBit byte pos => exact completes _
    | clearBit byte pos => exact completes _

theorem turnPkCheck_turnsLeft (P : Params) (l : Latched) (s : State) :
    turnsLeft P (turnPkCheck l s).engine < turnsLeft P (.pkCheck l) := by
  unfold turnPkCheck
  split
  · split <;> simp only [turnsLeft] <;> omega
  · simp only [turnsLeft]
    omega

/-- The next position, or the next group, has the next index. -/
theorem turnPkElem_turnsLeft (P : Params) {l : Latched} {r : PackRegs}
    (hg : r.g.toNat < groupCount l) (s : State) :
    turnsLeft P (turnPkElem l r s).engine < turnsLeft P (.pkElem l r) := by
  have hlen := l.pkLen.isLt
  have hgroups := groupCount_le l
  have hgnext : (r.g + 1).toNat = r.g.toNat + 1 := word_succ le_rfl (by omega)
  unfold turnPkElem
  dsimp only
  split
  case isTrue hlast =>
    have hpos : r.i.toNat = 7 := congrArg BitVec.toNat hlast
    split
    case isTrue =>
      simp only [turnsLeft, packIndex, hpos]
      omega
    case isFalse =>
      have hzero : (0 : BitVec 3).toNat = 0 := rfl
      simp only [turnsLeft, packIndex, hgnext, hpos, hzero]
      omega
  case isFalse hpos =>
    have hinext : (r.i + 1).toNat = r.i.toNat + 1 := by bv_omega
    simp only [turnsLeft, packIndex, hinext]
    omega

theorem turnEnCheck_turnsLeft (P : Params) (l : Latched) (s : State) :
    turnsLeft P (turnEnCheck l s).engine < turnsLeft P (.enCheck l) := by
  unfold turnEnCheck
  split <;> simp only [turnsLeft] <;> omega

theorem scanOrFinish_turnsLeft (P : Params) (l : Latched) (r : EncRegs) :
    turnsLeft P (scanOrFinish l r)
      ≤ r.pend.length + (l.enLen.toNat - r.i.toNat) * (1 + elemBytes P) + 1 := by
  unfold scanOrFinish
  split
  · exact le_rfl
  · simp only [turnsLeft]
    omega

theorem emitPend_pend_length (P : Params) (l : Latched) (x : Word) (r : EncRegs) :
    (emitPend P l x r).pend.length = elemBytes P :=
  elemCells_length _ _ _

theorem turnEnPre_turnsLeft (l : Latched) (s : State) :
    turnsLeft s.params (turnEnPre l s).engine < turnsLeft s.params (.enPre l) := by
  have enters : ∀ r : EncRegs, r.pend.length ≤ elemBytes s.params →
      turnsLeft s.params (scanOrFinish l r) < turnsLeft s.params (.enPre l) := fun r hpend => by
    have hindices := Nat.mul_le_mul_right (1 + elemBytes s.params)
      (Nat.sub_le l.enLen.toNat r.i.toNat)
    refine (scanOrFinish_turnsLeft s.params l r).trans_lt ?_
    simp only [turnsLeft]
    omega
  unfold turnEnPre
  dsimp only
  split
  case isTrue => exact enters _ (emitPend_pend_length _ _ _ _).le
  case isFalse => exact enters _ (Nat.zero_le _)

theorem encIndexAt_pend_length (P : Params) (l : Latched) (v : Byte) {r : EncRegs}
    (h : r.pend = []) : (encIndexAt P l v r).pend.length ≤ elemBytes P := by
  unfold encIndexAt
  dsimp only
  split
  · simp [h]
  · exact (emitPend_pend_length P l _ _).le

theorem turnEnScan_turnsLeft {l : Latched} {r : EncRegs} {s : State}
    (hok : engineOk s.params (.enScan l r)) :
    turnsLeft s.params (turnEnScan l r s).engine < turnsLeft s.params (.enScan l r) := by
  obtain ⟨hrange, hi, hki, -⟩ := hok
  unfold turnEnScan
  split
  case h_1 c cs hcons =>
    simp only [turnsLeft, hcons, List.length_cons]
    omega
  case h_2 hnil =>
    obtain ⟨hnext, -, -⟩ := encIndexAt_bounds hrange hi hki hnil
      (readByte s.mem (packedAddr l r.i.toNat))
    have hpend := encIndexAt_pend_length s.params l (readByte s.mem (packedAddr l r.i.toNat)) hnil
    dsimp only
    generalize encIndexAt s.params l (readByte s.mem (packedAddr l r.i.toNat)) r = r' at *
    obtain ⟨d, hd⟩ := Nat.exists_eq_add_of_lt hi
    have hleft : l.enLen.toNat - r.i.toNat = d + 1 := by omega
    have hleft' : l.enLen.toNat - r'.i.toNat = d := by omega
    calc turnsLeft s.params (scanOrFinish l r')
      _ ≤ r'.pend.length + d * (1 + elemBytes s.params) + 1 :=
        hleft' ▸ scanOrFinish_turnsLeft s.params l r'
      _ < (d + 1) * (1 + elemBytes s.params) + 1 := by
        rw [Nat.succ_mul]
        omega
      _ = turnsLeft s.params (.enScan l r) := by simp [turnsLeft, hnil, hleft]

theorem turnEnFinish_turnsLeft (P : Params) (l : Latched) (r : EncRegs) (s : State) :
    turnsLeft P (turnEnFinish l r s).engine < turnsLeft P (.enFinish l r) := by
  unfold turnEnFinish
  split
  case h_1 c cs hcons => simp [turnsLeft, hcons]
  case h_2 => exact Nat.succ_pos _

/-! ### Every turn -/

theorem engineTurn_turnsLeft {s : State} (h : Inv s) (hrunning : s.engine ≠ .idle) :
    turnsLeft s.params (engineTurn s).engine < turnsLeft s.params s.engine := by
  have hok := h.engine
  unfold engineTurn
  cases he : s.engine <;> rw [he] at hok <;> dsimp only
  case idle => exact absurd he hrunning
  case accepted c l => exact turnAccepted_turnsLeft s.params c l s
  case pkCheck l => exact turnPkCheck_turnsLeft s.params l s
  case pkElem l r =>
    obtain ⟨-, hg⟩ := hok
    exact turnPkElem_turnsLeft s.params hg s
  case pkFinish l r => exact Nat.one_pos
  case pkEnd e => exact Nat.one_pos
  case enCheck l => exact turnEnCheck_turnsLeft s.params l s
  case enPre l => exact turnEnPre_turnsLeft l s
  case enScan l r => exact turnEnScan_turnsLeft hok
  case enFinish l r => exact turnEnFinish_turnsLeft s.params l r s
  case enEnd e => exact Nat.one_pos

/-- Settles O34, by induction on the bound on the turns left: at IDLE the invariant gives BUSY = 0. -/
theorem engineAlwaysCompletes : Obligations.EngineAlwaysCompletes := by
  intro s h
  induction hbound : turnsLeft s.params s.engine using Nat.strong_induction_on generalizing s with
  | _ bound ih =>
    by_cases hidle : s.engine = .idle
    · exact ⟨0, h.idleIff.mp hidle⟩
    · have hless := engineTurn_turnsLeft h hidle
      rw [hbound, ← (engineTurn_frame s).params] at hless
      obtain ⟨n, hn⟩ := ih _ hless _ (engineTurn_inv h) rfl
      exact ⟨n + 1, hn⟩

end Sys2Proof.Machine
end

section
/-! PROOFS. The bit primitives (spec/41_bit_primitives.md): what each does to a byte bit by bit
(R110), the laws that follow (R120, R121), and the three commands of format B (R112, R114, R116). -/

namespace Sys2Proof.Machine

/-! ### The primitives bit by bit -/

@[simp] theorem bitMask_getLsbD (p : BitVec 3) (j : Nat) :
    (bitMask p).getLsbD j = decide (j = p.toNat) := by
  have hp : p.toNat < 8 := p.isLt
  have hmask : bitMask p = BitVec.twoPow 8 p.toNat := rfl
  rw [hmask, BitVec.getLsbD_twoPow, decide_eq_true hp, Bool.true_and]
  exact decide_eq_decide.mpr eq_comm

@[simp] theorem setBit_getLsbD (b : Byte) (p : BitVec 3) (j : Nat) :
    (setBit b p).getLsbD j = (decide (j = p.toNat) || b.getLsbD j) := by
  rw [setBit, BitVec.getLsbD_or, bitMask_getLsbD, Bool.or_comm]

@[simp] theorem clearBit_getLsbD (b : Byte) (p : BitVec 3) (j : Nat) :
    (clearBit b p).getLsbD j = (!decide (j = p.toNat) && b.getLsbD j) := by
  rw [clearBit, BitVec.getLsbD_and, BitVec.getLsbD_not, bitMask_getLsbD]
  by_cases hj : j < 8
  · simp [hj, Bool.and_comm]
  · simp [BitVec.getLsbD_of_ge b j (Nat.le_of_not_lt hj)]

theorem getBit_toNat (b : Byte) (p : BitVec 3) :
    (getBit b p).toNat = b.toNat / 2 ^ p.toNat % 2 := by
  simp [getBit, Nat.shiftRight_eq_div_pow]

theorem getBit_toNat_eq_getLsbD (b : Byte) (p : BitVec 3) :
    (getBit b p).toNat = (b.getLsbD p.toNat).toNat := by
  rw [getBit_toNat, BitVec.getLsbD, Nat.toNat_testBit]

theorem getBit_eq_one_iff {b : Byte} {p : BitVec 3} :
    getBit b p = 1#8 ↔ b.getLsbD p.toNat = true := by
  rw [← BitVec.toNat_inj, getBit_toNat_eq_getLsbD]
  exact Bool.toNat_eq_one

theorem getBit_eq_zero_iff {b : Byte} {p : BitVec 3} :
    getBit b p = 0#8 ↔ b.getLsbD p.toNat = false := by
  rw [← BitVec.toNat_inj, getBit_toNat_eq_getLsbD]
  exact Bool.toNat_eq_zero

/-! ### The laws -/

theorem getBit_setBit_same (b : Byte) (p : BitVec 3) : getBit (setBit b p) p = 1#8 :=
  getBit_eq_one_iff.mpr (by simp)

theorem getBit_clearBit_same (b : Byte) (p : BitVec 3) : getBit (clearBit b p) p = 0#8 :=
  getBit_eq_zero_iff.mpr (by simp)

theorem setBit_setBit_same (b : Byte) (p : BitVec 3) : setBit (setBit b p) p = setBit b p :=
  BitVec.eq_of_getLsbD_eq fun j _ => by simp

theorem setBit_clearBit_same (b : Byte) (p : BitVec 3) : setBit (clearBit b p) p = setBit b p :=
  BitVec.eq_of_getLsbD_eq fun j _ => by by_cases hj : j = p.toNat <;> simp [hj]

theorem clearBit_clearBit_same (b : Byte) (p : BitVec 3) :
    clearBit (clearBit b p) p = clearBit b p :=
  BitVec.eq_of_getLsbD_eq fun j _ => by simp

theorem clearBit_setBit_same (b : Byte) (p : BitVec 3) :
    clearBit (setBit b p) p = clearBit b p :=
  BitVec.eq_of_getLsbD_eq fun j _ => by by_cases hj : j = p.toNat <;> simp [hj]

theorem setBit_comm (b : Byte) (p q : BitVec 3) :
    setBit (setBit b p) q = setBit (setBit b q) p :=
  BitVec.eq_of_getLsbD_eq fun j _ => by simp [Bool.or_left_comm]

theorem clearBit_comm (b : Byte) (p q : BitVec 3) :
    clearBit (clearBit b p) q = clearBit (clearBit b q) p :=
  BitVec.eq_of_getLsbD_eq fun j _ => by simp [Bool.and_left_comm]

/-- No bit is both set and cleared when the positions differ, so the order does not matter. -/
theorem setBit_clearBit_comm (b : Byte) {p q : BitVec 3} (h : p ≠ q) :
    setBit (clearBit b p) q = clearBit (setBit b q) p :=
  BitVec.eq_of_getLsbD_eq fun j _ => by
    by_cases hj : j = q.toNat
    · have hp : q.toNat ≠ p.toNat := fun hqp => h (BitVec.eq_of_toNat_eq hqp.symm)
      simp [hj, hp]
    · simp [hj]

theorem setBit_eq_self_iff {b : Byte} {p : BitVec 3} :
    setBit b p = b ↔ b.getLsbD p.toNat = true := by
  constructor
  · intro h
    rw [← h]
    simp
  · intro h
    refine BitVec.eq_of_getLsbD_eq fun j _ => ?_
    by_cases hj : j = p.toNat <;> simp [hj, h]

theorem setBit_zero (p : BitVec 3) : setBit 0#8 p = BitVec.ofNat 8 (2 ^ p.toNat) := by
  simpa using setBit_ofNat p.isLt (Nat.two_pow_pos p.toNat)

/-- The lowest `n` binary digits of a number are its remainder by 2 ^ n. -/
theorem sum_range_div_mod_two (x n : Nat) :
    ((List.range n).map fun j => x / 2 ^ j % 2 * 2 ^ j).sum = x % 2 ^ n := by
  induction n with
  | zero => simp [Nat.mod_one]
  | succ n ih =>
    rw [List.range_succ, List.map_append, List.sum_append, ih, Nat.mod_pow_succ]
    simp [Nat.mul_comm]

theorem toNat_eq_sum_getBit (b : Byte) : b.toNat
    = ((List.range 8).map fun j => (getBit b (BitVec.ofNat 3 j)).toNat * 2 ^ j).sum := by
  have hdigit : ∀ j ∈ List.range 8, (getBit b (BitVec.ofNat 3 j)).toNat * 2 ^ j
      = b.toNat / 2 ^ j % 2 * 2 ^ j := fun j hj => by
    rw [getBit_toNat, BitVec.toNat_ofNat, Nat.mod_eq_of_lt (List.mem_range.mp hj)]
  rw [List.map_congr_left hdigit, sum_range_div_mod_two, Nat.mod_eq_of_lt b.isLt]

/-- Settles O18. To mask out bit p is to clear it, so the two laws of R120 about the other bits are
those of a clear after a set and after a clear. -/
theorem bitPrimitiveLaws : Obligations.BitPrimitiveLaws := fun b p q =>
  ⟨getBit_setBit_same b p, getBit_clearBit_same b p,
    clearBit_setBit_same b p, clearBit_clearBit_same b p,
    setBit_setBit_same b p, clearBit_clearBit_same b p,
    clearBit_setBit_same b p, setBit_clearBit_same b p,
    fun h => ⟨setBit_comm b p q, clearBit_comm b p q, setBit_clearBit_comm b h⟩,
    getBit_eq_one_iff.trans setBit_eq_self_iff.symm,
    setBit_zero p, BitVec.zero_and, toNat_eq_sum_getBit b⟩

/-! ### The commands -/

theorem runOf_bitCommand (op : BitOp) (byte : Byte) (pos : BitVec 4) (l : Latched) :
    runOf (bitCommand op byte pos) l = runBitOp op byte pos := by
  cases op <;> rfl

/-- A format B command with its position in range writes RESULT and completes (R94, R111). -/
theorem exec_bitCommand_in_range {s : State} (hbusy : s.status.busy = false) (op : BitOp)
    (byte : Byte) {pos : BitVec 4} (hpos : pos.toNat ≤ 7) :
    exec (bitCommand op byte pos) s = .next { s with
      result := (bitModule op byte (pos.extractLsb' 0 3)).setWidth 32
      status := { s.status with done := true }
      engine := .idle } := by
  rw [exec_idle hbusy, runOf_bitCommand, runBitOp, bitPosition_some hpos, finish_ok]
  exact congrArg _ (complete_none_accept (s := { s with
    result := (bitModule op byte (pos.extractLsb' 0 3)).setWidth 32 }) hbusy _)

/-- A format B command with its position out of range ends in BIT_POS_RANGE (R111, R202). -/
theorem exec_bitCommand_out_of_range {s : State} (hbusy : s.status.busy = false) (op : BitOp)
    (byte : Byte) {pos : BitVec 4} (hpos : 8 ≤ pos.toNat) :
    exec (bitCommand op byte pos) s = .next (endedInError .bitPosRange s) := by
  rw [exec_idle hbusy, runOf_bitCommand, runBitOp, bitPosition_none hpos, finish_error,
    complete_accept_eq_endedInError hbusy]

/-- A position in range is the number of its lowest three bits. -/
theorem toNat_extractLsb'_of_le_seven {pos : BitVec 4} (h : pos.toNat ≤ 7) :
    (pos.extractLsb' 0 3).toNat = pos.toNat := by
  rw [BitVec.extractLsb'_toNat, Nat.shiftRight_zero, Nat.mod_eq_of_lt (by omega)]

/-- Every bit of a zero-extended byte. -/
theorem setWidth_word_getLsbD (b : Byte) (j : Nat) : (b.setWidth 32).getLsbD j = b.getLsbD j := by
  rw [BitVec.getLsbD_setWidth, Bool.and_eq_right_iff_imp]
  exact fun h => decide_eq_true ((BitVec.lt_of_getLsbD h).trans (by decide))

/-- Settles O14: RESULT is bit pos of the byte as a number. -/
theorem getBitCompletes : Obligations.GetBitCompletes := by
  refine fun byte pos => ⟨(Laws.EncodedWord.getBit byte pos).1, fun s hbusy =>
    ⟨fun hpos => ?_, exec_bitCommand_out_of_range hbusy .get byte⟩⟩
  have hresult : (getBit byte (pos.extractLsb' 0 3)).setWidth 32
      = BitVec.ofNat 32 (byte.toNat / 2 ^ pos.toNat % 2) := by
    rw [← toNat_extractLsb'_of_le_seven hpos, ← getBit_toNat, BitVec.ofNat_toNat]
  rw [← hresult]
  exact exec_bitCommand_in_range hbusy .get byte hpos

/-- Settles O15: RESULT is the byte after the set, whose bits are known. -/
theorem setBitCompletes : Obligations.SetBitCompletes := by
  refine fun byte pos => ⟨(Laws.EncodedWord.setBit byte pos).1, fun s hbusy =>
    ⟨fun hpos => ⟨_, exec_bitCommand_in_range hbusy .set byte hpos, fun j => ?_⟩,
      exec_bitCommand_out_of_range hbusy .set byte⟩⟩
  rw [setWidth_word_getLsbD, bitModule, setBit_getLsbD, toNat_extractLsb'_of_le_seven hpos]

/-- Settles O16: RESULT is the byte after the clear, whose bits are known. -/
theorem clearBitCompletes : Obligations.ClearBitCompletes := by
  refine fun byte pos => ⟨(Laws.EncodedWord.clearBit byte pos).1, fun s hbusy =>
    ⟨fun hpos => ⟨_, exec_bitCommand_in_range hbusy .clr byte hpos, fun j => ?_⟩,
      exec_bitCommand_out_of_range hbusy .clr byte⟩⟩
  rw [setWidth_word_getLsbD, bitModule, clearBit_getLsbD, toNat_extractLsb'_of_le_seven hpos]

end Sys2Proof.Machine
end

section
/-! PROOFS. PACK as one command (spec/42_bit_packer.md R132 to R144): it completes with its
count and flags (R135 to R137, R140), the closed forms of its slots under ZERO and COPY and under
ACCUM (R141, R142), the OR of a group's slots (R143), and a second run (R144). -/

namespace Sys2Proof.Machine

open Sys2Proof.Config

/-! ### Completion -/

/-- PACK's loop marks exactly a symbol that, when its element reads it, is neither '1' nor '0'
(R137). -/
theorem packAfter_nonbin_iff (P : Params) (l : Latched) (m : Memory) (n : Nat) :
    (packAfter P l m n).nonbin = true ↔
      ∃ idx < n, nonBinary (readByte (packAfter P l m idx).mem (symbolAddr l idx)) := by
  induction n with
  | zero => simp [packAfter]
  | succ n ih =>
    have hmark : (packAfter P l m (n + 1)).nonbin = true ↔
        (packAfter P l m n).nonbin = true ∨
          nonBinary (readByte (packAfter P l m n).mem (symbolAddr l n)) := by
      rw [packAfter_succ, packElem_nonbin, Bool.or_eq_true, decide_eq_true_iff]
      rfl
    rw [hmark, ih, Nat.exists_lt_succ_right]

/-- PACK's loop leaves the bytes below and above its slots alone (R61). -/
theorem packAfter_outside (P : Params) (l : Latched) (m : Memory) {n a : Nat}
    (ha : a < l.pkDst.toNat ∨ l.pkDst.toNat + n ≤ a) :
    readByte (packAfter P l m n).mem a = readByte m a := by
  refine packAfter_other P l m fun idx hidx => ?_
  unfold slotAddr
  omega

/-- Acceptance and completion leave what PACK's loop and `packFinish` write, with DONE set and the
engine IDLE. -/
theorem complete_packFinish_accept {s : State} (hbusy : s.status.busy = false) (c : Option Instr)
    (l : Latched) (nonbin : Bool) (m : Memory) :
    complete none (packFinish l nonbin { accept c s with mem := m }) = { s with
      mem := m
      result := BitVec.ofNat 32 (groupCount l)
      status := { packFlags l.pkLen.toNat nonbin s.status with done := true }
      engine := .idle } :=
  complete_none_accept (s := packFinish l nonbin { s with mem := m }) hbusy c

/-- Settles O19: the loop's mark is the flag NONBINARY_SYMBOL reports, and no element writes outside
the slots. -/
theorem packCompletes : Obligations.PackCompletes := by
  intro s hbusy hsrc hdst
  refine ⟨(packAfter s.params (latch s) s.mem (8 * groupCount (latch s))).nonbin, ?_,
    packAfter_nonbin_iff s.params (latch s) s.mem _,
    fun _ => packAfter_outside s.params (latch s) s.mem⟩
  rw [exec_pack_in_range hbusy hsrc hdst, packAll_eq_packAfter]
  exact congrArg _ (complete_packFinish_accept hbusy _ _ _ _)

/-- Settles O21: without a complete group no symbol is read, so the mark stays clear and the loop
writes nothing. -/
theorem packOfNoCompleteGroup : Obligations.PackOfNoCompleteGroup := by
  intro s hbusy hlen hsrc hdst
  have hgroups : s.pkLen.toNat / 8 = 0 := Nat.div_eq_of_lt hlen
  obtain ⟨nonbin, hexec, hmark, -⟩ := packCompletes s hbusy hsrc hdst
  rw [hgroups] at hexec hmark
  have hclear : nonbin = false := Bool.eq_false_iff.mpr fun h => by
    obtain ⟨idx, hidx, -⟩ := hmark.mp h
    exact Nat.not_lt_zero idx hidx
  rw [hexec, hclear, Bool.or_false, Nat.mod_eq_of_lt hlen]
  rfl

/-- RESULT, the slots and the bytes around them after PACK, with source and slots separate or in
place. -/
theorem exec_pack_leaves {s : State} (hbusy : s.status.busy = false)
    (hsrc : s.pkSrc.toNat + s.pkLen.toNat ≤ memBytes s.params)
    (hdst : s.pkDst.toNat + s.pkLen.toNat ≤ memBytes s.params)
    (hl : packSeparateOrInPlace (latch s)) :
    ∃ t, exec .pack s = .next t ∧ t.result = BitVec.ofNat 32 (s.pkLen.toNat / 8) ∧
      (∀ idx < 8 * (s.pkLen.toNat / 8), readByte t.mem (s.pkDst.toNat + idx)
        = packedByte s.params (fun j => readByte s.mem (s.pkSrc.toNat + j))
            (fun j => readByte s.mem (s.pkDst.toNat + j)) idx) ∧
      ∀ a, (a < s.pkDst.toNat ∨ s.pkDst.toNat + 8 * (s.pkLen.toNat / 8) ≤ a) →
        readByte t.mem a = readByte s.mem a := by
  obtain ⟨nonbin, hexec, -, hother⟩ := packCompletes s hbusy hsrc hdst
  refine ⟨_, hexec, rfl, fun idx hidx => ?_, hother⟩
  have hslot := packAll_slot s.params s.mem hl hidx
  rw [packAll_eq_packAfter] at hslot
  exact hslot

/-! ### Under ZERO and COPY -/

theorem packedByte_zero_copy {P : Params} (hop : P.packOperand = .zero)
    (hother : P.packOther = .copy) (sym slot : Nat → Byte) (idx : Nat) :
    packedByte P sym slot idx
      = if sym idx = 0x31#8 then BitVec.ofNat 8 (2 ^ (idx % 8))
        else if sym idx = 0x30#8 then 0x00#8 else sym idx := by
  simp only [packedByte, operandValue, hop, hother, BitVec.zero_or, BitVec.zero_and]

/-- Settles O23: the closed form of every slot, with operand 0 and other symbols copied. -/
theorem packClosedFormUnderTheDefaults : Obligations.PackClosedFormUnderTheDefaults := by
  intro s hbusy hsrc hdst hop hother hl
  obtain ⟨t, hexec, -, hslots, hframe⟩ := exec_pack_leaves hbusy hsrc hdst (.inr hl)
  exact ⟨t, hexec, fun idx hidx =>
    (hslots idx hidx).trans (packedByte_zero_copy hop hother _ _ idx), hframe⟩

/-- The slot of a binary symbol at position `i` has bit `i` set when the symbol is '1', and no other
bit. -/
theorem getLsbD_of_binary_symbol {sym : Byte} (hsym : ¬ nonBinary sym) {i j : Nat} (hj : j < 8) :
    (if sym = 0x31#8 then BitVec.ofNat 8 (2 ^ i)
      else if sym = 0x30#8 then 0x00#8 else sym).getLsbD j = true ↔ i = j ∧ sym = 0x31#8 := by
  split
  case isTrue hone =>
    rw [BitVec.getLsbD_ofNat, decide_eq_true hj, Bool.true_and, Nat.testBit_two_pow,
      decide_eq_true_iff, and_iff_left hone]
  case isFalse hone =>
    have hzero : sym = 0x30#8 := by_contra fun h => hsym ⟨hone, h⟩
    simp [hzero]

/-- A bit of an OR of bytes is set when one of them has it. -/
theorem getLsbD_foldl_or (bs : List Byte) (b : Byte) (j : Nat) :
    (bs.foldl (· ||| ·) b).getLsbD j = (b.getLsbD j || bs.any (·.getLsbD j)) := by
  induction bs generalizing b with
  | nil => simp
  | cons c cs ih => rw [List.foldl_cons, ih, BitVec.getLsbD_or, List.any_cons, Bool.or_assoc]

/-- Settles O25: of the group's slots, only the one at position j can have bit j. -/
theorem packKeepsTheGroupsInformation : Obligations.PackKeepsTheGroupsInformation := by
  intro s hbusy hsrc hdst hop hother hl
  obtain ⟨t, hexec, hslots, -⟩ :=
    packClosedFormUnderTheDefaults s hbusy hsrc hdst hop hother hl
  refine ⟨t, hexec, fun g hg hbinary j hj => ?_⟩
  have hbit (i : Nat) (hi : i < 8) :
      (readByte t.mem (s.pkDst.toNat + (8 * g + i))).getLsbD j = true ↔
        i = j ∧ readByte s.mem (s.pkSrc.toNat + (8 * g + i)) = 0x31#8 := by
    have hmod : (8 * g + i) % 8 = i := by omega
    rw [hslots (8 * g + i) (by omega), hmod]
    exact getLsbD_of_binary_symbol (hbinary i hi) hj
  rw [getLsbD_foldl_or, BitVec.getLsbD_zero, Bool.false_or, Bool.eq_iff_iff, decide_eq_true_iff,
    List.any_map, List.any_eq_true]
  constructor
  · rintro ⟨i, hi, hset⟩
    obtain ⟨rfl, hone⟩ := (hbit i (List.mem_range.mp hi)).mp hset
    exact hone
  · exact fun hone => ⟨j, List.mem_range.mpr hj, (hbit j hj).mpr ⟨rfl, hone⟩⟩

/-! ### Under ACCUM -/

/-- Under ACCUM a slot that PACK_OTHER does not overrule is the accumulator after its element. -/
theorem slotResult_eq_accResult {P : Params} (hop : P.packOperand = .accum) {sym : Byte}
    (hsym : ¬ nonBinary sym ∨ P.packOther = .operand) (slot acc : Byte) (pos : BitVec 3) :
    slotResult P sym slot acc pos = accResult sym acc pos := by
  have hacc : packOperandByte P acc slot = acc := by simp only [packOperandByte, hop]
  unfold slotResult accResult
  rw [hacc]
  split
  case isTrue => rfl
  case isFalse hone =>
    split
    case isTrue => rfl
    case isFalse hzero =>
      have hoperand : P.packOther = .operand := hsym.resolve_left fun h => h ⟨hone, hzero⟩
      simp only [packOtherByte, hoperand, Option.getD_some]

theorem packedByte_accum {P : Params} (hop : P.packOperand = .accum) {sym : Nat → Byte} {idx : Nat}
    (hsym : ¬ nonBinary (sym idx) ∨ P.packOther = .operand) (slot : Nat → Byte) :
    packedByte P sym slot idx = BitVec.ofNat 8 (onesBelow sym idx (idx % 8 + 1)) := by
  rw [← slotResult_eq_packedByte fun _ => rfl, slotResult_eq_accResult hop hsym, accResult_ones]

theorem onesBelow_eq_sum (sym : Nat → Byte) {g i : Nat} (hi : i < 8) (n : Nat) :
    onesBelow sym (8 * g + i) n
      = ((List.range n).map fun j => if sym (8 * g + j) = 0x31#8 then 2 ^ j else 0).sum := by
  have hdiv : (8 * g + i) / 8 = g := by omega
  induction n with
  | zero => rfl
  | succ n ih =>
    rw [onesBelow, ih, hdiv, List.range_succ, List.map_append, List.sum_append, List.map_singleton,
      List.sum_singleton]

/-- The bits of the sum are the symbols of the group: bit `j` is symbol `j`. -/
theorem testBit_onesBelow (sym : Nat → Byte) (idx : Nat) {n j : Nat} (hj : j < n) :
    (onesBelow sym idx n).testBit j = decide (sym (8 * (idx / 8) + j) = 0x31#8) := by
  induction n with
  | zero => omega
  | succ n ih =>
    have hlt := onesBelow_lt sym idx n
    rw [onesBelow, Nat.add_comm]
    obtain rfl | hjn : j = n ∨ j < n := by omega
    · split
      case isTrue hone =>
        rw [Nat.testBit_two_pow_add_eq, Nat.testBit_lt_two_pow hlt, decide_eq_true hone,
          Bool.not_false]
      case isFalse hone => rw [Nat.zero_add, Nat.testBit_lt_two_pow hlt, decide_eq_false hone]
    · rw [← ih hjn]
      split
      case isTrue => exact Nat.testBit_two_pow_add_gt hjn _
      case isFalse => rw [Nat.zero_add]

/-- Settles O24: the slot is the sum of the group's ones up to its position, which is below
2 ^ 8. -/
theorem packClosedFormUnderAccum : Obligations.PackClosedFormUnderAccum := by
  intro s hbusy hsrc hdst hop hl
  obtain ⟨t, hexec, -, hslots, -⟩ := exec_pack_leaves hbusy hsrc hdst (.inr hl)
  refine ⟨t, hexec, fun g i hg hi hsym => ?_⟩
  have hmod : (8 * g + i) % 8 = i := by omega
  have hdiv : (8 * g + i) / 8 = g := by omega
  have hslot := (hslots (8 * g + i) (by omega)).trans
    (packedByte_accum (sym := fun j => readByte s.mem (s.pkSrc.toNat + j)) hop hsym _)
  rw [hmod] at hslot
  rw [hslot]
  constructor
  · have hlt := (onesBelow_lt (fun j => readByte s.mem (s.pkSrc.toNat + j)) (8 * g + i)
      (i + 1)).trans_le (Nat.pow_le_pow_right Nat.two_pos hi)
    rw [BitVec.toNat_ofNat, Nat.mod_eq_of_lt hlt, onesBelow_eq_sum _ hi]
  · rintro rfl j hj
    rw [BitVec.getLsbD_ofNat, decide_eq_true hj, Bool.true_and, testBit_onesBelow _ _ hj, hdiv]

/-! ### A second run -/

theorem onesBelow_congr_symbols {sym sym' : Nat → Byte} {idx n : Nat}
    (h : ∀ j < n, sym (8 * (idx / 8) + j) = sym' (8 * (idx / 8) + j)) :
    onesBelow sym idx n = onesBelow sym' idx n := by
  induction n with
  | zero => rfl
  | succ n ih =>
    rw [onesBelow, onesBelow, ih fun j hj => h j (Nat.lt_succ_of_lt hj), h n (Nat.lt_succ_self n)]

/-- A slot's byte depends on its symbol, those before it and its own prior content only. -/
theorem packedByte_congr (P : Params) {sym sym' slot slot' : Nat → Byte} {idx : Nat}
    (hsym : ∀ j ≤ idx, sym j = sym' j) (hslot : slot idx = slot' idx) :
    packedByte P sym slot idx = packedByte P sym' slot' idx := by
  have hones : onesBelow sym idx (idx % 8) = onesBelow sym' idx (idx % 8) :=
    onesBelow_congr_symbols fun j hj => hsym _ (by omega)
  unfold packedByte operandValue
  rw [hsym idx le_rfl, hslot, hones]

/-- An operation that does nothing a second time does nothing to an operand byte it has been applied
to before. -/
theorem packOperandByte_absorbs (P : Params) {f : Byte → Byte} (hf : ∀ b, f (f b) = f b)
    (acc slot : Byte) :
    f (packOperandByte P acc (f (packOperandByte P acc slot)))
      = f (packOperandByte P acc slot) := by
  unfold packOperandByte
  cases P.packOperand
  case zero => rfl
  case accum => rfl
  case slot => exact hf slot

/-- An element that finds its own result in its slot leaves it: a bit set or cleared twice is set or
cleared once (R121). -/
theorem slotResult_idem (P : Params) (sym slot acc : Byte) (pos : BitVec 3) :
    slotResult P sym (slotResult P sym slot acc pos) acc pos = slotResult P sym slot acc pos := by
  unfold slotResult
  by_cases hone : sym = symbolOne
  · simp only [if_pos hone]
    exact packOperandByte_absorbs P (f := (setBit · pos)) (setBit_setBit_same · pos) acc slot
  by_cases hzero : sym = symbolZero
  · simp only [if_neg hone, if_pos hzero]
    exact packOperandByte_absorbs P (f := (clearBit · pos)) (clearBit_clearBit_same · pos) acc slot
  · simp only [if_neg hone, if_neg hzero]
    unfold packOtherByte
    cases P.packOther
    case copy => rfl
    case nowrite => rfl
    case operand => exact packOperandByte_absorbs P (f := id) (fun _ => rfl) acc slot

theorem packedByte_idem (P : Params) (sym slot : Nat → Byte) (idx : Nat) :
    packedByte P sym (packedByte P sym slot) idx = packedByte P sym slot idx := by
  rw [← slotResult_eq_packedByte fun _ => rfl, ← slotResult_eq_packedByte fun _ => rfl,
    slotResult_idem]

/-- Under ZERO and ACCUM the prior content of a slot that is written has no part in its result. -/
theorem slotResult_prior_irrelevant {P : Params} (hop : P.packOperand ≠ .slot) {sym : Byte}
    (hsym : P.packOther ≠ .nowrite ∨ ¬ nonBinary sym) (slot slot' acc : Byte) (pos : BitVec 3) :
    slotResult P sym slot acc pos = slotResult P sym slot' acc pos := by
  have hoperand : packOperandByte P acc slot = packOperandByte P acc slot' := by
    unfold packOperandByte
    split
    case h_1 => rfl
    case h_2 => rfl
    case h_3 hslot => exact absurd hslot hop
  unfold slotResult
  rw [hoperand]
  split
  case isTrue => rfl
  case isFalse hone =>
    split
    case isTrue => rfl
    case isFalse hzero =>
      have hwrites : P.packOther ≠ .nowrite := hsym.resolve_right fun h => h ⟨hone, hzero⟩
      unfold packOtherByte
      split
      case h_1 => rfl
      case h_2 hnowrite => exact absurd hnowrite hwrites
      case h_3 => rfl

theorem packedByte_prior_irrelevant {P : Params} (hop : P.packOperand ≠ .slot)
    {sym : Nat → Byte} {idx : Nat} (hsym : P.packOther ≠ .nowrite ∨ ¬ nonBinary (sym idx))
    (slot slot' : Nat → Byte) : packedByte P sym slot idx = packedByte P sym slot' idx := by
  rw [← slotResult_eq_packedByte fun _ => rfl, ← slotResult_eq_packedByte fun _ => rfl,
    slotResult_prior_irrelevant hop hsym]

/-- Settles O26: both runs leave the closed form of the same symbols, over slots that hold the first
run's output or have no part in it. -/
theorem packIsRepeatable : Obligations.PackIsRepeatable := by
  intro s t s' hbusy hbusy' hsrc hdst hl hexec hparams hpkSrc hpkDst hpkLen hsymbols
  obtain ⟨u, hu, hresult, hslots, -⟩ := exec_pack_leaves hbusy hsrc hdst (.inr hl)
  obtain rfl : u = t := Host.Outcome.next.inj (hu.symm.trans hexec)
  have hl' : packSeparateOrInPlace (latch s') := by
    unfold packSeparateOrInPlace groupCount latch
    rw [hpkSrc, hpkDst, hpkLen]
    exact .inr hl
  obtain ⟨t', hexec', hresult', hslots', -⟩ := exec_pack_leaves hbusy'
    (by rwa [hpkSrc, hpkLen, hparams]) (by rwa [hpkDst, hpkLen, hparams]) hl'
  rw [hpkLen] at hresult'
  rw [hparams, hpkSrc, hpkDst, hpkLen] at hslots'
  refine ⟨t', hexec', hresult'.trans hresult.symm, fun hkept idx hidx => ?_,
    fun hop idx hidx hsym => ?_⟩
  · have hfirst := (hkept idx hidx).trans (hslots idx hidx)
    rw [hslots' idx hidx, hslots idx hidx, packedByte_congr s.params
      (fun j hj => hsymbols j (hj.trans_lt hidx)) hfirst, packedByte_idem]
  · rw [hslots' idx hidx, hslots idx hidx,
      packedByte_congr s.params (fun j hj => hsymbols j (hj.trans_lt hidx)) rfl]
    exact packedByte_prior_irrelevant (sym := fun j => readByte s.mem (s.pkSrc.toNat + j))
      hop hsym ..

end Sys2Proof.Machine
end

section
/-! PROOFS. ENCODE as one command (spec/43_rle_encoder.md R172): it completes for every parameter
value and every overlap, its boundary count in closed form, and the bytes it leaves alone. -/

namespace Sys2Proof.Machine

open Sys2Proof.Config

/-! ### The boundary count -/

theorem startCursor_toNat (P : Params) (v0 : Byte) : (startCursor P v0).toNat
    = if v0 ≠ 0x00#8 ∧ P.nzStart = .seedFirst then 0 else 1 := by
  obtain ⟨hv, h⟩ | ⟨hv, hseed, h⟩ | ⟨hv, hprescan, h⟩ := startCursor_cases P v0
  · rw [h, if_neg fun hc => hc.1 hv]; rfl
  · rw [h, if_pos ⟨hv, hseed⟩]; rfl
  · rw [h, if_neg (by simp [hprescan])]; rfl

/-- Both of R172's forms, as the multiples of 8 below N less those below the cursor. -/
theorem expectedBoundaries_eq (P : Params) (v0 : Byte) {n : Nat} (hn : n ≠ 0) :
    expectedBoundaries P v0 n = (n + 7) / 8 - (startCursor P v0).toNat := by
  rw [expectedBoundaries, startCursor_toNat]
  split <;> omega

/-- With at most one index before the cursor, index 0 is the only multiple of 8 there. -/
theorem length_filter_boundaries {cursor : Nat} (hcursor : cursor ≤ 1) (n : Nat) :
    ((List.range n).filter (fun i => decide (cursor ≤ i) && decide (i % 8 = 0))).length
      = (n + 7) / 8 - cursor := by
  induction n with
  | zero => simp
  | succ n ih =>
    rw [List.range_succ, List.filter_append, List.length_append, ih]
    by_cases hcounted : cursor ≤ n ∧ n % 8 = 0
    · have : (n + 1 + 7) / 8 - cursor = (n + 7) / 8 - cursor + 1 := by omega
      simp [hcounted, this]
    · have : (n + 1 + 7) / 8 - cursor = (n + 7) / 8 - cursor := by omega
      simp [hcounted, this]

theorem countBoundaries_eq (P : Params) (v0 : Byte) (n : Nat) :
    countBoundaries P v0 n = (n + 7) / 8 - (startCursor P v0).toNat := by
  rw [countBoundaries, ← startCursor_toNat]
  exact length_filter_boundaries (startCursor_le_one P v0) n

/-- The boundary counter over a stretch of indices: the multiples of 8 below its end less those
below its start (R164). -/
theorem foldl_countBoundary (i n : Nat) (bcnt : Word) :
    (List.range' i n).foldl (fun bcnt j => countBoundary j bcnt) bcnt
      = bcnt + BitVec.ofNat 32 ((i + n + 7) / 8 - (i + 7) / 8) := by
  induction n with
  | zero => simp
  | succ n ih =>
    rw [List.range'_concat, List.foldl_append, ih, Nat.one_mul]
    by_cases hboundary : (i + n) % 8 = 0
    · have : (i + (n + 1) + 7) / 8 - (i + 7) / 8 = (i + n + 7) / 8 - (i + 7) / 8 + 1 := by omega
      simp [countBoundary, hboundary, this, BitVec.ofNat_add, BitVec.add_assoc]
    · have : (i + (n + 1) + 7) / 8 - (i + 7) / 8 = (i + n + 7) / 8 - (i + 7) / 8 := by omega
      simp [countBoundary, hboundary, this]

/-- ENCODE's boundary counter ends at R172's closed form. -/
theorem encAll_bcnt (P : Params) (l : Latched) (m : Memory) (hlen : l.enLen.toNat ≠ 0) :
    (encAll P l m).bcnt
      = BitVec.ofNat 32 (expectedBoundaries P (readByte m (packedAddr l 0)) l.enLen.toNat) := by
  have hcursor := startCursor_le_one P (readByte m (packedAddr l 0))
  rw [expectedBoundaries_eq P _ hlen, encAll, encScan_bcnt, encPre_bcnt, foldl_countBoundary]
  refine (BitVec.zero_add _).trans (congrArg _ ?_)
  omega

/-! ### Completion -/

/-- Acceptance and completion leave what ENCODE's loops and `encFinish` write, with DONE set and the
engine IDLE. -/
theorem complete_encFinish_accept {s : State} (hbusy : s.status.busy = false) (c : Option Instr)
    (bcnt k run : Word) (prev : Byte) (ovf : Bool) (m : Memory) :
    complete none (encFinish bcnt k run prev ovf { accept c s with mem := m }) = { s with
      mem := m
      result := bcnt
      enOutlen := k
      enRun := run
      enPrev := prev.setWidth 32
      status := { encFlags ovf s.status with done := true }
      engine := .idle } :=
  complete_none_accept (s := encFinish bcnt k run prev ovf { s with mem := m }) hbusy c

/-- ENCODE's loops leave the bytes outside the emitted elements alone (R61). -/
theorem encAll_outside (P : Params) (l : Latched) (m : Memory) (hlen : l.enLen.toNat ≠ 0) {a : Nat}
    (ha : a < l.enDst.toNat ∨ elemAddr P l (encAll P l m).k.toNat ≤ a) :
    readByte (encAll P l m).mem a = readByte m a := by
  obtain ⟨-, -, cs, hcs, hmem⟩ := encAll_bounds P l m hlen
  rw [hmem]
  exact readByte_writeCells_other fun c hc => by have := hcs c hc; omega

/-- Settles O27: the loops keep R169's bounds whatever the parameters and the overlap, and the
boundary counter depends on the indices alone. -/
theorem encodeCompletes : Obligations.EncodeCompletes := by
  intro s hbusy hlen hsrc hdst
  obtain ⟨hk, hrun, -⟩ := encAll_bounds s.params (latch s) s.mem hlen
  refine ⟨(countBoundaries_eq ..).trans (expectedBoundaries_eq _ _ hlen).symm, _, _, _,
    (encAll s.params (latch s) s.mem).prev, (encAll s.params (latch s) s.mem).ovf, ?_, hk, hrun,
    fun _ => encAll_outside s.params (latch s) s.mem hlen⟩
  rw [exec_encode_in_range hbusy hlen hsrc hdst, complete_encFinish_accept hbusy,
    encAll_bcnt _ _ _ hlen]
  rfl

end Sys2Proof.Machine
end

section
/-! PROOFS. A command whose run gives an error changes nothing but DONE, ERROR and ERRCODE
(spec/60_exceptions.md R207), and what gives one: a bit position out of range (R202), and a range
outside memory or a length of 0 (R203). -/

namespace Sys2Proof.Machine

/-! ### BIT_POS_RANGE -/

/-- A step on the word of a command is the command's transition (R90). -/
theorem step_command_encode {s : State} {i : Instr} {rest : List Event}
    (hevents : s.events = .command (encode i) :: rest) :
    step s = exec i { s with events := rest } :=
  (step_event hevents).trans (runCommandWord_of_some (verdict_eq_some_iff.mpr rfl) _)

/-- Settles O17: the command's word decodes to it, and each of the three is a format B command with
its position out of range. -/
theorem bitPositionOutOfRangeIsReported : Obligations.BitPositionOutOfRangeIsReported := by
  refine ⟨rfl, fun s byte pos rest i hi hbusy hpos hevents => ?_⟩
  have hop : ∃ op, i = bitCommand op byte pos := by
    obtain h | h | h := hi
    · exact ⟨.get, h⟩
    · exact ⟨.set, h⟩
    · exact ⟨.clr, h⟩
  obtain ⟨op, rfl⟩ := hop
  rw [step_command_encode hevents]
  exact exec_bitCommand_out_of_range (s := { s with events := rest }) hbusy op byte hpos

/-! ### INDEX_OUT_OF_BOUNDS -/

/-- A command whose run gives an error ends in it, with no partial effect (R94, R207). -/
theorem exec_of_runOf_error {s : State} (hbusy : s.status.busy = false) {i : Instr} {e : ErrorKind}
    (hrun : runOf i (latch s) (accept (some i) s) = .error e) :
    exec i s = .next (endedInError e s) := by
  rw [exec_idle hbusy, hrun, finish_error, complete_accept_eq_endedInError hbusy]

/-- PACK with a range outside memory ends in INDEX_OUT_OF_BOUNDS (R138). -/
theorem exec_pack_out_of_range {s : State} (hbusy : s.status.busy = false)
    (hrange : memBytes s.params < s.pkSrc.toNat + s.pkLen.toNat ∨
      memBytes s.params < s.pkDst.toNat + s.pkLen.toNat) :
    exec .pack s = .next (endedInError .indexOutOfBounds s) := by
  obtain ⟨-, hrun⟩ | ⟨hin, -⟩ := runPack_cases (latch s) (accept (some .pack) s)
  · exact exec_of_runOf_error hbusy hrun
  · obtain ⟨hsrc, hdst⟩ := packInRange_iff.mp hin
    exact absurd hrange (not_or.mpr ⟨hsrc.not_gt, hdst.not_gt⟩)

/-- ENCODE of no byte, or with a range outside memory, ends in INDEX_OUT_OF_BOUNDS (R171). -/
theorem exec_encode_out_of_range {s : State} (hbusy : s.status.busy = false)
    (hrange : s.enLen.toNat = 0 ∨ memBytes s.params < s.enSrc.toNat + s.enLen.toNat ∨
      memBytes s.params < s.enDst.toNat + elemBytes s.params * s.enLen.toNat) :
    exec .encode s = .next (endedInError .indexOutOfBounds s) := by
  obtain ⟨-, hrun⟩ | ⟨hin, -⟩ := runEncode_cases (latch s) (accept (some .encode) s)
  · exact exec_of_runOf_error hbusy hrun
  · obtain ⟨hlen, hsrc, hdst⟩ := encInRange_iff.mp hin
    exact absurd hrange (not_or.mpr ⟨hlen, not_or.mpr ⟨hsrc.not_gt, hdst.not_gt⟩⟩)

/-- Settles O20: each cause fails the command's range check. -/
theorem rangeErrorsAreReported : Obligations.RangeErrorsAreReported :=
  ⟨rfl, fun _ hbusy => ⟨exec_pack_out_of_range hbusy, exec_encode_out_of_range hbusy⟩⟩

end Sys2Proof.Machine
end

section
/-! PROOFS. Reset (spec/70_reset_and_hazards.md R230, R231), the first command after it (R236), and
what the host sees of a running command (R240, R242). -/

namespace Sys2Proof.Machine

/-! ### After reset -/

theorem statusWord_reset : statusWord Status.reset = 0 := by decide

/-- Every register's reset value is 0 (R231). -/
theorem readReg_powerOn (P : Config.Params) (m : Memory) (r : RegName) :
    readReg (State.powerOn P m) r = 0 := by
  cases r
  case status => exact statusWord_reset
  all_goals rfl

/-- The waiting events and the last answer are no registers. -/
theorem readReg_resetCore (s : State) (r : RegName) : readReg (resetCore s) r = 0 := by
  rw [← readReg_powerOn s.params s.mem r]
  cases r <;> rfl

/-- Settles O48: reset leaves the registers as power-on does, and an IDLE engine's turns change
nothing. -/
theorem resetSetsEveryRegisterToZero : Obligations.ResetSetsEveryRegisterToZero := by
  refine ⟨fun s rest hevents => ?_, fun P m => ⟨readReg_powerOn P m, rfl, rfl, rfl⟩⟩
  exact ⟨resetCore { s with events := rest }, step_event hevents, readReg_resetCore _, rfl, rfl, rfl,
    rfl, engineTurns_idle rfl⟩

/-- Settles O30: with EN_LEN = 0 the range check of ENCODE fails (R171), and with PK_LEN = 0 that of
PACK holds and there is no group. -/
theorem commandsFromReset : Obligations.CommandsFromReset := by
  intro P m
  have hzero : 0 ≤ memBytes P := Nat.zero_le _
  exact ⟨exec_encode_out_of_range rfl (.inl rfl),
    packOfNoCompleteGroup _ rfl (Nat.succ_pos 7) hzero hzero⟩

/-! ### While a command runs -/

/-- A turn of PK_ELEM writes memory and the engine's hidden state only. -/
theorem turnPkElem_eq (l : Latched) (r : PackRegs) (s : State) : turnPkElem l r s
    = { s with engine := (turnPkElem l r s).engine, mem := (turnPkElem l r s).mem } := by
  unfold turnPkElem
  dsimp only
  split
  · split <;> rfl
  · rfl

theorem turnAccepted_hides_or_completes (c : Option Instr) (l : Latched) (s : State) :
    turnAccepted c l s
      = { s with engine := (turnAccepted c l s).engine, mem := (turnAccepted c l s).mem } ∨
    (turnAccepted c l s).status.busy = false := by
  cases c with
  | none => exact .inr (finish_busy _ _)
  | some i =>
    cases i with
    | pack => exact .inl rfl
    | encode => exact .inl rfl
    | nop => exact .inr (finish_busy _ _)
    | getBit byte pos => exact .inr (finish_busy _ _)
    | setBit byte pos => exact .inr (finish_busy _ _)
    | clearBit byte pos => exact .inr (finish_busy _ _)

/-- A turn of the engine changes memory and the engine's hidden state only, or completes the command
(R139, R170). -/
theorem engineTurn_hides_or_completes (s : State) :
    engineTurn s = { s with engine := (engineTurn s).engine, mem := (engineTurn s).mem } ∨
    (engineTurn s).status.busy = false := by
  unfold engineTurn
  split
  case h_1 => exact .inl rfl
  case h_2 c l _ => exact turnAccepted_hides_or_completes c l s
  case h_3 l _ =>
    unfold turnPkCheck
    split
    · split <;> exact .inl rfl
    · exact .inl rfl
  case h_4 l r _ => exact .inl (turnPkElem_eq l r s)
  case h_5 => exact .inr rfl
  case h_6 => exact .inr rfl
  case h_7 l _ =>
    unfold turnEnCheck
    split <;> exact .inl rfl
  case h_8 => exact .inl rfl
  case h_9 l r _ =>
    unfold turnEnScan
    split <;> exact .inl rfl
  case h_10 l r _ =>
    unfold turnEnFinish
    split
    · exact .inl rfl
    · exact .inr rfl
  case h_11 => exact .inr rfl

/-- Settles O36: the turns that write a register complete the command. -/
theorem outputsHiddenWhileBusy : Obligations.OutputsHiddenWhileBusy := by
  intro s _ hbusy
  obtain hhidden | hdone := engineTurn_hides_or_completes s
  · exact hhidden
  · cases hdone.symm.trans hbusy

end Sys2Proof.Machine
end

section
/-! PROOFS. A command aborted by reset (spec/70_reset_and_hazards.md R233): the engine's turns from
acceptance write the bytes of the command one after the other, each at an address of its own. -/

namespace Sys2Proof.Machine

open Sys2Proof.Config

/-! ### The byte writes of several turns -/

/-- The engine's own turns lead from `s` to `t`, and `cs` are their byte writes, in order and at most
one for a turn (R62). -/
inductive TurnsWrite : List Host.Cell → State → State → Prop where
  | refl (s : State) : TurnsWrite [] s s
  | turn {cs ds : List Host.Cell} {s t : State} (hone : cs.length ≤ 1)
      (hmem : (engineTurn s).mem = writeCells s.mem cs) (hrest : TurnsWrite ds (engineTurn s) t) :
      TurnsWrite (cs ++ ds) s t

theorem TurnsWrite.single {cs : List Host.Cell} {s t : State} (ht : engineTurn s = t)
    (hone : cs.length ≤ 1) (hmem : t.mem = writeCells s.mem cs) : TurnsWrite cs s t := by
  subst ht
  exact cs.append_nil ▸ .turn hone hmem (.refl _)

theorem TurnsWrite.trans {cs ds : List Host.Cell} {s t u : State} (h : TurnsWrite cs s t)
    (k : TurnsWrite ds t u) : TurnsWrite (cs ++ ds) s u := by
  induction h with
  | refl => exact k
  | turn hone hmem _ ih => exact List.append_assoc .. ▸ .turn hone hmem (ih k)

theorem TurnsWrite.mem_eq {cs : List Host.Cell} {s t : State} (h : TurnsWrite cs s t) :
    t.mem = writeCells s.mem cs := by
  induction h with
  | refl => rfl
  | turn _ hmem _ ih => rw [ih, hmem, writeCells_append]

/-- After any number of turns, memory has the first `j` writes for some `j`. -/
theorem TurnsWrite.exists_take {cs : List Host.Cell} {s t : State} (h : TurnsWrite cs s t)
    (hidle : t.engine = .idle) (n : Nat) :
    ∃ j ≤ cs.length, (engineTurns n s).mem = writeCells s.mem (cs.take j) := by
  induction h generalizing n with
  | refl s => exact ⟨0, le_rfl, by rw [engineTurns_idle hidle]; rfl⟩
  | @turn cs ds s t hone hmem hrest ih =>
    cases n with
    | zero => exact ⟨0, Nat.zero_le _, rfl⟩
    | succ n =>
      obtain ⟨j, hj, hturns⟩ := ih hidle n
      refine ⟨cs.length + j, by rw [List.length_append]; omega, ?_⟩
      rw [List.take_length_add_append, writeCells_append, ← hmem]
      exact hturns

/-- For every `j`, memory has the first `j` writes after some number of turns. -/
theorem TurnsWrite.exists_turns {cs : List Host.Cell} {s t : State} (h : TurnsWrite cs s t) {j : Nat}
    (hj : j ≤ cs.length) : ∃ n, (engineTurns n s).mem = writeCells s.mem (cs.take j) := by
  induction h generalizing j with
  | refl s => exact ⟨0, by rw [List.take_nil]; rfl⟩
  | @turn cs ds s t hone hmem hrest ih =>
    rw [List.length_append] at hj
    by_cases hzero : j = 0
    · exact ⟨0, by rw [hzero]; rfl⟩
    · obtain ⟨i, rfl⟩ := Nat.exists_eq_add_of_le (show cs.length ≤ j by omega)
      obtain ⟨n, hturns⟩ := ih (j := i) (by omega)
      refine ⟨n + 1, ?_⟩
      rw [List.take_length_add_append, writeCells_append, ← hmem]
      exact hturns

/-! ### Writes by their addresses -/

/-- Writes at different addresses are all there afterwards. -/
theorem readByte_writeCells_of_mem {cs : List Host.Cell} (h : (cs.map Prod.fst).Nodup) (m : Memory)
    {c : Host.Cell} (hc : c ∈ cs) : readByte (writeCells m cs) c.1 = c.2 := by
  induction cs generalizing m with
  | nil => cases hc
  | cons d cs ih =>
    rw [List.map_cons, List.nodup_cons] at h
    obtain ⟨hd, hcs⟩ := h
    rw [writeCells_cons]
    obtain rfl | hc := List.mem_cons.mp hc
    · rw [readByte_writeCells_other fun e he heq => hd (List.mem_map.mpr ⟨e, he, heq.symm⟩),
        readByte_writeByte_same]
    · exact ih hcs _ hc

/-- The engine's own turns lead from `s` to `t` and write one byte at each of the addresses, in
order. -/
def TurnsWriteAt (as : List Nat) (s t : State) : Prop :=
  ∃ cs, cs.map Prod.fst = as ∧ TurnsWrite cs s t

theorem TurnsWriteAt.single {as : List Nat} {s t : State} (ht : engineTurn s = t)
    (hone : as.length ≤ 1)
    (hmem : ∃ cs : List Host.Cell, cs.map Prod.fst = as ∧ t.mem = writeCells s.mem cs) :
    TurnsWriteAt as s t := by
  obtain ⟨cs, rfl, hmem⟩ := hmem
  rw [List.length_map] at hone
  exact ⟨cs, rfl, .single ht hone hmem⟩

theorem TurnsWriteAt.refl (s : State) : TurnsWriteAt [] s s := ⟨[], rfl, .refl s⟩

theorem TurnsWriteAt.trans {as bs : List Nat} {s t u : State} (h : TurnsWriteAt as s t)
    (k : TurnsWriteAt bs t u) : TurnsWriteAt (as ++ bs) s u := by
  obtain ⟨cs, rfl, hcs⟩ := h
  obtain ⟨ds, rfl, hds⟩ := k
  exact ⟨cs ++ ds, List.map_append, hcs.trans hds⟩

/-- A turn that writes no byte. -/
theorem TurnsWriteAt.quiet {s t : State} (ht : engineTurn s = t) (hmem : t.mem = s.mem) :
    TurnsWriteAt [] s t :=
  .single ht (Nat.zero_le 1) ⟨[], rfl, hmem⟩

theorem TurnsWriteAt.after_quiet {as : List Nat} {s t u : State} (h : TurnsWriteAt as t u)
    (ht : engineTurn s = t) (hmem : t.mem = s.mem) : TurnsWriteAt as s u :=
  (TurnsWriteAt.quiet ht hmem).trans h

theorem TurnsWriteAt.then_quiet {as : List Nat} {s t u : State} (h : TurnsWriteAt as s t)
    (hu : engineTurn t = u) (hmem : u.mem = t.mem) : TurnsWriteAt as s u := by
  rw [← as.append_nil]
  exact h.trans (.quiet hu hmem)

/-- Writes at different addresses are of the bytes the last state holds. -/
theorem TurnsWriteAt.turnsWrite {as : List Nat} {s t : State} (h : TurnsWriteAt as s t)
    (hnodup : as.Nodup) : TurnsWrite (as.map fun a => (a, readByte t.mem a)) s t := by
  obtain ⟨cs, rfl, hcs⟩ := h
  have hcells : (cs.map Prod.fst).map (fun a => (a, readByte t.mem a)) = cs := by
    rw [List.map_map, hcs.mem_eq]
    refine (List.map_congr_left fun c hc => ?_).trans cs.map_id
    exact Prod.ext rfl (readByte_writeCells_of_mem hnodup s.mem hc)
  rwa [hcells]

/-! ### PACK -/

theorem packOther_cells (P : Params) (slot : Nat) (sym op : Byte) (st : PackLoop) :
    ∃ cs : List Host.Cell, cs.map Prod.fst = (if P.packOther ≠ .nowrite then [slot] else []) ∧
      (packOther P slot sym op st).mem = writeCells st.mem cs := by
  unfold packOther packOtherByte
  cases P.packOther with
  | copy => exact ⟨[(slot, sym)], rfl, rfl⟩
  | nowrite => exact ⟨[], rfl, rfl⟩
  | operand => exact ⟨[(slot, op)], rfl, rfl⟩

/-- An element writes its slot but for a symbol that is neither '1' nor '0' under NOWRITE (R134). -/
theorem packElem_cells (P : Params) (l : Latched) (idx : Nat) (pos : BitVec 3) (st : PackLoop) :
    ∃ cs : List Host.Cell, cs.map Prod.fst
        = (if P.packOther ≠ .nowrite ∨ readByte st.mem (symbolAddr l idx) = symbolOne ∨
            readByte st.mem (symbolAddr l idx) = symbolZero then [slotAddr l idx] else []) ∧
      (packElem P l idx pos st).mem = writeCells st.mem cs := by
  by_cases hone : readByte st.mem (symbolAddr l idx) = symbolOne
  · simp only [packElem, if_pos hone]
    exact ⟨[(_, _)], (if_pos (.inr (.inl hone))).symm, rfl⟩
  by_cases hzero : readByte st.mem (symbolAddr l idx) = symbolZero
  · simp only [packElem, if_neg hone, if_pos hzero]
    exact ⟨[(_, _)], (if_pos (.inr (.inr hzero))).symm, rfl⟩
  · simp only [packElem, hone, hzero, or_false, if_false]
    exact packOther_cells _ _ _ _ _

theorem packWritesSlot_iff (P : Params) (l : Latched) (m : Memory) (n : Nat) :
    packWritesSlot P l m n = true ↔ P.packOther ≠ .nowrite ∨
      readByte (packAfter P l m n).mem (symbolAddr l n) = symbolOne ∨
      readByte (packAfter P l m n).mem (symbolAddr l n) = symbolZero := by
  simp only [packWritesSlot, Bool.or_eq_true, decide_eq_true_eq, or_assoc]
  rfl

/-- Of the loop, the element at `n` writes its slot exactly when `packWritesSlot` says so. -/
theorem packAfter_cells (P : Params) (l : Latched) (m : Memory) (n : Nat) :
    ∃ cs : List Host.Cell,
      cs.map Prod.fst = ([n].filter (packWritesSlot P l m)).map (slotAddr l) ∧
      (packAfter P l m (n + 1)).mem = writeCells (packAfter P l m n).mem cs := by
  obtain ⟨cs, haddr, hmem⟩ := packElem_cells P l n (BitVec.ofNat 3 (n % 8))
    (enterElem n (packAfter P l m n))
  refine ⟨cs, ?_, hmem⟩
  simp only [haddr, enterElem_mem, ← packWritesSlot_iff, List.filter_singleton, Bool.cond_eq_ite]
  split <;> rfl

theorem packFrom_turnsWriteAt (s : State) (l : Latched) {n : Nat} (hn : n ≤ 8 * groupCount l) :
    TurnsWriteAt (((List.range n).filter (packWritesSlot s.params l s.mem)).map (slotAddr l))
      (packStateAt s l 0 (packAfter s.params l s.mem 0))
      (packStateAt s l n (packAfter s.params l s.mem n)) := by
  induction n with
  | zero => exact .refl _
  | succ n ih =>
    rw [List.range_succ, List.filter_append, List.map_append]
    refine (ih (Nat.le_of_succ_le hn)).trans ?_
    refine .single (engineTurn_packStateAt s (by omega) _) ?_
      (packAfter_cells s.params l s.mem n)
    rw [List.length_map]
    exact List.length_filter_le _ _

theorem pkCheck_turnsWriteAt_out_of_range {s : State} {l : Latched}
    (hrange : packInRange s.params l = false) :
    TurnsWriteAt [] { s with engine := .pkCheck l } (finish s (runPack l s)) := by
  have hrun : runPack l s = .error .indexOutOfBounds := by simp [runPack, hrange]
  have hcheck : engineTurn { s with engine := .pkCheck l }
      = { s with engine := .pkEnd .indexOutOfBounds } := by
    simp [engineTurn, turnPkCheck, hrange]
  rw [hrun]
  exact (TurnsWriteAt.quiet hcheck rfl).then_quiet rfl rfl

/-- PACK's turns from PK_CHECK write the slots `packWritesSlot` names, in ascending order. -/
theorem pkCheck_turnsWriteAt_in_range {s : State} {l : Latched}
    (hrange : packInRange s.params l = true) :
    TurnsWriteAt (((List.range (8 * groupCount l)).filter
        (packWritesSlot s.params l s.mem)).map (slotAddr l))
      { s with engine := .pkCheck l } (finish s (runPack l s)) := by
  have hcheck : engineTurn { s with engine := .pkCheck l }
      = packStateAt s l 0 (packAfter s.params l s.mem 0) :=
    turnPkCheck_in_range (s := { s with engine := .pkCheck l }) hrange
  have hfinish : engineTurn (packStateAt s l (8 * groupCount l)
      (packAfter s.params l s.mem (8 * groupCount l))) = finish s (runPack l s) := by
    rw [runPack, if_pos hrange, packAll_eq_packAfter, packStateAt, if_pos rfl]
    rfl
  have hmem : (finish s (runPack l s)).mem
      = (packAfter s.params l s.mem (8 * groupCount l)).mem := by
    rw [runPack, if_pos hrange, packAll_eq_packAfter]
    rfl
  exact ((packFrom_turnsWriteAt s l le_rfl).after_quiet hcheck rfl).then_quiet hfinish hmem

/-! ### ENCODE -/

theorem elemCells_addresses (a n v : Nat) : (elemCells a n v).map Prod.fst = List.Ico a (a + n) := by
  induction n generalizing a v with
  | zero => rw [Nat.add_zero, List.Ico.self_empty]; rfl
  | succ n ih =>
    rw [elemCells, List.map_cons, ih, List.Ico.eq_cons (n := a) (m := a + (n + 1)) (by omega),
      Nat.add_assoc, Nat.add_comm 1 n]

/-- The bytes that wait are written one per turn, in order. -/
theorem pend_turnsWrite (s : State) (l : Latched) (i : Nat) {st : EncLoop} {cs : List Host.Cell}
    (hmem : st.mem = writeCells s.mem cs) :
    TurnsWrite cs { s with engine := scanOrFinish l (encRegsAt i st cs) } (encStateAt s l i st) := by
  induction cs generalizing s with
  | nil =>
    rw [encStateAt, hmem]
    exact .refl _
  | cons c cs ih =>
    have hturn := TurnsWrite.single (cs := [c]) (engineTurn_pend s l i st c cs) le_rfl rfl
    exact hturn.trans (ih { s with mem := writeByte s.mem c.1 c.2 } hmem)

/-- The addresses of the elements from number `j` up to `k`. -/
def elemAddresses (P : Params) (l : Latched) (j k : Word) : List Nat :=
  List.Ico (elemAddr P l j.toNat) (elemAddr P l k.toNat)

theorem elemAddresses_self (P : Params) (l : Latched) (k : Word) : elemAddresses P l k k = [] :=
  List.Ico.self_empty

theorem elemAddresses_append (P : Params) (l : Latched) {i j k : Word} (hij : i.toNat ≤ j.toNat)
    (hjk : j.toNat ≤ k.toNat) :
    elemAddresses P l i j ++ elemAddresses P l j k = elemAddresses P l i k :=
  List.Ico.append_consecutive (elemAddr_mono P l hij) (elemAddr_mono P l hjk)

/-- The bytes of element `k` fill its addresses. -/
theorem elemCells_elemAddr (P : Params) (l : Latched) {k : Word} {n : Nat} (hk : k.toNat ≤ n)
    (hn : n + 1 < 2 ^ 32) (v : Nat) :
    (elemCells (elemAddr P l k.toNat) (elemBytes P) v).map Prod.fst
      = elemAddresses P l k (k + 1) := by
  rw [elemCells_addresses, elemAddresses, word_succ hk hn, elemAddr_succ]

/-- A turn on an index is R164's scan of it, with the bytes of its element waiting. -/
theorem engineTurn_encStateAt (s : State) {l : Latched} {i : Nat} (hi : i < l.enLen.toNat)
    {st : EncLoop} (hk : st.k.toNat ≤ i) : ∃ cs : List Host.Cell,
      cs.map Prod.fst = elemAddresses s.params l st.k (encIndex s.params l i st).k ∧
      (encIndex s.params l i st).mem = writeCells st.mem cs ∧
      engineTurn (encStateAt s l i st) = { s with
        mem := st.mem
        engine := scanOrFinish l (encRegsAt (i + 1) (encIndex s.params l i st) cs) } := by
  have hlen := l.enLen.isLt
  have htoNat : (BitVec.ofNat 32 i).toNat = i := by rw [BitVec.toNat_ofNat]; omega
  have hscan : scanOrFinish l (encRegsAt i st []) = .enScan l (encRegsAt i st []) :=
    if_pos (by rw [encRegsAt, htoNat]; exact hi)
  have hturn : engineTurn (encStateAt s l i st) = { s with
      mem := st.mem
      engine := scanOrFinish l (encIndexAt s.params l (readByte st.mem (packedAddr l i))
        (encRegsAt i st [])) } := by
    rw [encStateAt, hscan]
    simp only [engineTurn, turnEnScan, encRegsAt, htoNat]
  obtain ⟨hv, h⟩ | ⟨hv, h⟩ := encIndex_cases s.params l i st <;> rw [hturn, h]
  · refine ⟨[], (elemAddresses_self _ _ _).symm, rfl, ?_⟩
    simp only [encIndexAt, encRegsAt, htoNat, hv, if_true, BitVec.ofNat_add]
    rfl
  · refine ⟨_, elemCells_elemAddr s.params l hk (by omega) _, rfl, ?_⟩
    simp only [encIndexAt, encRegsAt, htoNat, hv, if_false, BitVec.ofNat_add]
    rfl

/-- The turns of an index write the bytes of the element it emits, or none. -/
theorem encIndex_turnsWriteAt (s : State) {l : Latched} {i : Nat} (hi : i < l.enLen.toNat)
    {st : EncLoop} (hk : st.k.toNat ≤ i) :
    TurnsWriteAt (elemAddresses s.params l st.k (encIndex s.params l i st).k)
      (encStateAt s l i st) (encStateAt s l (i + 1) (encIndex s.params l i st)) := by
  obtain ⟨cs, haddr, hmem, hturn⟩ := engineTurn_encStateAt s hi hk
  have hpend : TurnsWriteAt _ _ _ :=
    ⟨cs, haddr, pend_turnsWrite { s with mem := st.mem } l (i + 1) hmem⟩
  exact hpend.after_quiet hturn rfl

theorem encScan_turnsWriteAt (s : State) (l : Latched) (n i : Nat) {st : EncLoop}
    (h : i + n = l.enLen.toNat) (hk : st.k.toNat ≤ i) (hrun : st.run.toNat ≤ i) :
    TurnsWriteAt (elemAddresses s.params l st.k (encScan s.params l n i st).k)
      (encStateAt s l i st) (encStateAt s l l.enLen.toNat (encScan s.params l n i st)) := by
  induction n generalizing i st with
  | zero =>
    rw [encScan, elemAddresses_self, ← h]
    exact .refl _
  | succ n ih =>
    have hlen := l.enLen.isLt
    obtain ⟨hk', hrun', hmono⟩ := encIndex_bounds s.params l (i := i) (by omega) hk hrun
    obtain ⟨-, -, hmono'⟩ := encScan_bounds s.params l (n := n) (i := i + 1) (by omega) hk' hrun'
    rw [encScan, ← elemAddresses_append s.params l hmono hmono']
    exact (encIndex_turnsWriteAt s (by omega) hk).trans (ih (i + 1) (by omega) hk' hrun')

/-- EN_PRE is R163's pre-step, with the bytes of the marker waiting. -/
theorem engineTurn_enPre_cells (s : State) (l : Latched) : ∃ cs : List Host.Cell,
    cs.map Prod.fst = elemAddresses s.params l 0 (encPre s.params l s.mem).k ∧
    (encPre s.params l s.mem).mem = writeCells s.mem cs ∧
    engineTurn { s with engine := .enPre l } = { s with
      engine := scanOrFinish l (encRegsAt
        (startCursor s.params (readByte s.mem (packedAddr l 0))).toNat
        (encPre s.params l s.mem) cs) } := by
  by_cases h : readByte s.mem (packedAddr l 0) = 0x00#8
  · refine ⟨elemCells (elemAddr s.params l 0) (elemBytes s.params)
      (0 % 2 ^ (8 * elemBytes s.params)), ?_, ?_, ?_⟩
    · simp only [encPre, if_pos h]
      exact elemCells_elemAddr s.params l (k := 0) (n := 0) le_rfl (by decide) _
    · simp only [encPre, if_pos h]
      rfl
    · simp only [engineTurn, turnEnPre, encPre, if_pos h, encRegsAt, BitVec.ofNat_toNat,
        BitVec.setWidth_eq]
      rfl
  · refine ⟨[], ?_, ?_, ?_⟩
    · simp only [encPre, if_neg h]
      exact (elemAddresses_self s.params l 0).symm
    · simp only [encPre, if_neg h]
      rfl
    · simp only [engineTurn, turnEnPre, encPre, if_neg h, encRegsAt, BitVec.ofNat_toNat,
        BitVec.setWidth_eq]

theorem encPre_k_le_startCursor (P : Params) (l : Latched) (m : Memory) :
    (encPre P l m).k.toNat ≤ (startCursor P (readByte m (packedAddr l 0))).toNat := by
  obtain ⟨hv, h⟩ | ⟨-, h⟩ := encPre_cases P l m <;> rw [h]
  · simp [startCursor, hv]
  · exact Nat.zero_le _

theorem encPre_run (P : Params) (l : Latched) (m : Memory) : (encPre P l m).run = 0 := by
  obtain ⟨-, h⟩ | ⟨-, h⟩ := encPre_cases P l m <;> rw [h]

/-- ENCODE's turns from EN_PRE to EN_FINISH write the bytes of the emitted elements, in ascending
order. -/
theorem enPre_turnsWriteAt (s : State) {l : Latched} (hlen : l.enLen.toNat ≠ 0) :
    TurnsWriteAt (elemAddresses s.params l 0 (encAll s.params l s.mem).k)
      { s with engine := .enPre l }
      (encStateAt s l l.enLen.toNat (encAll s.params l s.mem)) := by
  obtain ⟨cs, haddr, hmem, hturn⟩ := engineTurn_enPre_cells s l
  have hcursor := startCursor_le_one s.params (readByte s.mem (packedAddr l 0))
  have hk := encPre_k_le_startCursor s.params l s.mem
  have hrun : (encPre s.params l s.mem).run.toNat
      ≤ (startCursor s.params (readByte s.mem (packedAddr l 0))).toNat := by
    rw [encPre_run]; exact Nat.zero_le _
  have hlt := l.enLen.isLt
  unfold encAll
  dsimp only
  generalize (startCursor s.params (readByte s.mem (packedAddr l 0))).toNat = cursor at *
  obtain ⟨-, -, hmono⟩ := encScan_bounds s.params l (n := l.enLen.toNat - cursor) (by omega) hk hrun
  rw [← elemAddresses_append s.params l (Nat.zero_le _) hmono]
  have hpend : TurnsWriteAt _ _ _ := ⟨cs, haddr, pend_turnsWrite s l cursor hmem⟩
  exact (hpend.after_quiet hturn rfl).trans (encScan_turnsWriteAt s l _ cursor (by omega) hk hrun)

theorem enCheck_turnsWriteAt_out_of_range {s : State} {l : Latched}
    (hrange : encInRange s.params l = false) :
    TurnsWriteAt [] { s with engine := .enCheck l } (finish s (runEncode l s)) := by
  have hrun : runEncode l s = .error .indexOutOfBounds := by simp [runEncode, hrange]
  have hcheck : engineTurn { s with engine := .enCheck l }
      = { s with engine := .enEnd .indexOutOfBounds } := by
    simp [engineTurn, turnEnCheck, hrange]
  rw [hrun]
  exact (TurnsWriteAt.quiet hcheck rfl).then_quiet rfl rfl

/-- ENCODE's turns from EN_CHECK write the bytes of the emitted elements, in ascending order. -/
theorem enCheck_turnsWriteAt_in_range {s : State} {l : Latched}
    (hrange : encInRange s.params l = true) :
    TurnsWriteAt (elemAddresses s.params l 0 (encAll s.params l s.mem).k)
      { s with engine := .enCheck l } (finish s (runEncode l s)) := by
  have hcheck : engineTurn { s with engine := .enCheck l } = { s with engine := .enPre l } := by
    simp [engineTurn, turnEnCheck, hrange]
  obtain ⟨hlen, -, -⟩ := encInRange_iff.mp hrange
  have hdone : scanOrFinish l (encRegsAt l.enLen.toNat (encAll s.params l s.mem) [])
      = .enFinish l (encRegsAt l.enLen.toNat (encAll s.params l s.mem) []) :=
    if_neg (by simp [encRegsAt])
  have hfinish : engineTurn (encStateAt s l l.enLen.toNat (encAll s.params l s.mem))
      = finish s (runEncode l s) := by
    rw [runEncode, if_pos hrange, encStateAt, hdone]
    rfl
  have hmem : (finish s (runEncode l s)).mem = (encAll s.params l s.mem).mem := by
    rw [runEncode, if_pos hrange]
    rfl
  exact ((enPre_turnsWriteAt s hlen).after_quiet hcheck rfl).then_quiet hfinish hmem

/-! ### Every command -/

/-- From acceptance to `t` the engine's turns write the cells of `commandWrites`, all of them inside
memory. -/
def WritesItsCells (c : Option Instr) (s t : State) : Prop :=
  (∀ d ∈ commandWrites c s t, d.1 < memBytes s.params) ∧
    TurnsWrite (commandWrites c s t) (accept c s) t

theorem TurnsWriteAt.writesItsCells {c : Option Instr} {s t : State} {as : List Nat}
    (h : TurnsWriteAt as (accept c s) t) (hnodup : as.Nodup) (hin : ∀ a ∈ as, a < memBytes s.params)
    (hcells : commandWrites c s t = as.map fun a => (a, readByte t.mem a)) :
    WritesItsCells c s t := by
  unfold WritesItsCells
  rw [hcells]
  exact ⟨List.forall_mem_map.mpr hin, h.turnsWrite hnodup⟩

theorem pack_writesItsCells (s : State) : WritesItsCells (some .pack) s
    (finish (accept (some .pack) s) (runPack (latch s) (accept (some .pack) s))) := by
  cases hrange : packInRange s.params (latch s)
  · have hturns := (pkCheck_turnsWriteAt_out_of_range (s := accept (some .pack) s)
      hrange).after_quiet (s := accept (some .pack) s) rfl rfl
    exact hturns.writesItsCells List.nodup_nil nofun (if_neg (by simp [hrange]))
  · have hturns := (pkCheck_turnsWriteAt_in_range (s := accept (some .pack) s)
      hrange).after_quiet (s := accept (some .pack) s) rfl rfl
    refine hturns.writesItsCells ?_ (List.forall_mem_map.mpr fun idx hidx => ?_) ?_
    · exact (List.nodup_range.filter _).map fun _ _ => slotAddr_injective
    · obtain ⟨-, hdst⟩ := packInRange_iff.mp hrange
      have hgroups := groupCount_le (latch s)
      have hlt := List.mem_range.mp (List.mem_filter.mp hidx).1
      unfold slotAddr
      omega
    · rw [List.map_map]
      exact if_pos hrange

/-- `commandWrites` counts the bytes of ENCODE's elements from EN_DST. -/
theorem elemAddresses_zero (P : Params) (l : Latched) (k : Word) : elemAddresses P l 0 k
    = (List.range (elemBytes P * k.toNat)).map (l.enDst.toNat + ·) := by
  rw [← List.Ico.zero_bot, List.Ico.map_add, Nat.zero_add, Nat.add_comm _ l.enDst.toNat]
  rfl

theorem finish_runEncode_enOutlen {s : State} {l : Latched}
    (hrange : encInRange s.params l = true) :
    (finish s (runEncode l s)).enOutlen = (encAll s.params l s.mem).k := by
  rw [runEncode, if_pos hrange]
  rfl

theorem encode_writesItsCells (s : State) : WritesItsCells (some .encode) s
    (finish (accept (some .encode) s) (runEncode (latch s) (accept (some .encode) s))) := by
  cases hrange : encInRange s.params (latch s)
  · have hturns := (enCheck_turnsWriteAt_out_of_range (s := accept (some .encode) s)
      hrange).after_quiet (s := accept (some .encode) s) rfl rfl
    exact hturns.writesItsCells List.nodup_nil nofun (if_neg (by simp [hrange]))
  · have hturns := (enCheck_turnsWriteAt_in_range (s := accept (some .encode) s)
      hrange).after_quiet (s := accept (some .encode) s) rfl rfl
    refine hturns.writesItsCells (List.Ico.nodup _ _) (fun a ha => ?_) ?_
    · obtain ⟨hlen, -, hdst⟩ := encInRange_iff.mp hrange
      obtain ⟨hk, -⟩ := encAll_bounds s.params (latch s) s.mem hlen
      exact (List.Ico.mem.mp ha).2.trans_le ((elemAddr_mono s.params (latch s) hk).trans hdst)
    · rw [← finish_runEncode_enOutlen (s := accept (some .encode) s) hrange, elemAddresses_zero,
        List.map_map]
      exact if_pos hrange

/-- A verdict other than PACK and ENCODE completes in one turn and writes no byte. -/
theorem writesItsCells_of_turn {c : Option Instr} {s t : State} (hpack : c ≠ some .pack)
    (hencode : c ≠ some .encode) (ht : engineTurn (accept c s) = t) : WritesItsCells c s t := by
  have hnone : commandWrites c s t = [] := by
    unfold commandWrites
    split
    · exact absurd rfl hpack
    · exact absurd rfl hencode
    · rfl
  exact TurnsWriteAt.writesItsCells (.quiet ht (ht ▸ turnAccepted_mem c (latch s) (accept c s)))
    List.nodup_nil nofun hnone

theorem runOf_writesItsCells (i : Instr) (s : State) : WritesItsCells (some i) s
    (finish (accept (some i) s) (runOf i (latch s) (accept (some i) s))) := by
  cases i with
  | pack => exact pack_writesItsCells s
  | encode => exact encode_writesItsCells s
  | nop => exact writesItsCells_of_turn nofun nofun rfl
  | getBit byte pos => exact writesItsCells_of_turn nofun nofun rfl
  | setBit byte pos => exact writesItsCells_of_turn nofun nofun rfl
  | clearBit byte pos => exact writesItsCells_of_turn nofun nofun rfl

theorem runCommandWord_writesItsCells {s : State} (hbusy : s.status.busy = false) (w : Word) :
    ∃ t, runCommandWord w s = .next t ∧ t.engine = .idle ∧ WritesItsCells (verdict w) s t := by
  obtain ⟨hbusy', -⟩ | ⟨-, i, hw, hrun⟩ | ⟨-, hw, hrun⟩ := runCommandWord_cases w s
  · cases hbusy.symm.trans hbusy'
  · exact ⟨_, hrun, finish_engine _ _, hw ▸ runOf_writesItsCells i s⟩
  · exact ⟨_, hrun, rfl, by rw [hw]; exact writesItsCells_of_turn nofun nofun rfl⟩

/-- Settles O39: reset keeps memory, and the turns from acceptance write the command's cells one at a
time. -/
theorem abortLeavesAPrefixOfTheWrites : Obligations.AbortLeavesAPrefixOfTheWrites := by
  intro s w hbusy
  obtain ⟨t, hrun, hidle, hin, hturns⟩ := runCommandWord_writesItsCells hbusy w
  have hissue : issue w s = accept (verdict w) s := writeReg_cmd_idle hbusy w
  refine ⟨t, hrun, hin, hturns.mem_eq, fun n => ?_, fun j hj => ?_⟩ <;>
    simp only [resetCore_mem, hissue]
  · exact hturns.exists_take hidle n
  · exact hturns.exists_turns hj

end Sys2Proof.Machine
end
